-- ==== Sys2Proof/Word.lean ====
section
/-! DEFINITION. The words of the block: bytes, 16-bit and 32-bit quantities, byte sequences (00_scope.md R13, R14, R15). -/

namespace Sys2Proof

/-- `u8`, one wire element (R13, R14). -/
abbrev Byte := BitVec 8

/-- `u16`: a register address, a register value, a word count or a CRC (R13, R14). -/
abbrev U16 := BitVec 16

/-- `u32`: two consecutive registers, most significant first (R13, R14). -/
abbrev U32 := BitVec 32

/-- `Bytes`, a finite sequence of bytes; index 0 is the first byte on the wire (R15). -/
abbrev Bytes := List Byte

end Sys2Proof
end

