-- ==== Sys2Proof/Machine/Outcome.lean ====
section
/-! DEFINITION. What an operation returns: the failure kinds, the outcome a transaction records, the value handed to the host (60_exceptions.md R250, R251; 10_state.md R26). -/

namespace Sys2Proof.Machine

/-- The failure kinds of 60_exceptions.md R250, in the order of its codes 1 to 6. -/
inductive FailKind where
  /-- 1: a write value out of range, a count above `MAX_COUNT`, or a request the builder refuses. -/
  | invalidArgument
  /-- 2: zero bytes captured. -/
  | timeout
  /-- 3: the captured length is not the expected one. -/
  | unexpectedLength
  /-- 4: the CRC of the captured frame does not match its trailing two bytes. -/
  | checksumMismatch
  /-- 5: the CRC is right, and the address, function code or byte count is not. -/
  | malformedResponse
  /-- 6: the echo of a write differs from the request. -/
  | echoMismatch
  deriving DecidableEq, Repr, Inhabited

/-- The outcome kinds: `Ok`, code 0, or a failure kind (R250). -/
inductive Kind where
  | ok
  | fail (k : FailKind)
  deriving DecidableEq, Repr, Inhabited

/-- The outcome of a transaction or of `VALIDATE`: `Ok` with the accepted response, or a failure kind
(00_scope.md R18, 10_state.md R26). -/
inductive Result where
  | ok (r : Bytes)
  | fail (k : FailKind)
  deriving DecidableEq, Repr

/-- A value an operation returns. Text is its sequence of character codes (45_register_ops.md R225, log 22). -/
inductive Value where
  | unit
  | u16 (v : U16)
  | u32 (v : U32)
  | nat (n : Nat)
  | int (z : Int)
  | bytes (s : Bytes)
  | text (s : Bytes)
  deriving DecidableEq, Repr

/-- What an operation hands back to the host: the outcome kind and the value, which is the zero of its type
beside a failure (45_register_ops.md R213, 60_exceptions.md R251). -/
structure Ret where
  kind  : Kind
  value : Value
  deriving DecidableEq, Repr

/-- The trace events of 60_exceptions.md R262. -/
inductive TraceEvent where
  | requestBuilt (f : Bytes)
  | bytesSent (f : Bytes)
  | bytesReceived (c : Bytes)
  | validationResult (k : Kind)
  deriving DecidableEq, Repr

/-- One entry of the observation history: a link event or a trace event (00_scope.md R17). -/
inductive Event where
  | linkWrite (f : Bytes)
  | linkCapture (c : Bytes)
  | trace (e : TraceEvent)
  deriving DecidableEq, Repr

end Sys2Proof.Machine
end

