-- ==== Sys2Proof/Syntax.lean ====
section
/-! DEFINITION. The instructions: one constructor for each row of spec/opcode_table.json, with the row's operands (30_encoding.md R69, R70, R71, R77). -/

namespace Sys2Proof

/-- A frame of exactly 8 bytes (00_scope.md R15), its bytes named by the REQ layout of 30_encoding.md R61,
offset 0 first. -/
structure Frame8 where
  dev    : Byte
  fc     : Byte
  addrHi : Byte
  addrLo : Byte
  valHi  : Byte
  valLo  : Byte
  crcLo  : Byte
  crcHi  : Byte
  deriving DecidableEq, Repr

/-- The attributes of the register map (45_register_ops.md R210). -/
inductive Attribute where
  | temperature | meterStatus | outputStatus | co2 | pwmOutput | sensorTypeId | memoryMapVersion
  | softwareVersion | sensorId | serialNumber
  | abcPeriod | userAck | specialCommand | userConcentration
  deriving DecidableEq, Repr

/-- One constructor per row of the opcode table. -/
inductive Instr where
  /-- REQ.READ_HR: an 8-byte request with function code 0x03; its address, count and CRC fields (R61, R122). -/
  | reqReadHr (addr val crc : U16)
  /-- REQ.READ_IR: function code 0x04 (R61, R123). -/
  | reqReadIr (addr val crc : U16)
  /-- REQ.WRITE_SR: function code 0x06 (R61, R124). -/
  | reqWriteSr (addr val crc : U16)
  /-- RRESP: a read response; the device byte, the byte count and the CRC follow from these (R65). -/
  | rresp (fc : Byte) (payload : Bytes)
  /-- WRESP: the echo of the write request with these fields (R66). -/
  | wresp (addr val : U16)
  /-- CRC16 s (R102). -/
  | crc16 (s : Bytes)
  /-- CRC_APPEND s (R104). -/
  | crcAppend (s : Bytes)
  /-- BUILD fc, addr, val (R121). -/
  | build (fc : Byte) (addr val : U16)
  /-- EXPECTED_LEN s (R141). -/
  | expectedLen (f : Frame8)
  /-- VALIDATE s, r (R142). -/
  | validate (f : Frame8) (r : Bytes)
  /-- EXTRACT_U16 r, off (R150). -/
  | extractU16 (r : Bytes) (off : Nat)
  /-- EXTRACT_U32 r, off (R151). -/
  | extractU32 (r : Bytes) (off : Nat)
  /-- EXTRACT_BYTES r, off, k (R152). -/
  | extractBytes (r : Bytes) (off k : Nat)
  /-- TRANSACT fc, addr, val (R190). -/
  | transact (fc : Byte) (addr val : U16)
  /-- CRC_BYTE c, b (R101). -/
  | crcByte (c : U16) (b : Byte)
  /-- SEND, step T2 of a transaction (R170). -/
  | send
  /-- CLEAR, step T3 of a transaction (R174). -/
  | clear
  /-- CAPTURE, step T4 of a transaction (R172). -/
  | capture
  /-- READ_HR addr, count (R77). -/
  | readHr (addr count : U16)
  /-- READ_IR addr, count (R77). -/
  | readIr (addr count : U16)
  /-- WRITE_HR addr, value (R77). -/
  | writeHr (addr value : U16)
  /-- GET_SERIAL_NUMBER (R226). -/
  | getSerialNumber
  /-- GET_SOFTWARE_VERSION (R227). -/
  | getSoftwareVersion
  /-- GET_CO2 (R228). -/
  | getCo2
  /-- GET_TEMPERATURE (R229). -/
  | getTemperature
  /-- GET_ABC_PERIOD (R230). -/
  | getAbcPeriod
  /-- SET_ABC_PERIOD v (R231). -/
  | setAbcPeriod (v : U16)
  /-- SET_USER_CONCENTRATION v (R232). -/
  | setUserConcentration (v : U16)
  /-- GET_USER_CONCENTRATION (R233). -/
  | getUserConcentration
  /-- GET_USER_ACK (R234). -/
  | getUserAck
  /-- SET_USER_ACK v (R235). -/
  | setUserAck (v : U16)
  /-- SET_SPECIAL_COMMAND v (R236). -/
  | setSpecialCommand (v : U16)
  /-- GET_METER_STATUS (R237). -/
  | getMeterStatus
  /-- GET_OUTPUT_STATUS (R238). -/
  | getOutputStatus
  /-- GET_PWM_OUTPUT (R239). -/
  | getPwmOutput
  /-- GET_SENSOR_TYPE_ID (R240). -/
  | getSensorTypeId
  /-- GET_SENSOR_ID (R241). -/
  | getSensorId
  /-- GET_MEMORY_MAP_VERSION (R242). -/
  | getMemoryMapVersion
  deriving DecidableEq, Repr

end Sys2Proof
end

