-- ==== Sys2Proof/Config.lean ====
section
/-! DEFINITION. The constants, the session's parameters and the free values (00_scope.md R7 to R11; 10_state.md R21). -/

namespace Sys2Proof

/-- `DEV_ADDR`, the address byte of every frame (R7). -/
def Config.devAddr : Byte := 0xFE

/-- "read holding registers" (R63). -/
def Config.fcReadHr : Byte := 0x03

/-- "read input registers" (R63). -/
def Config.fcReadIr : Byte := 0x04

/-- "write single register" (R63). -/
def Config.fcWriteSr : Byte := 0x06

/-- The CRC register's value at the start of each computation (40_crc16.md R100). -/
def Config.crcInit : U16 := 0xFFFF

/-- The CRC's polynomial, in the right-shifting form (R100, R101). -/
def Config.crcPoly : U16 := 0xA001

/-- The address of the temperature register, the one the spec gives (R11). -/
def Config.temperatureAddr : U16 := 0x0004

/-- `REG_ADDR` of every attribute but temperature (R11, 45_register_ops.md R210). -/
structure RegAddr where
  meter : U16
  output : U16
  co2 : U16
  pwm : U16
  typeId : U16
  mmapVer : U16
  fwVer : U16
  sensId : U16
  serial : U16
  abc : U16
  ack : U16
  special : U16
  conc : U16
  deriving DecidableEq, Repr

/-- The parameters bound when the block's instance is created; no operation writes them
(10_state.md R21, 70_reset_and_hazards.md R283). -/
structure Params where
  /-- `CAP`, the capacity of the response buffer (R8). -/
  cap : Nat
  /-- `TIMEOUT_S`, in whole seconds; no rule computes with it (R9). -/
  timeoutS : Nat
  /-- `REG_ADDR` (R11). -/
  regAddr : RegAddr
  deriving DecidableEq, Repr

/-- `CAP ≥ 20` and `TIMEOUT_S ≥ 1` (R8, R9). -/
abbrev Params.wf (p : Params) : Prop := 20 ≤ p.cap ∧ 1 ≤ p.timeoutS

/-! The OPEN parameters of the block, as constants with no body (log 7). -/

/-- How far `CAP` exceeds 20 (R8, D2). -/
opaque Config.capOver20 : Nat
/-- How far `TIMEOUT_S` exceeds 1 (R9, D3). -/
opaque Config.timeoutOver1 : Nat
/-- `A_METER` (R11, D13). -/
opaque Config.addrMeter : U16
/-- `A_OUTPUT` (R11, D13). -/
opaque Config.addrOutput : U16
/-- `A_CO2` (R11, D13). -/
opaque Config.addrCo2 : U16
/-- `A_PWM` (R11, D13). -/
opaque Config.addrPwm : U16
/-- `A_TYPEID` (R11, D13). -/
opaque Config.addrTypeId : U16
/-- `A_MMAPVER` (R11, D13). -/
opaque Config.addrMmapVer : U16
/-- `A_FWVER` (R11, D13). -/
opaque Config.addrFwVer : U16
/-- `A_SENSID` (R11, D13). -/
opaque Config.addrSensId : U16
/-- `A_SERIAL` (R11, D13). -/
opaque Config.addrSerial : U16
/-- `A_ABC` (R11, D13). -/
opaque Config.addrAbc : U16
/-- `A_ACK` (R11, D13). -/
opaque Config.addrAck : U16
/-- `A_SPECIAL` (R11, D13). -/
opaque Config.addrSpecial : U16
/-- `A_CONC` (R11, D13). -/
opaque Config.addrConc : U16

/-- The parameters of the machine that State.reset stands for: every value the spec leaves OPEN stays open. -/
def Config.params : Params :=
  { cap := 20 + Config.capOver20
    timeoutS := 1 + Config.timeoutOver1
    regAddr :=
      { meter := Config.addrMeter, output := Config.addrOutput, co2 := Config.addrCo2, pwm := Config.addrPwm,
        typeId := Config.addrTypeId, mmapVer := Config.addrMmapVer, fwVer := Config.addrFwVer,
        sensId := Config.addrSensId, serial := Config.addrSerial, abc := Config.addrAbc, ack := Config.addrAck,
        special := Config.addrSpecial, conc := Config.addrConc } }

/-! Free values: nothing constrains them. -/

/-- The bytes of the `n`-th free answer of the capture oracle (43_capture.md R171, log 8). -/
opaque Config.freeChunk : Nat → Bytes

/-- Whether the `n`-th capture takes the byte at this place of an arrival longer than `CAP` (R177, log 8). -/
opaque Config.freeTaken : Nat → Nat → Bool

/-- Whether what the `n`-th capture leaves on the link is read together with the arrival after it (R173, R177,
log 8). -/
opaque Config.freeJoined : Nat → Bool

/-- The kind the outcome register shows while it is not valid (10_state.md R32, log 21). -/
opaque Config.unsetKind : Machine.Kind

end Sys2Proof
end

