-- ==== Sys2Proof/Machine/Operands.lean ====
section
/-! DEFINITION. The operand forms: byte assembly, the fields of a frame, the operand types' bounds, the attribute table (00_scope.md R14, R15; 30_encoding.md R68, R69; 45_register_ops.md R210). -/

namespace Sys2Proof.Machine

/-- `v[15:8]` (R14). -/
def hiByte (v : U16) : Byte := (v >>> 8).setWidth 8

/-- `v[7:0]` (R14). -/
def loByte (v : U16) : Byte := v.setWidth 8

/-- Two bytes, most significant first (R14). -/
def be16 (h l : Byte) : U16 := (h.setWidth 16 <<< 8) ||| l.setWidth 16

/-- Four bytes, most significant first (R14). -/
def be32 (b0 b1 b2 b3 : Byte) : U32 :=
  (b0.setWidth 32 <<< 24) ||| (b1.setWidth 32 <<< 16) ||| (b2.setWidth 32 <<< 8) ||| b3.setWidth 32

/-- The frame as the byte sequence it is on the wire (R61). -/
def frameBytes (f : Frame8) : Bytes :=
  [f.dev, f.fc, f.addrHi, f.addrLo, f.valHi, f.valLo, f.crcLo, f.crcHi]

/-- A `Frame8` is a sequence of length exactly 8 (R15); any other sequence does not fit the type (R69). -/
def frameOfBytes : Bytes → Option Frame8
  | [b0, b1, b2, b3, b4, b5, b6, b7] => some ⟨b0, b1, b2, b3, b4, b5, b6, b7⟩
  | _ => none

/-- `addr = be16(s[2], s[3])` (R68). -/
def frameAddr (f : Frame8) : U16 := be16 f.addrHi f.addrLo

/-- `val = be16(s[4], s[5])` (R68). -/
def frameVal (f : Frame8) : U16 := be16 f.valHi f.valLo

/-- `crc = be16(s[7], s[6])`, the high byte being the later one (R68, R103). -/
def frameCrc (f : Frame8) : U16 := be16 f.crcHi f.crcLo

/-- `fc ∈ {0x03, 0x04}` (R63). -/
def isReadCode (fc : Byte) : Bool := fc == Config.fcReadHr || fc == Config.fcReadIr

/-- `fc ∈ {0x03, 0x04, 0x06}` (R63). -/
def isFunctionCode (fc : Byte) : Bool := isReadCode fc || fc == Config.fcWriteSr

/-- A number as a `u8` operand, if it fits (R69). -/
def asU8 (n : Nat) : Option Byte := if n < 256 then some (BitVec.ofNat 8 n) else none

/-- A number as a `u16` operand, if it fits (R69). -/
def asU16 (n : Nat) : Option U16 := if n < 65536 then some (BitVec.ofNat 16 n) else none

/-- `MAX_COUNT = min(floor((CAP - 5) / 2), 127)` (R10). -/
def maxCount (p : Params) : Nat := min ((p.cap - 5) / 2) 127

/-- Input registers are read with 0x04, holding registers with 0x03 (R210). -/
def attrGetCode : Attribute → Byte
  | .temperature | .meterStatus | .outputStatus | .co2 | .pwmOutput | .sensorTypeId | .memoryMapVersion
  | .softwareVersion | .sensorId | .serialNumber => Config.fcReadIr
  | .abcPeriod | .userAck | .specialCommand | .userConcentration => Config.fcReadHr

/-- How many registers the attribute spans (R210). -/
def attrWords : Attribute → U16
  | .sensorTypeId | .sensorId => 2
  | .serialNumber => 5
  | .temperature | .meterStatus | .outputStatus | .co2 | .pwmOutput | .memoryMapVersion | .softwareVersion
  | .abcPeriod | .userAck | .specialCommand | .userConcentration => 1

/-- `REG_ADDR(a)` (00_scope.md R11, R210). -/
def regAddrOf (p : Params) : Attribute → U16
  | .temperature => Config.temperatureAddr
  | .meterStatus => p.regAddr.meter
  | .outputStatus => p.regAddr.output
  | .co2 => p.regAddr.co2
  | .pwmOutput => p.regAddr.pwm
  | .sensorTypeId => p.regAddr.typeId
  | .memoryMapVersion => p.regAddr.mmapVer
  | .softwareVersion => p.regAddr.fwVer
  | .sensorId => p.regAddr.sensId
  | .serialNumber => p.regAddr.serial
  | .abcPeriod => p.regAddr.abc
  | .userAck => p.regAddr.ack
  | .specialCommand => p.regAddr.special
  | .userConcentration => p.regAddr.conc

end Sys2Proof.Machine
end

