-- ==== Sys2Proof/Machine/CrcEngine.lean ====
section
/-! DEFINITION. The CRC16 engine and the frames whose CRC field it fills (40_crc16.md R100 to R104; 30_encoding.md R61, R62, R65). -/

namespace Sys2Proof.Machine

/-- One of the eight steps: shift right, and XOR the polynomial where bit 0 was 1 (R101). -/
def crcBit (c : U16) : U16 :=
  if c.getLsbD 0 then (c >>> 1) ^^^ Config.crcPoly else c >>> 1

/-- `n` bit steps (R101). -/
def crcShift : Nat → U16 → U16
  | 0, c => c
  | n + 1, c => crcShift n (crcBit c)

/-- `CRC_BYTE(c, b)`: the byte enters bits 7:0, then eight bit steps (R101). -/
def crcByte (c : U16) (b : Byte) : U16 := crcShift 8 (c ^^^ b.setWidth 16)

/-- `CRC16(s)`: from 0xFFFF, the bytes in index order, no final XOR (R102, log 31).
On `crcAppend s` it is 0 (R105, proved in Laws/Crc.lean). -/
def crc16 (s : Bytes) : U16 := s.foldl crcByte Config.crcInit

/-- `CRC_APPEND(s)`: the low byte of the CRC, then the high byte (R103, R104). -/
def crcAppend (s : Bytes) : Bytes := s ++ [loByte (crc16 s), hiByte (crc16 s)]

/-- The six bytes of a request that its CRC covers (R61, R62, R121). -/
def reqBody (fc : Byte) (addr val : U16) : Bytes :=
  [Config.devAddr, fc, hiByte addr, loByte addr, hiByte val, loByte val]

/-- `CRC_APPEND` of a request's body, as a `Frame8` (R61, R121). -/
def reqFrame (fc : Byte) (addr val : U16) : Frame8 :=
  { dev := Config.devAddr, fc := fc, addrHi := hiByte addr, addrLo := loByte addr,
    valHi := hiByte val, valLo := loByte val,
    crcLo := loByte (crc16 (reqBody fc addr val)), crcHi := hiByte (crc16 (reqBody fc addr val)) }

/-- A read response: device, function code, byte count, payload, CRC (R65). -/
def rrespBytes (fc : Byte) (payload : Bytes) : Bytes :=
  crcAppend ([Config.devAddr, fc, BitVec.ofNat 8 payload.length] ++ payload)

/-- A write response, the echo of the write request (R66). -/
def wrespBytes (addr val : U16) : Bytes := frameBytes (reqFrame Config.fcWriteSr addr val)

end Sys2Proof.Machine
end

