-- ==== Sys2Proof/Machine/Codec.lean ====
section
/-! DEFINITION. The frame codec as functions: the builder, the validator, the extractors (41_request_builder.md R121; 42_response_validator.md R141 to R153). -/

namespace Sys2Proof.Machine

/-- `BUILD(fc, addr, val)` (R121). -/
def buildRequest (fc : Byte) (addr val : U16) : Except FailKind Frame8 :=
  if ¬ isFunctionCode fc then .error .invalidArgument
  else if isReadCode fc ∧ val = 0 then .error .invalidArgument
  else .ok (reqFrame fc addr val)

/-- Whether a frame is one that `BUILD` produces: building its fields again gives it (R141, R153, log 15). -/
def isBuilt (s : Frame8) : Bool :=
  match buildRequest s.fc (frameAddr s) (frameVal s) with
  | .ok f => f == s
  | .error _ => false

/-- `EXPECTED_LEN(s)`, on a request that `BUILD` produced (R67, R141); none is a refusal (R153). -/
def expectedLength (s : Frame8) : Option Nat :=
  if isBuilt s then
    if isReadCode s.fc then some (5 + 2 * (frameVal s).toNat)
    else if s.fc = Config.fcWriteSr then some 8
    else none
  else none

/-- The checks of the read path, after the length check: the CRC, then the fields (R142, R145, R146).
The CRC test passes exactly where the whole response has residue 0 (40_crc16.md R105, proved in Laws/Crc.lean). -/
def validateRead (r : Bytes) : Result :=
  let n := r.length
  let c := crc16 (r.take (n - 2))
  if r.getD (n - 2) 0 ≠ loByte c ∨ r.getD (n - 1) 0 ≠ hiByte c then .fail .checksumMismatch
  else if r.getD 0 0 ≠ Config.devAddr then .fail .malformedResponse
  else if ¬ isReadCode (r.getD 1 0) then .fail .malformedResponse
  else if (r.getD 2 0).toNat ≠ n - 5 then .fail .malformedResponse
  else .ok r

/-- The check of the write path, after the length check: all 8 bytes against the request (R147). -/
def validateEcho (s : Frame8) (r : Bytes) : Result :=
  if r ≠ frameBytes s then .fail .echoMismatch else .ok r

/-- `VALIDATE(s, r)` where the expected length is `E`: the first check that fails decides (R142, R255). -/
def verdict (s : Frame8) (E : Nat) (r : Bytes) : Result :=
  if r.length = 0 then .fail .timeout
  else if r.length ≠ E then .fail .unexpectedLength
  else if s.fc = Config.fcWriteSr then validateEcho s r
  else validateRead r

/-- `VALIDATE(s, r)` (R142); none is a refusal, `s` being no request that `BUILD` produces (R153, log 14). -/
def validateResponse (s : Frame8) (r : Bytes) : Option Result :=
  match expectedLength s with
  | none => none
  | some E => some (verdict s E r)

/-- Whether `VALIDATE` accepts the bytes as the read response to some request: the length fixes the count
the request must have had (R148). -/
def acceptableRead (r : Bytes) : Bool :=
  match buildRequest Config.fcReadIr 0 (BitVec.ofNat 16 ((r.length - 5) / 2)) with
  | .ok s => validateResponse s r == some (.ok r)
  | .error _ => false

/-- Whether `VALIDATE` accepts the bytes as the echo of some write request (R148). -/
def acceptableEcho (r : Bytes) : Bool :=
  match frameOfBytes r with
  | some s => s.fc == Config.fcWriteSr && isBuilt s
  | none => false

/-- Whether some request that `BUILD` produces has `r` as its accepted response (R148): what can be said of a
response from its bytes alone. -/
def acceptable (r : Bytes) : Bool := acceptableRead r || acceptableEcho r

/-- `EXTRACT_U16(r, off)`; none where the range reaches past the end (R150). -/
def extract16 (r : Bytes) (off : Nat) : Option U16 :=
  if off + 2 > r.length then none else some (be16 (r.getD off 0) (r.getD (off + 1) 0))

/-- `EXTRACT_U32(r, off)`; none where the range reaches past the end (R151, log 30). -/
def extract32 (r : Bytes) (off : Nat) : Option U32 :=
  if off + 4 > r.length then none
  else some (be32 (r.getD off 0) (r.getD (off + 1) 0) (r.getD (off + 2) 0) (r.getD (off + 3) 0))

/-- `EXTRACT_BYTES(r, off, k)`; none where the range reaches past the end (R152). -/
def extractRange (r : Bytes) (off k : Nat) : Option Bytes :=
  if off + k > r.length then none else some ((r.drop off).take k)

end Sys2Proof.Machine
end

