-- ==== Sys2Proof/Machine/Decoders.lean ====
section
/-! DEFINITION. The host's decode rules and range checks (45_register_ops.md R220 to R225, R231, R232). -/

namespace Sys2Proof.Machine

/-- `decode_u16` (R220). -/
def decodeU16 (r : Bytes) : Option Value := (extract16 r 3).map .u16

/-- `decode_u32` (R221). -/
def decodeU32 (r : Bytes) : Option Value := (extract32 r 3).map .u32

/-- `decode_s16`: the two's-complement reading (R222). -/
def decodeS16 (r : Bytes) : Option Value := (extract16 r 3).map fun u => .int u.toInt

/-- The temperature of a raw word: `Int(raw / 100) - 100`, the division on naturals (R223). -/
def temperatureOf (raw : U16) : Int := Int.ofNat (raw.toNat / 100) - 100

/-- `decode_temperature` (R223). -/
def decodeTemperature (r : Bytes) : Option Value := (extract16 r 3).map fun raw => .int (temperatureOf raw)

/-- The character code of a decimal digit. -/
def digitChar (n : Nat) : Byte := BitVec.ofNat 8 (0x30 + n)

/-- `dec`: 0 to 255 in decimal without leading zeros (R224). -/
def decimalOf (b : Byte) : Bytes :=
  let n := b.toNat
  if n < 10 then [digitChar n]
  else if n < 100 then [digitChar (n / 10), digitChar (n % 10)]
  else [digitChar (n / 100), digitChar (n / 10 % 10), digitChar (n % 10)]

/-- `decode_version`: "major.minor" of the bytes at offsets 3 and 4 (R224). -/
def decodeVersion (r : Bytes) : Option Value :=
  match extractRange r 3 2 with
  | some [major, minor] => some (.text (decimalOf major ++ [0x2E] ++ decimalOf minor))
  | _ => none

/-- `decode_serial`: the bytes at offsets 3 to 12 before the first 0x00, or all ten (R225). -/
def decodeSerial (r : Bytes) : Option Value :=
  (extractRange r 3 10).map fun s => .text (s.takeWhile fun b => b != 0x00)

/-- `valid_ABC(v) = (v = 0) or (4 ≤ v ≤ 4800)` (R231). -/
def validAbc (v : U16) : Bool := v.toNat == 0 || (decide (4 ≤ v.toNat) && decide (v.toNat ≤ 4800))

/-- `valid_CONC(v) = (400 ≤ v ≤ 2000)` (R232). -/
def validConc (v : U16) : Bool := decide (400 ≤ v.toNat) && decide (v.toNat ≤ 2000)

end Sys2Proof.Machine
end

