-- ==== Sys2Proof/WellFormed.lean ====
section
/-! DEFINITION. Which instructions are well-formed: what a row's mask cannot say (30_encoding.md R62, R64, R65, R70). -/

namespace Sys2Proof

/-- The CRC field of a request is the CRC of its first six bytes (R62, R70). -/
def reqCrcOk (fc : Byte) (addr val crc : U16) : Bool :=
  crc == Machine.crc16 (Machine.reqBody fc addr val)

/-- Well-formed: a request's CRC field is right, a read request's count is not 0 (R64, R70); a read response
has a read function code and whole registers, at most 255 bytes of them (R65, log 6). Every other row's
operands are typed values, so any are well-formed (R69). -/
def Instr.wf : Instr → Bool
  | .reqReadHr addr val crc => val != 0 && reqCrcOk Config.fcReadHr addr val crc
  | .reqReadIr addr val crc => val != 0 && reqCrcOk Config.fcReadIr addr val crc
  | .reqWriteSr addr val crc => reqCrcOk Config.fcWriteSr addr val crc
  | .rresp fc payload => Machine.isReadCode fc && payload.length % 2 == 0 && decide (payload.length ≤ 255)
  | .wresp _ _ | .crc16 _ | .crcAppend _ | .build _ _ _ | .expectedLen _ | .validate _ _ | .extractU16 _ _
  | .extractU32 _ _ | .extractBytes _ _ _ | .transact _ _ _ | .crcByte _ _ | .send | .clear | .capture
  | .readHr _ _ | .readIr _ _ | .writeHr _ _
  | .getSerialNumber | .getSoftwareVersion | .getCo2 | .getTemperature | .getAbcPeriod | .setAbcPeriod _
  | .setUserConcentration _ | .getUserConcentration | .getUserAck | .setUserAck _ | .setSpecialCommand _
  | .getMeterStatus | .getOutputStatus | .getPwmOutput | .getSensorTypeId | .getSensorId
  | .getMemoryMapVersion => true

end Sys2Proof
end

