-- ==== Sys2Proof/Decode.lean ====
section
/-! DEFINITION. Decoding and encoding: the wire frames as their bytes (30_encoding.md R60, R61, R70) and the operations in the notation of R76 (log 2). -/

namespace Sys2Proof

/-- Why a line of bytes is no instruction; step refuses it by this name. -/
inductive DecodeError where
  /-- Nothing but blanks and a comment. -/
  | emptyLine
  /-- A frame whose length is not 8 (R60). -/
  | frameLength
  /-- A request frame whose byte 0 is not 0xFE (R70). -/
  | frameDevice
  /-- A request frame whose byte 1 is none of the three function codes (R63, R70, R72). -/
  | frameFunctionCode
  /-- The first word is no mnemonic of the opcode table (R71, R77). -/
  | unknownMnemonic
  /-- The operands are not written as R76 says. -/
  | malformedOperands
  /-- The operands are not those of the mnemonic, in number or in form (R71). -/
  | wrongOperands
  /-- An operand does not fit its type (R69, R258 (f)). -/
  | operandDoesNotFit
  /-- A LINK line whose bytes are neither of the two response formats (R65, R66): an answer of the capture
  oracle, and no instruction. -/
  | notAResponse
  deriving DecidableEq, Repr

/-! ## Wire frames (R61, R68, R70) -/

/-- A request frame: 8 bytes, byte 0 the device address, byte 1 selecting the row (R70). -/
def decodeFrame (bs : Bytes) : Except DecodeError Instr :=
  match Machine.frameOfBytes bs with
  | none => .error .frameLength
  | some f =>
    if f.dev ≠ Config.devAddr then .error .frameDevice
    else if f.fc = Config.fcReadHr then
      .ok (.reqReadHr (Machine.frameAddr f) (Machine.frameVal f) (Machine.frameCrc f))
    else if f.fc = Config.fcReadIr then
      .ok (.reqReadIr (Machine.frameAddr f) (Machine.frameVal f) (Machine.frameCrc f))
    else if f.fc = Config.fcWriteSr then
      .ok (.reqWriteSr (Machine.frameAddr f) (Machine.frameVal f) (Machine.frameCrc f))
    else .error .frameFunctionCode

/-- The response that the bytes are, where they are laid out as RRESP (R65) or WRESP (R66). -/
def responseOf (c : Bytes) : Option Instr :=
  let fc := c.getD 1 0
  let payload := (c.drop 3).take (c.length - 5)
  if c = Machine.rrespBytes fc payload ∧ (Instr.rresp fc payload).wf then some (.rresp fc payload)
  else
    match Machine.frameOfBytes c with
    | none => none
    | some f =>
      if c = Machine.wrespBytes (Machine.frameAddr f) (Machine.frameVal f) then
        some (.wresp (Machine.frameAddr f) (Machine.frameVal f))
      else none

/-! ## The notation of R76 -/

/-- Characters as the bytes of their codes. -/
def ascii (cs : List Char) : Bytes := cs.map fun c => BitVec.ofNat 8 c.toNat

/-- The marks of the notation: blank, comment, comma, brackets (R76). -/
def chBlank : Byte := 0x20
def chComment : Byte := 0x3B
def chComma : Byte := 0x2C
def chOpen : Byte := 0x5B
def chClose : Byte := 0x5D

/-- The parts of a line (R76). -/
inductive Token where
  | word (w : Bytes)
  | comma
  | lbrack
  | rbrack
  deriving DecidableEq, Repr

/-- The word read so far, as a token, where it is not empty. -/
def flushWord (acc : Bytes) (ts : List Token) : List Token :=
  if acc = [] then ts else .word acc :: ts

/-- Cut a line into tokens; `;` begins a comment (R76). -/
def tokensFrom : Bytes → Bytes → List Token
  | [], acc => flushWord acc []
  | b :: bs, acc =>
    if b = chComment then flushWord acc []
    else if b = chBlank then flushWord acc (tokensFrom bs [])
    else if b = chComma then flushWord acc (.comma :: tokensFrom bs [])
    else if b = chOpen then flushWord acc (.lbrack :: tokensFrom bs [])
    else if b = chClose then flushWord acc (.rbrack :: tokensFrom bs [])
    else tokensFrom bs (acc ++ [b])

/-- The tokens of a line (R76). -/
def tokens (bs : Bytes) : List Token := tokensFrom bs []

/-- The value of a decimal digit. -/
def decDigit (b : Byte) : Option Nat :=
  if 0x30 ≤ b ∧ b ≤ 0x39 then some (b.toNat - 0x30) else none

/-- The value of a hexadecimal digit, in either case of its letter. -/
def hexDigit (b : Byte) : Option Nat :=
  if 0x30 ≤ b ∧ b ≤ 0x39 then some (b.toNat - 0x30)
  else if 0x41 ≤ b ∧ b ≤ 0x46 then some (b.toNat - 0x41 + 10)
  else if 0x61 ≤ b ∧ b ≤ 0x66 then some (b.toNat - 0x61 + 10)
  else none

/-- Read digits of the base from the left, `n` being the number read so far. -/
def readDigits (digit : Byte → Option Nat) (base : Nat) : Bytes → Nat → Option Nat
  | [], n => some n
  | b :: bs, n =>
    match digit b with
    | none => none
    | some d => readDigits digit base bs (n * base + d)

/-- A number "in hex (0x..) or decimal" (R76). -/
def readNumber : Bytes → Option Nat
  | [] => none
  | b :: bs =>
    match bs with
    | [] => decDigit b
    | x :: ds =>
      if b = 0x30 ∧ x = 0x78 then (if ds = [] then none else readDigits hexDigit 16 ds 0)
      else readDigits decDigit 10 (b :: bs) 0

/-- Two hexadecimal digits: one byte of a hex list (R76). -/
def hexByte : Bytes → Option Byte
  | [h, l] =>
    match hexDigit h, hexDigit l with
    | some x, some y => some (BitVec.ofNat 8 (x * 16 + y))
    | _, _ => none
  | _ => none

/-- A hex byte listing (R76). -/
def hexBytes : List Token → Option Bytes
  | [] => some []
  | .word w :: ts =>
    match hexByte w, hexBytes ts with
    | some b, some bs => some (b :: bs)
    | _, _ => none
  | _ :: _ => none

/-- An operand as written: a number or a byte sequence (R69, R76). -/
inductive Operand where
  | num (n : Nat)
  | bytes (s : Bytes)
  deriving DecidableEq, Repr

/-- Where the reader of operands stands. -/
inductive ReadMode where
  | operand
  | inBytes (acc : Bytes)
  | separator
  deriving DecidableEq, Repr

/-- `operand, operand, ...` (R76). -/
def readOperands : List Token → ReadMode → Option (List Operand)
  | [], .separator => some []
  | .comma :: ts, .separator => readOperands ts .operand
  | .word w :: ts, .operand =>
    match readNumber w, readOperands ts .separator with
    | some n, some os => some (.num n :: os)
    | _, _ => none
  | .lbrack :: ts, .operand => readOperands ts (.inBytes [])
  | .word w :: ts, .inBytes acc =>
    match hexByte w with
    | some b => readOperands ts (.inBytes (acc ++ [b]))
    | none => none
  | .rbrack :: ts, .inBytes acc =>
    match readOperands ts .separator with
    | some os => some (.bytes acc :: os)
    | none => none
  | _, _ => none

/-- The operands after a mnemonic; there may be none. -/
def operandsOf (ts : List Token) : Option (List Operand) :=
  if ts = [] then some [] else readOperands ts .operand

/-- An operand of the type, or why it is none (R69). -/
def needU8 (n : Nat) (k : Byte → Instr) : Except DecodeError Instr :=
  match Machine.asU8 n with
  | some v => .ok (k v)
  | none => .error .operandDoesNotFit

/-- A `u16` operand (R69). -/
def needU16 (n : Nat) (k : U16 → Except DecodeError Instr) : Except DecodeError Instr :=
  match Machine.asU16 n with
  | some v => k v
  | none => .error .operandDoesNotFit

/-- A `Frame8` operand (R69). -/
def needFrame (s : Bytes) (k : Frame8 → Instr) : Except DecodeError Instr :=
  match Machine.frameOfBytes s with
  | some f => .ok (k f)
  | none => .error .operandDoesNotFit

/-- No operands. -/
def formNone (i : Instr) : List Operand → Except DecodeError Instr
  | [] => .ok i
  | _ => .error .wrongOperands

/-- One `u16`. -/
def formU16 (k : U16 → Instr) : List Operand → Except DecodeError Instr
  | [.num n] => needU16 n fun v => .ok (k v)
  | _ => .error .wrongOperands

/-- Two `u16`. -/
def formU16U16 (k : U16 → U16 → Instr) : List Operand → Except DecodeError Instr
  | [.num n, .num m] => needU16 n fun v => needU16 m fun w => .ok (k v w)
  | _ => .error .wrongOperands

/-- A `u8` and two `u16`. -/
def formU8U16U16 (k : Byte → U16 → U16 → Instr) : List Operand → Except DecodeError Instr
  | [.num c, .num n, .num m] => needU16 n fun v => needU16 m fun w => needU8 c fun b => k b v w
  | _ => .error .wrongOperands

/-- A `u16` and a `u8`. -/
def formU16U8 (k : U16 → Byte → Instr) : List Operand → Except DecodeError Instr
  | [.num n, .num c] => needU16 n fun v => needU8 c fun b => k v b
  | _ => .error .wrongOperands

/-- One byte sequence. -/
def formBytes (k : Bytes → Instr) : List Operand → Except DecodeError Instr
  | [.bytes s] => .ok (k s)
  | _ => .error .wrongOperands

/-- A frame. -/
def formFrame (k : Frame8 → Instr) : List Operand → Except DecodeError Instr
  | [.bytes s] => needFrame s k
  | _ => .error .wrongOperands

/-- A frame and a byte sequence. -/
def formFrameBytes (k : Frame8 → Bytes → Instr) : List Operand → Except DecodeError Instr
  | [.bytes s, .bytes r] => needFrame s fun f => k f r
  | _ => .error .wrongOperands

/-- A byte sequence and a `Nat`. -/
def formBytesNat (k : Bytes → Nat → Instr) : List Operand → Except DecodeError Instr
  | [.bytes r, .num n] => .ok (k r n)
  | _ => .error .wrongOperands

/-- A byte sequence and two `Nat`. -/
def formBytesNatNat (k : Bytes → Nat → Nat → Instr) : List Operand → Except DecodeError Instr
  | [.bytes r, .num n, .num m] => .ok (k r n m)
  | _ => .error .wrongOperands

/-! ### Mnemonics, letter for letter as the opcode table has them -/

def mnCrc16 : Bytes := ascii ['C', 'R', 'C', '1', '6']
def mnCrcAppend : Bytes := ascii ['C', 'R', 'C', '_', 'A', 'P', 'P', 'E', 'N', 'D']
def mnBuild : Bytes := ascii ['B', 'U', 'I', 'L', 'D']
def mnExpectedLen : Bytes := ascii ['E', 'X', 'P', 'E', 'C', 'T', 'E', 'D', '_', 'L', 'E', 'N']
def mnValidate : Bytes := ascii ['V', 'A', 'L', 'I', 'D', 'A', 'T', 'E']
def mnExtractU16 : Bytes := ascii ['E', 'X', 'T', 'R', 'A', 'C', 'T', '_', 'U', '1', '6']
def mnExtractU32 : Bytes := ascii ['E', 'X', 'T', 'R', 'A', 'C', 'T', '_', 'U', '3', '2']
def mnExtractBytes : Bytes := ascii ['E', 'X', 'T', 'R', 'A', 'C', 'T', '_', 'B', 'Y', 'T', 'E', 'S']
def mnTransact : Bytes := ascii ['T', 'R', 'A', 'N', 'S', 'A', 'C', 'T']
def mnCrcByte : Bytes := ascii ['C', 'R', 'C', '_', 'B', 'Y', 'T', 'E']
def mnSend : Bytes := ascii ['S', 'E', 'N', 'D']
def mnClear : Bytes := ascii ['C', 'L', 'E', 'A', 'R']
def mnCapture : Bytes := ascii ['C', 'A', 'P', 'T', 'U', 'R', 'E']
def mnReadHr : Bytes := ascii ['R', 'E', 'A', 'D', '_', 'H', 'R']
def mnReadIr : Bytes := ascii ['R', 'E', 'A', 'D', '_', 'I', 'R']
def mnWriteHr : Bytes := ascii ['W', 'R', 'I', 'T', 'E', '_', 'H', 'R']
def mnGetSerialNumber : Bytes :=
  ascii ['G', 'E', 'T', '_', 'S', 'E', 'R', 'I', 'A', 'L', '_', 'N', 'U', 'M', 'B', 'E', 'R']
def mnGetSoftwareVersion : Bytes :=
  ascii ['G', 'E', 'T', '_', 'S', 'O', 'F', 'T', 'W', 'A', 'R', 'E', '_', 'V', 'E', 'R', 'S', 'I', 'O', 'N']
def mnGetCo2 : Bytes := ascii ['G', 'E', 'T', '_', 'C', 'O', '2']
def mnGetTemperature : Bytes :=
  ascii ['G', 'E', 'T', '_', 'T', 'E', 'M', 'P', 'E', 'R', 'A', 'T', 'U', 'R', 'E']
def mnGetAbcPeriod : Bytes := ascii ['G', 'E', 'T', '_', 'A', 'B', 'C', '_', 'P', 'E', 'R', 'I', 'O', 'D']
def mnSetAbcPeriod : Bytes := ascii ['S', 'E', 'T', '_', 'A', 'B', 'C', '_', 'P', 'E', 'R', 'I', 'O', 'D']
def mnSetUserConcentration : Bytes :=
  ascii ['S', 'E', 'T', '_', 'U', 'S', 'E', 'R', '_', 'C', 'O', 'N', 'C', 'E', 'N', 'T', 'R', 'A', 'T', 'I', 'O', 'N']
def mnGetUserConcentration : Bytes :=
  ascii ['G', 'E', 'T', '_', 'U', 'S', 'E', 'R', '_', 'C', 'O', 'N', 'C', 'E', 'N', 'T', 'R', 'A', 'T', 'I', 'O', 'N']
def mnGetUserAck : Bytes := ascii ['G', 'E', 'T', '_', 'U', 'S', 'E', 'R', '_', 'A', 'C', 'K']
def mnSetUserAck : Bytes := ascii ['S', 'E', 'T', '_', 'U', 'S', 'E', 'R', '_', 'A', 'C', 'K']
def mnSetSpecialCommand : Bytes :=
  ascii ['S', 'E', 'T', '_', 'S', 'P', 'E', 'C', 'I', 'A', 'L', '_', 'C', 'O', 'M', 'M', 'A', 'N', 'D']
def mnGetMeterStatus : Bytes :=
  ascii ['G', 'E', 'T', '_', 'M', 'E', 'T', 'E', 'R', '_', 'S', 'T', 'A', 'T', 'U', 'S']
def mnGetOutputStatus : Bytes :=
  ascii ['G', 'E', 'T', '_', 'O', 'U', 'T', 'P', 'U', 'T', '_', 'S', 'T', 'A', 'T', 'U', 'S']
def mnGetPwmOutput : Bytes := ascii ['G', 'E', 'T', '_', 'P', 'W', 'M', '_', 'O', 'U', 'T', 'P', 'U', 'T']
def mnGetSensorTypeId : Bytes :=
  ascii ['G', 'E', 'T', '_', 'S', 'E', 'N', 'S', 'O', 'R', '_', 'T', 'Y', 'P', 'E', '_', 'I', 'D']
def mnGetSensorId : Bytes := ascii ['G', 'E', 'T', '_', 'S', 'E', 'N', 'S', 'O', 'R', '_', 'I', 'D']
def mnGetMemoryMapVersion : Bytes :=
  ascii ['G', 'E', 'T', '_', 'M', 'E', 'M', 'O', 'R', 'Y', '_', 'M', 'A', 'P', '_', 'V', 'E', 'R', 'S', 'I', 'O', 'N']

/-- The words of a LINK line (R76). -/
def kwLink : Bytes := ascii ['L', 'I', 'N', 'K']
def kwArrow : Bytes := ascii ['<', '-']
def kwTimeout : Bytes := ascii ['T', 'I', 'M', 'E', 'O', 'U', 'T']

/-- One row of the table of operations: the mnemonic, and the instruction its operands make. -/
structure OpRow where
  name : Bytes
  form : List Operand → Except DecodeError Instr

/-- The operation interface (R71), the internal step and the transaction steps. -/
def blockRows : List OpRow :=
  [ ⟨mnCrc16, formBytes .crc16⟩,
    ⟨mnCrcAppend, formBytes .crcAppend⟩,
    ⟨mnBuild, formU8U16U16 .build⟩,
    ⟨mnExpectedLen, formFrame .expectedLen⟩,
    ⟨mnValidate, formFrameBytes .validate⟩,
    ⟨mnExtractU16, formBytesNat .extractU16⟩,
    ⟨mnExtractU32, formBytesNat .extractU32⟩,
    ⟨mnExtractBytes, formBytesNatNat .extractBytes⟩,
    ⟨mnTransact, formU8U16U16 .transact⟩,
    ⟨mnCrcByte, formU16U8 .crcByte⟩,
    ⟨mnSend, formNone .send⟩,
    ⟨mnClear, formNone .clear⟩,
    ⟨mnCapture, formNone .capture⟩ ]

/-- The pseudo-operations (R77) and the host recipes (45_register_ops.md R226 to R242). -/
def hostRows : List OpRow :=
  [ ⟨mnReadHr, formU16U16 .readHr⟩,
    ⟨mnReadIr, formU16U16 .readIr⟩,
    ⟨mnWriteHr, formU16U16 .writeHr⟩,
    ⟨mnGetSerialNumber, formNone .getSerialNumber⟩,
    ⟨mnGetSoftwareVersion, formNone .getSoftwareVersion⟩,
    ⟨mnGetCo2, formNone .getCo2⟩,
    ⟨mnGetTemperature, formNone .getTemperature⟩,
    ⟨mnGetAbcPeriod, formNone .getAbcPeriod⟩,
    ⟨mnSetAbcPeriod, formU16 .setAbcPeriod⟩,
    ⟨mnSetUserConcentration, formU16 .setUserConcentration⟩,
    ⟨mnGetUserConcentration, formNone .getUserConcentration⟩,
    ⟨mnGetUserAck, formNone .getUserAck⟩,
    ⟨mnSetUserAck, formU16 .setUserAck⟩,
    ⟨mnSetSpecialCommand, formU16 .setSpecialCommand⟩,
    ⟨mnGetMeterStatus, formNone .getMeterStatus⟩,
    ⟨mnGetOutputStatus, formNone .getOutputStatus⟩,
    ⟨mnGetPwmOutput, formNone .getPwmOutput⟩,
    ⟨mnGetSensorTypeId, formNone .getSensorTypeId⟩,
    ⟨mnGetSensorId, formNone .getSensorId⟩,
    ⟨mnGetMemoryMapVersion, formNone .getMemoryMapVersion⟩ ]

/-- Every operation that has a mnemonic in the notation. -/
def opRows : List OpRow := blockRows ++ hostRows

/-- The row of a mnemonic. -/
def findRow (w : Bytes) : List OpRow → Option OpRow
  | [] => none
  | row :: rows => if row.name = w then some row else findRow w rows

/-- What a LINK line says the capture oracle delivers: `LINK <- <bytes>`, or no bytes for `LINK <- TIMEOUT` (R76). -/
def linkAnswer : List Token → Option Bytes
  | .word l :: .word a :: w :: ws =>
    if l = kwLink ∧ a = kwArrow then
      (if w = .word kwTimeout ∧ ws = [] then some [] else hexBytes (w :: ws))
    else none
  | _ => none

/-- A line of the notation (R76): an operation, a frame's hex byte listing, or a response on a LINK line. -/
def decodeLine : List Token → Except DecodeError Instr
  | [] => .error .emptyLine
  | .word w :: ts =>
    if w = kwLink then
      match linkAnswer (.word w :: ts) with
      | none => .error .malformedOperands
      | some c =>
        match responseOf c with
        | some i => .ok i
        | none => .error .notAResponse
    else
      match findRow w opRows with
      | some row =>
        match operandsOf ts with
        | some os => row.form os
        | none => .error .malformedOperands
      | none =>
        match hexBytes (.word w :: ts) with
        | some f => decodeFrame f
        | none => .error .unknownMnemonic
  | _ :: _ => .error .malformedOperands

/-- The decoder, total on any bytes. A line whose first byte is the device address 0xFE, which begins no word
of the notation, is a request frame as it is on the wire; any other line is in the notation of R76. -/
def decode (bs : Bytes) : Except DecodeError Instr :=
  match bs with
  | [] => .error .emptyLine
  | b :: _ => if b = Config.devAddr then decodeFrame bs else decodeLine (tokens bs)

/-! ## What an input line is -/

/-- The capture answer that a line states, where it is a LINK line (R76). -/
def linkAnswerOf (line : Bytes) : Option Bytes := linkAnswer (tokens line)

/-- A line of the machine's input. -/
inductive Line where
  /-- An instruction. -/
  | op (i : Instr)
  /-- A LINK line whose bytes are no response frame: any other answer of the capture oracle (R76, R171). -/
  | answer (c : Bytes)
  /-- Nothing, or a comment (R76). -/
  | blank
  deriving DecidableEq, Repr

/-- What a line of the machine's input is. -/
def decodeInput (line : Bytes) : Except DecodeError Line :=
  match decode line with
  | .ok i => .ok (.op i)
  | .error .emptyLine => .ok .blank
  | .error e =>
    match linkAnswerOf line with
    | some c => .ok (.answer c)
    | none => .error e

/-! ## The encoder -/

/-- A hexadecimal digit. -/
def hexChar (n : Nat) : Byte := if n < 10 then BitVec.ofNat 8 (0x30 + n) else BitVec.ofNat 8 (0x41 + (n - 10))

/-- A byte as two hexadecimal digits. -/
def hexOf (b : Byte) : Bytes := [hexChar (b.toNat / 16), hexChar (b.toNat % 16)]

/-- A number in hex, `0x` and the digits (R76). -/
def numU8 (b : Byte) : Bytes := [0x30, 0x78] ++ hexOf b
def numU16 (v : U16) : Bytes := [0x30, 0x78] ++ hexOf (Machine.hiByte v) ++ hexOf (Machine.loByte v)

/-- The decimal digits of a number, before those already written; the first argument bounds their count. -/
def decDigitsFrom : Nat → Nat → Bytes → Bytes
  | 0, _, acc => acc
  | fuel + 1, n, acc =>
    if n < 10 then BitVec.ofNat 8 (0x30 + n) :: acc
    else decDigitsFrom fuel (n / 10) (BitVec.ofNat 8 (0x30 + n % 10) :: acc)

/-- A number in decimal (R76). -/
def numNat (n : Nat) : Bytes := decDigitsFrom (n + 1) n []

/-- A hex byte listing, a blank before each byte (R76). -/
def hexListing : Bytes → Bytes
  | [] => []
  | b :: bs => chBlank :: (hexOf b ++ hexListing bs)

/-- A byte sequence as a bracketed hex list (R76). -/
def bracketed (s : Bytes) : Bytes := [chOpen] ++ hexListing s ++ [chClose]

/-- The operands after the first one. -/
def moreOperands : List Bytes → Bytes
  | [] => []
  | o :: os => [chComma, chBlank] ++ o ++ moreOperands os

/-- `MNEMONIC operand, operand, ...` (R76). -/
def opLine (name : Bytes) : List Bytes → Bytes
  | [] => name
  | o :: os => name ++ [chBlank] ++ o ++ moreOperands os

/-- `LINK <- <bytes>` (R76). -/
def linkLine (c : Bytes) : Bytes := kwLink ++ [chBlank] ++ kwArrow ++ hexListing c

/-- A request frame with the given CRC field (R61). -/
def reqBytes (fc : Byte) (addr val crc : U16) : Bytes :=
  Machine.reqBody fc addr val ++ [Machine.loByte crc, Machine.hiByte crc]

/-- The bytes of an instruction: a request as it is on the wire (R61), a response as the LINK line that
delivers it (R65, R66, R76), an operation in the notation (R76). -/
def encode : Instr → Bytes
  | .reqReadHr addr val crc => reqBytes Config.fcReadHr addr val crc
  | .reqReadIr addr val crc => reqBytes Config.fcReadIr addr val crc
  | .reqWriteSr addr val crc => reqBytes Config.fcWriteSr addr val crc
  | .rresp fc payload => linkLine (Machine.rrespBytes fc payload)
  | .wresp addr val => linkLine (Machine.wrespBytes addr val)
  | .crc16 s => opLine mnCrc16 [bracketed s]
  | .crcAppend s => opLine mnCrcAppend [bracketed s]
  | .build fc addr val => opLine mnBuild [numU8 fc, numU16 addr, numU16 val]
  | .expectedLen f => opLine mnExpectedLen [bracketed (Machine.frameBytes f)]
  | .validate f r => opLine mnValidate [bracketed (Machine.frameBytes f), bracketed r]
  | .extractU16 r off => opLine mnExtractU16 [bracketed r, numNat off]
  | .extractU32 r off => opLine mnExtractU32 [bracketed r, numNat off]
  | .extractBytes r off k => opLine mnExtractBytes [bracketed r, numNat off, numNat k]
  | .transact fc addr val => opLine mnTransact [numU8 fc, numU16 addr, numU16 val]
  | .crcByte c b => opLine mnCrcByte [numU16 c, numU8 b]
  | .send => opLine mnSend []
  | .clear => opLine mnClear []
  | .capture => opLine mnCapture []
  | .readHr addr count => opLine mnReadHr [numU16 addr, numU16 count]
  | .readIr addr count => opLine mnReadIr [numU16 addr, numU16 count]
  | .writeHr addr value => opLine mnWriteHr [numU16 addr, numU16 value]
  | .getSerialNumber => opLine mnGetSerialNumber []
  | .getSoftwareVersion => opLine mnGetSoftwareVersion []
  | .getCo2 => opLine mnGetCo2 []
  | .getTemperature => opLine mnGetTemperature []
  | .getAbcPeriod => opLine mnGetAbcPeriod []
  | .setAbcPeriod v => opLine mnSetAbcPeriod [numU16 v]
  | .setUserConcentration v => opLine mnSetUserConcentration [numU16 v]
  | .getUserConcentration => opLine mnGetUserConcentration []
  | .getUserAck => opLine mnGetUserAck []
  | .setUserAck v => opLine mnSetUserAck [numU16 v]
  | .setSpecialCommand v => opLine mnSetSpecialCommand [numU16 v]
  | .getMeterStatus => opLine mnGetMeterStatus []
  | .getOutputStatus => opLine mnGetOutputStatus []
  | .getPwmOutput => opLine mnGetPwmOutput []
  | .getSensorTypeId => opLine mnGetSensorTypeId []
  | .getSensorId => opLine mnGetSensorId []
  | .getMemoryMapVersion => opLine mnGetMemoryMapVersion []

/-! ## Instructions given as the table's words -/

/-- The low `8 n` bits of `w` as bytes, the most significant first: the table's 64-bit view of a frame
has byte 0 most significant (R61, log 3). -/
def wordBytes : Nat → Nat → Bytes
  | 0, _ => []
  | n + 1, w => BitVec.ofNat 8 (w / 256 ^ n) :: wordBytes n w

/-- The instruction this decoder reads from a word of the opcode table (R61, R70, log 3). -/
def decodeTableWord (nbits w : Nat) : Option Instr :=
  match decode (wordBytes (nbits / 8) w) with
  | .ok i => some i
  | .error _ => none

end Sys2Proof
end

