-- ==== Sys2Proof/Machine/State.lean ====
section
/-! DEFINITION. The machine's state and its reset (10_state.md R20 to R36; 70_reset_and_hazards.md R280). -/

namespace Sys2Proof.Machine

/-- A byte store by offset, in canonical form: offsets strictly rising, no entry equal to `unlistedByte`. -/
abbrev Memory := List Host.Cell

/-- What an offset of the response buffer that is not listed reads as: the 0x00 that reset and CLEAR give
every byte (10_state.md R35, 43_capture.md R174, log 20). -/
def unlistedByte : Byte := 0x00

/-- The canonical form. -/
abbrev Memory.wf (m : Memory) : Prop :=
  (m.map Prod.fst).Pairwise (· < ·) ∧ ∀ c ∈ m, c.2 ≠ unlistedByte

/-- The transaction step register's values (10_state.md R28). -/
inductive Phase where
  | idle | t1 | t2 | t3 | t4 | t5 | t6 | t7
  deriving DecidableEq, Repr

/-- Whether the session the instance was created for still lasts (10_state.md R36, log 18). -/
inductive Session where
  | active | ended
  deriving DecidableEq, Repr

/-- No behaviour of the spec stops the machine with a fault: its failures are normal results
(60_exceptions.md R252, 93_implementation_defined.md "No item is treated as stuck"), log 19. -/
inductive Fault where
  deriving DecidableEq, Repr

/-- The uses outside the block's contract (60_exceptions.md R258). Each is safe: nothing is claimed of a run
that reached one. -/
inductive Refusal where
  /-- An instruction without a meaning yet, by its mnemonic; no arm of `exec` raises it. -/
  | notModelled (mnemonic : String)
  /-- Safe. (a): an extraction whose range reaches past the response's end (R153); the extractions raise it. -/
  | extractPastEnd
  /-- Safe. (a): an extraction from a response that `VALIDATE` did not accept: its last verdict is a failure, or it
  has none and no request accepts it (R153, log 16); the extractions raise it. -/
  | responseNotAccepted
  /-- Safe. (b): `EXPECTED_LEN`, `VALIDATE`, step T5 or T6, or a REQ row on a request that `BUILD` does not
  produce (R141, R153). -/
  | requestNotBuilt
  /-- Safe. (c): `SEND`, `CLEAR` or `CAPTURE` where the transaction does not stand before that step (R176). -/
  | stepOutsideTransaction
  /-- Safe. (d): an operation begun while a transaction is in progress (R265); every host operation raises it. -/
  | overlappingCall
  /-- Safe. (e): a use of the block after its session ended (R36); every instruction raises it. -/
  | sessionEnded
  /-- Safe. (f) and every line that is no instruction: `step` raises it with the decoder's reason (R69). -/
  | undecodable (e : DecodeError)
  /-- Safe. A request frame that matches a row's mask and is not well-formed (30_encoding.md R70); `step` raises it. -/
  | illFormed
  deriving DecidableEq, Repr

/-- What `VALIDATE` answered on a response (42_response_validator.md R142, log 16). -/
structure Verdict where
  response : Bytes
  kind : Kind
  deriving DecidableEq, Repr

/-- The machine's state. `txf` to `ph` are the spec's registers; `par` its parameters; the others are the
model's own (INVENTORY.md, State). -/
structure State where
  /-- The session's parameters; no operation writes them (R21). -/
  par : Params
  /-- Whether the session lasts (R36). -/
  session : Session
  /-- The request most recently sent (R23). -/
  txf : Option Frame8
  /-- The response buffer, offsets 0 to CAP - 1 (R24). -/
  rbuf : Memory
  /-- How many bytes of the response buffer are valid (R25). -/
  rlen : Nat
  /-- The outcome of the last transaction (R26). -/
  res : Option Result
  /-- The transaction step (R28). -/
  ph : Phase
  /-- TRANSACT's local `f`: the frame T1 built and T2 has not yet sent (44_transaction.md R190, log 13). -/
  built : Option Frame8
  /-- What the last operation returned to the host (45_register_ops.md R213, log 10). -/
  ret : Option Ret
  /-- The observation history, oldest first (00_scope.md R17, 60_exceptions.md R262, log 11). -/
  obs : List Event
  /-- The last verdict on each response that `VALIDATE`, alone or in step T6, has judged, the newest first: it says
  whether a host may extract from that response (42_response_validator.md R153, 60_exceptions.md R253,
  70_reset_and_hazards.md R293, log 16). -/
  verdicts : List Verdict
  /-- What has arrived at the link and is not captured yet, one entry for each read, the next one first
  (10_state.md R33, 43_capture.md R171, log 8). -/
  link : List Bytes
  /-- The counter of the free capture draws (log 8). -/
  draws : Nat
  /-- The lines still to come: the host's operations and the program's LINK lines (30_encoding.md R76, log 1). -/
  inputs : List Bytes
  deriving DecidableEq, Repr

/-- The state at the start of a session whose parameters are `p` (R35, R280, R283). -/
def State.resetWith (p : Params) : State where
  par := p
  session := .active
  txf := none
  rbuf := []
  rlen := 0
  res := none
  ph := .idle
  built := none
  ret := none
  obs := []
  verdicts := []
  link := []
  draws := 0
  inputs := []

/-- The machine right after reset, with the parameters the spec leaves OPEN left open (R35, log 7). -/
def State.reset : State := State.resetWith Config.params

/-- A step's outcome. -/
abbrev Out := Host.Outcome State Fault Refusal

end Sys2Proof.Machine
end

