-- ==== Sys2Proof/Machine/Ops.lean ====
section
/-! DEFINITION. The shared operations over the response buffer, the registers, the link and the outcome (10_state.md R23 to R28; 43_capture.md R170 to R177; 44_transaction.md R190). -/

namespace Sys2Proof.Machine

/-! ## The response buffer -/

/-- `rbuf[i]` (00_scope.md R16). -/
def Memory.read : Memory → Nat → Byte
  | [], _ => unlistedByte
  | (k, w) :: m, a => if a = k then w else Memory.read m a

/-- `rbuf[i] <- v` (R16), keeping the canonical form. -/
def Memory.write : Memory → Nat → Byte → Memory
  | [], a, v => if v = unlistedByte then [] else [(a, v)]
  | (k, w) :: m, a, v =>
    if a < k then (if v = unlistedByte then (k, w) :: m else (a, v) :: (k, w) :: m)
    else if a = k then (if v = unlistedByte then m else (a, v) :: m)
    else (k, w) :: Memory.write m a v

/-- Write a byte sequence at consecutive offsets, the first at `a` (43_capture.md R172). -/
def Memory.writeBytes : Memory → Nat → Bytes → Memory
  | m, _, [] => m
  | m, a, b :: bs => Memory.writeBytes (Memory.write m a b) (a + 1) bs

/-- `rbuf[0..n)` (00_scope.md R15). -/
def Memory.slice (m : Memory) (n : Nat) : Bytes := (List.range n).map (Memory.read m)

/-- The buffer with every byte 0x00 (43_capture.md R174). -/
def Memory.cleared : Memory := []

/-- `rbuf[0..rlen)`, the captured bytes (10_state.md R25, R27). -/
def State.captured (s : State) : Bytes := Memory.slice s.rbuf s.rlen

/-! ## Returning to the host -/

/-- An operation ends and hands the host its outcome kind and value (45_register_ops.md R213). -/
def State.returns (s : State) (k : Kind) (v : Value) : State := { s with ret := some ⟨k, v⟩ }

/-- An entry of the observation history (00_scope.md R17). -/
def State.emit (s : State) (e : Event) : State := { s with obs := s.obs ++ [e] }

/-- A trace event (60_exceptions.md R262). -/
def State.emitTrace (s : State) (e : TraceEvent) : State := s.emit (.trace e)

/-- `FAIL(k)`: the one operation by which a transaction's step raises a failure. The outcome register and the
returned value are `Fail(k)`, whose value is the empty sequence, and the step register is IDLE; nothing else
changes: no state is saved and there is no vector (44_transaction.md R190, 60_exceptions.md R251, R256). -/
def State.fail (s : State) (k : FailKind) : State :=
  { s with res := some (.fail k), ph := .idle }.returns (.fail k) (.bytes [])

/-- Step T7: the outcome register and the returned value are `Ok(rbuf[0..rlen))`, and the step register is
IDLE (R190). -/
def State.succeed (s : State) : State :=
  { s with res := some (.ok s.captured), ph := .idle }.returns .ok (.bytes s.captured)

/-! ## Who may act -/

/-- Continue after an outcome that is a next state. -/
def andThen (o : Out) (f : State → Out) : Out :=
  match o with
  | .next s => f s
  | .fault r => .fault r
  | .refused r => .refused r

/-- Nothing has a meaning after the session (10_state.md R36). -/
def inSession (s : State) (body : State → Out) : Out :=
  match s.session with
  | .active => body s
  | .ended => .refused .sessionEnded

/-- A host operation begins only where no transaction is in progress (60_exceptions.md R258 (d), R265). -/
def asHost (s : State) (body : State → Out) : Out :=
  inSession s fun s => if s.ph = .idle then body s else .refused .overlappingCall

/-! ## The link -/

/-- `LinkWrite(f)`: the transmit event (00_scope.md R17, 43_capture.md R170). -/
def State.linkWrite (s : State) (f : Frame8) : State := s.emit (.linkWrite (frameBytes f))

/-- The link will give this answer after those it already holds. -/
def State.linkDeliver (s : State) (c : Bytes) : State := { s with link := s.link ++ [c] }

/-- The free answer `n` of the oracle: 0 to `max` bytes (43_capture.md R171, log 8). -/
def freeAnswer (max n : Nat) : Bytes := (Config.freeChunk n).take max

/-- The bytes of `c` that a read with room for `room` bytes takes, and those it leaves, both in their order;
`keep` says which it would take, by their places from `i` on. -/
def takenAndLeft (keep : Nat → Bool) : Nat → Nat → Bytes → Bytes × Bytes
  | _, _, [] => ([], [])
  | i, room, b :: c =>
    if keep i ∧ 0 < room then
      let p := takenAndLeft keep (i + 1) (room - 1) c
      (b :: p.1, p.2)
    else
      let p := takenAndLeft keep (i + 1) room c
      (p.1, b :: p.2)

/-- What the `n`-th capture takes of an arrival longer than `max`, and what it leaves on the link: at most `max`
of its bytes and, where `max` is not 0, at least one; which of them is free (43_capture.md R171, R177, log 8). -/
def longArrival (max n : Nat) (c : Bytes) : Bytes × Bytes :=
  let p := takenAndLeft (Config.freeTaken n) 0 max c
  if p.1 = [] then (c.take max, c.drop max) else p

/-- The oracle's answer to `LinkCapture(max)`: the next arrival, or a free answer where none is given; of an
arrival longer than `max` the part that the read takes (R171, R177, log 8). -/
def State.captureAnswer (s : State) (max : Nat) : Bytes :=
  match s.link with
  | [] => freeAnswer max s.draws
  | c :: _ => if c.length ≤ max then c else (longArrival max s.draws c).1

/-- What a later read finds on the link where `rest` was left there before the arrivals `cs`: `rest` alone, or
`rest` in front of the arrival after it (10_state.md R33, 43_capture.md R173; which one is free, log 8). -/
def leftOnLink (joined : Bool) (rest : Bytes) : List Bytes → List Bytes
  | [] => [rest]
  | d :: cs => if joined then (rest ++ d) :: cs else rest :: d :: cs

/-- What the link holds after `LinkCapture(max)`: the bytes of a longer arrival that the read did not take stay
there (R177, log 8). -/
def State.linkRest (s : State) (max : Nat) : List Bytes :=
  match s.link with
  | [] => []
  | c :: cs =>
    if c.length ≤ max then cs else leftOnLink (Config.freeJoined s.draws) (longArrival max s.draws c).2 cs

/-- `LinkCapture(max)` asks the oracle once, and the event is recorded (R17, R171). -/
def State.linkCapture (s : State) (max : Nat) : State :=
  { s with link := s.linkRest max, draws := s.draws + 1 }.emit (.linkCapture (s.captureAnswer max))

/-! ## Verdicts on responses -/

/-- The verdicts after `VALIDATE` answered `k` on the response `r`: the last one on the same bytes stands
(42_response_validator.md R153, log 16). -/
def noteVerdict (r : Bytes) (k : Kind) (vs : List Verdict) : List Verdict := ⟨r, k⟩ :: vs.filter (·.response ≠ r)

/-- The last verdict on the response `r`, if there is one. -/
def lastVerdict (r : Bytes) : List Verdict → Option Kind
  | [] => none
  | v :: vs => if v.response = r then some v.kind else lastVerdict r vs

/-- `VALIDATE` has answered `k` on the response `r` (R153, log 16). -/
def State.judge (s : State) (r : Bytes) (k : Kind) : State := { s with verdicts := noteVerdict r k s.verdicts }

/-- Whether a host may extract from `r`: the last verdict on it is `Ok` (R153, 70_reset_and_hazards.md R293); where
none was given, only the operand counts (R283): some request accepts it (log 16). -/
def State.accepts (s : State) (r : Bytes) : Bool :=
  match lastVerdict r s.verdicts with
  | some k => k == .ok
  | none => acceptable r

end Sys2Proof.Machine
end

