-- ==== Sys2Proof/Machine/CrcOps.lean ====
section
/-! DEFINITION. The meanings of the CRC family: CRC16, CRC_APPEND, CRC_BYTE (40_crc16.md). -/

namespace Sys2Proof.Machine

/-- CRC16 s: the checksum is returned, no register is written (R102). -/
def execCrc16 (bs : Bytes) (s : State) : Out :=
  asHost s fun s => .next (s.returns .ok (.u16 (crc16 bs)))

/-- CRC_APPEND s: the span with its checksum is returned (R104). -/
def execCrcAppend (bs : Bytes) (s : State) : Out :=
  asHost s fun s => .next (s.returns .ok (.bytes (crcAppend bs)))

/-- CRC_BYTE c, b: the running register after one byte is returned (R101, log 17). -/
def execCrcByte (c : U16) (b : Byte) (s : State) : Out :=
  asHost s fun s => .next (s.returns .ok (.u16 (crcByte c b)))

end Sys2Proof.Machine
end

