-- ==== Sys2Proof/Machine/Flags.lean ====
section
/-! DEFINITION. The status a program can read: the outcome kinds' codes and the outcome register's fields (10_state.md R29, R32; 60_exceptions.md R250). -/

namespace Sys2Proof.Machine

/-- The code of a failure kind (R250). -/
def FailKind.code : FailKind → Byte
  | .invalidArgument => 1
  | .timeout => 2
  | .unexpectedLength => 3
  | .checksumMismatch => 4
  | .malformedResponse => 5
  | .echoMismatch => 6

/-- The code of an outcome kind (R250). -/
def Kind.code : Kind → Byte
  | .ok => 0
  | .fail k => k.code

/-- The kind of a transaction's outcome. -/
def Result.kind : Result → Kind
  | .ok _ => .ok
  | .fail k => .fail k

/-- The value of a transaction's outcome, the empty sequence beside a failure (R32, R251). -/
def Result.value : Result → Bytes
  | .ok r => r
  | .fail _ => []

/-- `res.valid` (R32). -/
def State.resValid (s : State) : Bool := s.res.isSome

/-- `res.kind`; unspecified while `res.valid` is false (R32, log 21). -/
def State.resKind (s : State) : Byte :=
  match s.res with
  | some r => r.kind.code
  | none => Config.unsetKind.code

/-- `res.value` (R32). -/
def State.resValue (s : State) : Bytes :=
  match s.res with
  | some r => r.value
  | none => []

end Sys2Proof.Machine
end

