-- ==== Sys2Proof/Machine/TransactOps.lean ====
section
/-! DEFINITION. The transaction: its seven steps, SEND, CLEAR and CAPTURE among them, TRANSACT and its pseudo-operations (43_capture.md; 44_transaction.md; 30_encoding.md R77). -/

namespace Sys2Proof.Machine

/-! Each step sets `ph` to its own name as it starts (44_transaction.md R190): a state with `ph = Tn` has done
step Tn, and T(n+1) is next (log 12). -/

/-- T1: the count limit, then the builder (R190, R191). -/
def startTransact (fc : Byte) (addr val : U16) (s : State) : State :=
  let s := { s with ph := .t1 }
  if isReadCode fc ∧ val.toNat > maxCount s.par then s.fail .invalidArgument
  else
    match buildRequest fc addr val with
    | .error k => s.fail k
    | .ok f => { s with built := some f }.emitTrace (.requestBuilt (frameBytes f))

/-- T2 on the frame that T1 built (43_capture.md R170). -/
def State.sendFrame (s : State) (f : Frame8) : State :=
  ({ s with ph := .t2, built := none, txf := some f }.linkWrite f).emitTrace (.bytesSent (frameBytes f))

/-- SEND: step T2, where T1 is done (43_capture.md R170, R176). -/
def execSend (s : State) : Out :=
  inSession s fun s =>
    match s.ph, s.built with
    | .t1, some f => .next (s.sendFrame f)
    | _, _ => .refused .stepOutsideTransaction

/-- T3: every byte of the buffer 0x00 and no byte valid (43_capture.md R174). -/
def State.clearBuffer (s : State) : State := { s with ph := .t3, rbuf := Memory.cleared, rlen := 0 }

/-- CLEAR: step T3, where T2 is done (43_capture.md R174, R176). -/
def execClear (s : State) : Out :=
  inSession s fun s => if s.ph = .t2 then .next s.clearBuffer else .refused .stepOutsideTransaction

/-- T4: the oracle's answer is stored from offset 0 (43_capture.md R172). -/
def State.captureChunk (s : State) : State :=
  let c := s.captureAnswer s.par.cap
  ({ s with ph := .t4, rbuf := Memory.writeBytes s.rbuf 0 c, rlen := c.length }.linkCapture s.par.cap).emitTrace
    (.bytesReceived c)

/-- CAPTURE: step T4, where T3 is done (43_capture.md R172, R176). -/
def execCapture (s : State) : Out :=
  inSession s fun s => if s.ph = .t3 then .next s.captureChunk else .refused .stepOutsideTransaction

/-- T5: the expected length of the sent request. It is refused where `txf` holds no request that `BUILD`
produced; T6 computes the length again where it needs it (R190). -/
def expectStep (s : State) : Out :=
  match s.txf.bind expectedLength with
  | some _ => .next { s with ph := .t5 }
  | none => .refused .requestNotBuilt

/-- T6: the captured bytes are validated against the sent request (R190), and the verdict is noted for the
extractions (42_response_validator.md R153, log 16). -/
def validateStep (s : State) : Out :=
  match s.txf.bind fun f => validateResponse f s.captured with
  | none => .refused .requestNotBuilt
  | some v =>
    let s := ({ s with ph := .t6 }.judge s.captured v.kind).emitTrace (.validationResult v.kind)
    match v with
    | .ok _ => .next s
    | .fail k => .next (s.fail k)

/-- T7 (R190). -/
def finishStep (s : State) : Out := .next s.succeed

/-- The next step of the transaction in progress; where none is, nothing. -/
def advance (s : State) : Out :=
  match s.ph with
  | .idle => .next s
  | .t1 => execSend s
  | .t2 => execClear s
  | .t3 => execCapture s
  | .t4 => expectStep s
  | .t5 => validateStep s
  | .t6 => finishStep s
  | .t7 => finishStep s

/-- At most `n` steps of the transaction in progress, until it has ended. -/
def runToIdle : Nat → State → Out
  | 0, s => .next s
  | n + 1, s => if s.ph = .idle then .next s else andThen (advance s) (runToIdle n)

/-- `TRANSACT(fc, addr, val)`: T1, then the six steps after it where T1 did not fail (R190, log 12). -/
def transaction (fc : Byte) (addr val : U16) (s : State) : Out := runToIdle 6 (startTransact fc addr val s)

/-- TRANSACT fc, addr, val (R190). -/
def execTransact (fc : Byte) (addr val : U16) (s : State) : Out :=
  asHost s fun s => transaction fc addr val s

/-- READ_HR addr, count = TRANSACT 0x03, addr, count (R77). -/
def execReadHr (addr count : U16) (s : State) : Out :=
  asHost s fun s => transaction Config.fcReadHr addr count s

/-- READ_IR addr, count = TRANSACT 0x04, addr, count (R77). -/
def execReadIr (addr count : U16) (s : State) : Out :=
  asHost s fun s => transaction Config.fcReadIr addr count s

/-- WRITE_HR addr, value = TRANSACT 0x06, addr, value (R77). -/
def execWriteHr (addr value : U16) (s : State) : Out :=
  asHost s fun s => transaction Config.fcWriteSr addr value s

end Sys2Proof.Machine
end

