-- ==== Sys2Proof/Machine/RegisterOps.lean ====
section
/-! DEFINITION. The meanings of the register operations, the host's recipes (45_register_ops.md R211 to R242). -/

namespace Sys2Proof.Machine

/-- The get recipe: the transaction, then the decode of an accepted response, or the zero of the value's type
beside the failure kind (R211, R213). -/
def getRecipe (a : Attribute) (dec : Bytes → Option Value) (zero : Value) (s : State) : Out :=
  asHost s fun s =>
    andThen (transaction (attrGetCode a) (regAddrOf s.par a) (attrWords a) s) fun t =>
      match t.res with
      | some (.ok r) =>
        match dec r with
        | some v => .next (t.returns .ok v)
        | none => .refused .extractPastEnd
      | some (.fail k) => .next (t.returns (.fail k) zero)
      | none => .next t

/-- The set recipe: a value out of range is InvalidArgument with no transaction; otherwise the outcome kind of
the write transaction (R212, R213). -/
def setRecipe (a : Attribute) (valid : U16 → Bool) (v : U16) (s : State) : Out :=
  asHost s fun s =>
    if ¬ valid v then .next (s.returns (.fail .invalidArgument) .unit)
    else
      andThen (transaction Config.fcWriteSr (regAddrOf s.par a) v s) fun t =>
        match t.res with
        | some o => .next (t.returns o.kind .unit)
        | none => .next t

/-- "always true": no range restriction (R212, R235, R236). -/
def validAny (_ : U16) : Bool := true

/-- GET_SERIAL_NUMBER (R226). -/
def execGetSerialNumber (s : State) : Out := getRecipe .serialNumber decodeSerial (.text []) s

/-- GET_SOFTWARE_VERSION (R227). -/
def execGetSoftwareVersion (s : State) : Out := getRecipe .softwareVersion decodeVersion (.text []) s

/-- GET_CO2 (R228). -/
def execGetCo2 (s : State) : Out := getRecipe .co2 decodeS16 (.int 0) s

/-- GET_TEMPERATURE (R229). -/
def execGetTemperature (s : State) : Out := getRecipe .temperature decodeTemperature (.int 0) s

/-- GET_ABC_PERIOD (R230). -/
def execGetAbcPeriod (s : State) : Out := getRecipe .abcPeriod decodeU16 (.u16 0) s

/-- SET_ABC_PERIOD v (R231). -/
def execSetAbcPeriod (v : U16) (s : State) : Out := setRecipe .abcPeriod validAbc v s

/-- SET_USER_CONCENTRATION v (R232). -/
def execSetUserConcentration (v : U16) (s : State) : Out := setRecipe .userConcentration validConc v s

/-- GET_USER_CONCENTRATION (R233). -/
def execGetUserConcentration (s : State) : Out := getRecipe .userConcentration decodeU16 (.u16 0) s

/-- GET_USER_ACK (R234). -/
def execGetUserAck (s : State) : Out := getRecipe .userAck decodeU16 (.u16 0) s

/-- SET_USER_ACK v (R235). -/
def execSetUserAck (v : U16) (s : State) : Out := setRecipe .userAck validAny v s

/-- SET_SPECIAL_COMMAND v (R236). -/
def execSetSpecialCommand (v : U16) (s : State) : Out := setRecipe .specialCommand validAny v s

/-- GET_METER_STATUS (R237). -/
def execGetMeterStatus (s : State) : Out := getRecipe .meterStatus decodeU16 (.u16 0) s

/-- GET_OUTPUT_STATUS (R238). -/
def execGetOutputStatus (s : State) : Out := getRecipe .outputStatus decodeU16 (.u16 0) s

/-- GET_PWM_OUTPUT (R239). -/
def execGetPwmOutput (s : State) : Out := getRecipe .pwmOutput decodeU16 (.u16 0) s

/-- GET_SENSOR_TYPE_ID (R240). -/
def execGetSensorTypeId (s : State) : Out := getRecipe .sensorTypeId decodeU32 (.u32 0) s

/-- GET_SENSOR_ID (R241). -/
def execGetSensorId (s : State) : Out := getRecipe .sensorId decodeU32 (.u32 0) s

/-- GET_MEMORY_MAP_VERSION (R242). -/
def execGetMemoryMapVersion (s : State) : Out := getRecipe .memoryMapVersion decodeU16 (.u16 0) s

end Sys2Proof.Machine
end

