-- ==== Sys2Proof/Machine/RequestOps.lean ====
section
/-! DEFINITION. The meanings of the request builder: BUILD and the three request rows (41_request_builder.md). -/

namespace Sys2Proof.Machine

/-- The builder's result goes to the host: the frame, with the trace event RequestBuilt, or InvalidArgument
with the empty sequence (R121, R125, log 11). -/
def returnBuilt (fc : Byte) (addr val : U16) (s : State) : Out :=
  match buildRequest fc addr val with
  | .ok f => .next ((s.emitTrace (.requestBuilt (frameBytes f))).returns .ok (.bytes (frameBytes f)))
  | .error k => .next (s.returns (.fail k) (.bytes []))

/-- BUILD fc, addr, val (R121). -/
def execBuild (fc : Byte) (addr val : U16) (s : State) : Out :=
  asHost s fun s => returnBuilt fc addr val s

/-- A request row: the request that the builder makes of its fields. A frame whose CRC field is not that of
the request built is none that `BUILD` produces (R62, R70, R153, log 4). -/
def buildRow (fc : Byte) (addr val crc : U16) (s : State) : Out :=
  asHost s fun s =>
    match buildRequest fc addr val with
    | .ok f => if frameCrc f = crc then returnBuilt fc addr val s else .refused .requestNotBuilt
    | .error _ => returnBuilt fc addr val s

/-- REQ.READ_HR (R122). -/
def execReqReadHr (addr val crc : U16) (s : State) : Out := buildRow Config.fcReadHr addr val crc s

/-- REQ.READ_IR (R123). -/
def execReqReadIr (addr val crc : U16) (s : State) : Out := buildRow Config.fcReadIr addr val crc s

/-- REQ.WRITE_SR (R124). -/
def execReqWriteSr (addr val crc : U16) (s : State) : Out := buildRow Config.fcWriteSr addr val crc s

end Sys2Proof.Machine
end

