-- ==== Sys2Proof/Machine/ResponseOps.lean ====
section
/-! DEFINITION. The meanings of the response family: RRESP, WRESP, EXPECTED_LEN, VALIDATE and the extractors (42_response_validator.md). -/

namespace Sys2Proof.Machine

/-- The link delivers a response frame: a later capture may be answered with it (10_state.md R33,
43_capture.md R171, log 5). No register of the block changes. -/
def deliverResponse (c : Bytes) (s : State) : Out := inSession s fun s => .next (s.linkDeliver c)

/-- RRESP: a read response arrives (R65, log 5). -/
def execRresp (fc : Byte) (payload : Bytes) (s : State) : Out := deliverResponse (rrespBytes fc payload) s

/-- WRESP: the echo of a write request arrives (R66, log 5). -/
def execWresp (addr val : U16) (s : State) : Out := deliverResponse (wrespBytes addr val) s

/-- EXPECTED_LEN s (R141). -/
def execExpectedLen (f : Frame8) (s : State) : Out :=
  asHost s fun s =>
    match expectedLength f with
    | some E => .next (s.returns .ok (.nat E))
    | none => .refused .requestNotBuilt

/-- VALIDATE s, r: `Ok(r)`, or the failure kind with the empty sequence; no register is written (R142, R149).
The verdict is noted for the extractions (R153, log 16). -/
def execValidate (f : Frame8) (r : Bytes) (s : State) : Out :=
  asHost s fun s =>
    match validateResponse f r with
    | some v => .next ((s.judge r v.kind).returns v.kind (.bytes v.value))
    | none => .refused .requestNotBuilt

/-- An extraction: refused past the end (R150 to R152), and from a response that `VALIDATE` did not accept (R153,
70_reset_and_hazards.md R293, logs 16 and 27). With no verdict on its operand it uses only its operands (R283). -/
def extraction (r : Bytes) (v : Option Value) (s : State) : Out :=
  asHost s fun s =>
    match v with
    | none => .refused .extractPastEnd
    | some v => if s.accepts r then .next (s.returns .ok v) else .refused .responseNotAccepted

/-- EXTRACT_U16 r, off (R150). -/
def execExtractU16 (r : Bytes) (off : Nat) (s : State) : Out := extraction r ((extract16 r off).map .u16) s

/-- EXTRACT_U32 r, off (R151). -/
def execExtractU32 (r : Bytes) (off : Nat) (s : State) : Out := extraction r ((extract32 r off).map .u32) s

/-- EXTRACT_BYTES r, off, k (R152). -/
def execExtractBytes (r : Bytes) (off k : Nat) (s : State) : Out :=
  extraction r ((extractRange r off k).map .bytes) s

end Sys2Proof.Machine
end

