-- ==== Sys2Proof/Machine/Dispatch.lean ====
section
/-! DEFINITION. One arm per instruction, each a direct call of its meaning. -/

namespace Sys2Proof.Machine

def exec (i : Instr) (s : State) : Host.Outcome State Fault Refusal :=
  match i with
  | .reqReadHr addr val crc => Sys2Proof.Machine.execReqReadHr addr val crc s
  | .reqReadIr addr val crc => Sys2Proof.Machine.execReqReadIr addr val crc s
  | .reqWriteSr addr val crc => Sys2Proof.Machine.execReqWriteSr addr val crc s
  | .rresp fc payload => Sys2Proof.Machine.execRresp fc payload s
  | .wresp addr val => Sys2Proof.Machine.execWresp addr val s
  | .crc16 bs => Sys2Proof.Machine.execCrc16 bs s
  | .crcAppend bs => Sys2Proof.Machine.execCrcAppend bs s
  | .build fc addr val => Sys2Proof.Machine.execBuild fc addr val s
  | .expectedLen f => Sys2Proof.Machine.execExpectedLen f s
  | .validate f r => Sys2Proof.Machine.execValidate f r s
  | .extractU16 r off => Sys2Proof.Machine.execExtractU16 r off s
  | .extractU32 r off => Sys2Proof.Machine.execExtractU32 r off s
  | .extractBytes r off k => Sys2Proof.Machine.execExtractBytes r off k s
  | .transact fc addr val => Sys2Proof.Machine.execTransact fc addr val s
  | .crcByte c b => Sys2Proof.Machine.execCrcByte c b s
  | .send => Sys2Proof.Machine.execSend s
  | .clear => Sys2Proof.Machine.execClear s
  | .capture => Sys2Proof.Machine.execCapture s
  | .readHr addr count => Sys2Proof.Machine.execReadHr addr count s
  | .readIr addr count => Sys2Proof.Machine.execReadIr addr count s
  | .writeHr addr value => Sys2Proof.Machine.execWriteHr addr value s
  | .getSerialNumber => Sys2Proof.Machine.execGetSerialNumber s
  | .getSoftwareVersion => Sys2Proof.Machine.execGetSoftwareVersion s
  | .getCo2 => Sys2Proof.Machine.execGetCo2 s
  | .getTemperature => Sys2Proof.Machine.execGetTemperature s
  | .getAbcPeriod => Sys2Proof.Machine.execGetAbcPeriod s
  | .setAbcPeriod v => Sys2Proof.Machine.execSetAbcPeriod v s
  | .setUserConcentration v => Sys2Proof.Machine.execSetUserConcentration v s
  | .getUserConcentration => Sys2Proof.Machine.execGetUserConcentration s
  | .getUserAck => Sys2Proof.Machine.execGetUserAck s
  | .setUserAck v => Sys2Proof.Machine.execSetUserAck v s
  | .setSpecialCommand v => Sys2Proof.Machine.execSetSpecialCommand v s
  | .getMeterStatus => Sys2Proof.Machine.execGetMeterStatus s
  | .getOutputStatus => Sys2Proof.Machine.execGetOutputStatus s
  | .getPwmOutput => Sys2Proof.Machine.execGetPwmOutput s
  | .getSensorTypeId => Sys2Proof.Machine.execGetSensorTypeId s
  | .getSensorId => Sys2Proof.Machine.execGetSensorId s
  | .getMemoryMapVersion => Sys2Proof.Machine.execGetMemoryMapVersion s

end Sys2Proof.Machine
end

