-- ==== Sys2Proof/Machine/Fetch.lean ====
section
/-! DEFINITION. Taking the next line of the input (30_encoding.md R76; log 1, log 9). -/

namespace Sys2Proof.Machine

/-- A line that holds nothing but blanks and a comment (R76). -/
def isBlankLine (line : Bytes) : Bool :=
  match decode line with
  | .error .emptyLine => true
  | _ => false

/-- The lines from the first one that is not blank. -/
def skipBlank : List Bytes → List Bytes
  | [] => []
  | line :: rest => if isBlankLine line then skipBlank rest else line :: rest

/-- A LINK line that is the next line, blank lines apart: its answer, and the lines after it (R76). -/
def nextLink (rest : List Bytes) : Option (Bytes × List Bytes) :=
  match skipBlank rest with
  | [] => none
  | next :: rest' => (linkAnswerOf next).map fun c => (c, rest')

/-- The state after the first input line is taken. A LINK line right after an operation says what the oracle
delivers at that operation's capture, so it is taken with the operation and its answer is the link's next
one (R76, log 9). Where the operation performs no capture (a pure operation, a rejected set value, a transaction
that T1 refuses), the spec does not say what becomes of that answer; the model's choice is that it stays at the
front of the link, and the next capture takes it (log 32). -/
def State.afterFetch (s : State) : State :=
  match s.inputs with
  | [] => s
  | line :: rest =>
    if isBlankLine line ∨ (linkAnswerOf line).isSome then { s with inputs := rest }
    else
      match nextLink rest with
      | some (c, rest') => { s with inputs := rest', link := c :: s.link }
      | none => { s with inputs := rest }

/-- Place an instruction word where the next step takes its line: it becomes the first input line, and the
machine waits for an operation (log 29). -/
def State.withInputLine (s : State) (line : Bytes) : State :=
  { s with inputs := line :: s.inputs, ph := .idle, session := .active }

end Sys2Proof.Machine
end

