-- ==== Sys2Proof/Machine/Step.lean ====
section
/-! DEFINITION. One step of the machine (10_state.md R20, R28; 30_encoding.md R76; log 1, log 12). -/

namespace Sys2Proof.Machine

/-- What the first input line does, in the state `s` after it is taken (log 28). -/
def runLine (line : Bytes) (s : State) : Out :=
  match decodeInput line with
  | .error e => .refused (.undecodable e)
  | .ok .blank => .next s
  | .ok (.answer c) => deliverResponse c s
  | .ok (.op i) => if i.wf then exec i s else .refused .illFormed

/-- One step. A transaction in progress takes its next step; otherwise the first input line is taken and run;
with no input line the block waits for the host's next operation (70_reset_and_hazards.md R281). -/
def step (s : State) : Host.Outcome State Fault Refusal :=
  match s.ph with
  | .idle =>
    match s.inputs with
    | [] => .next s
    | line :: _ => runLine line s.afterFetch
  | .t1 | .t2 | .t3 | .t4 | .t5 | .t6 | .t7 => inSession s advance

/-- The state `s` whose next step takes and runs the instruction with the table's bits `w` (log 3, log 29). -/
def State.withFetchWord (s : State) (nbits w : Nat) : State := s.withInputLine (wordBytes (nbits / 8) w)

end Sys2Proof.Machine
end

