-- ==== Sys2Proof/Safety.lean ====
section
/-! DEFINITION. The terms that claims use: the machine's invariant, the states in which an operation may begin, what an operation leaves alone. -/

namespace Sys2Proof

/-- What kind of agent's action an instruction is. -/
inductive InstrClass where
  /-- A host operation that uses only its own operands (30_encoding.md R71). -/
  | pure
  /-- A host operation that may run a transaction (R71, R77, 45_register_ops.md). -/
  | transacting
  /-- A step of a transaction, no host operation (R71). -/
  | transactionStep
  /-- A response frame that the link delivers (R65, R66). -/
  | linkDelivery
  deriving DecidableEq, Repr

/-- The class of each instruction. -/
def Instr.cls : Instr → InstrClass
  | .reqReadHr _ _ _ | .reqReadIr _ _ _ | .reqWriteSr _ _ _ | .crc16 _ | .crcAppend _ | .build _ _ _
  | .expectedLen _ | .validate _ _ | .extractU16 _ _ | .extractU32 _ _ | .extractBytes _ _ _ | .crcByte _ _ => .pure
  | .transact _ _ _ | .readHr _ _ | .readIr _ _ | .writeHr _ _ | .getSerialNumber | .getSoftwareVersion | .getCo2
  | .getTemperature | .getAbcPeriod | .setAbcPeriod _ | .setUserConcentration _ | .getUserConcentration
  | .getUserAck | .setUserAck _ | .setSpecialCommand _ | .getMeterStatus | .getOutputStatus | .getPwmOutput
  | .getSensorTypeId | .getSensorId | .getMemoryMapVersion => .transacting
  | .send | .clear | .capture => .transactionStep
  | .rresp _ _ | .wresp _ _ => .linkDelivery

/-- A host operation (10_state.md R20, 30_encoding.md R71). -/
abbrev Instr.IsHostOp (i : Instr) : Prop := i.cls = .pure ∨ i.cls = .transacting

end Sys2Proof

namespace Sys2Proof.Machine

/-- An event of the link, not a trace event (00_scope.md R17). -/
def Event.onLink : Event → Bool
  | .linkWrite _ | .linkCapture _ => true
  | .trace _ => false

/-- The host may begin an operation: the session lasts and no transaction is in progress
(60_exceptions.md R258 (d), (e), R265). -/
abbrev State.Ready (s : State) : Prop := s.session = .active ∧ s.ph = .idle

/-- A frame that a transaction may send: `BUILD` produces it, and a read asks for at most `MAX_COUNT`
registers (44_transaction.md R190, R191). -/
abbrev Sendable (p : Params) (f : Frame8) : Prop :=
  isBuilt f = true ∧ (isReadCode f.fc = true → (frameVal f).toNat ≤ maxCount p)

/-- The registers of the block that only a transaction writes (10_state.md R23 to R28). -/
abbrev State.SameRegisters (s t : State) : Prop :=
  t.txf = s.txf ∧ t.rbuf = s.rbuf ∧ t.rlen = s.rlen ∧ t.res = s.res ∧ t.ph = s.ph ∧ t.built = s.built

/-- The captured bytes are the accepted response to the sent request. -/
abbrev State.CaptureAccepted (s : State) : Prop :=
  ∃ f, s.txf = some f ∧ validateResponse f s.captured = some (.ok s.captured)

/-- What a transaction that sent `f`, captured `c` and ended with the outcome `o` makes of the state before
it: the request in `txf`, the capture in `rbuf` with 0x00 above it, the outcome in `res` and returned, the six
events in their order, the verdict on the capture noted, one read of the link done (44_transaction.md R190,
R193, R195). -/
def State.afterCycle (s : State) (f : Frame8) (c : Bytes) (o : Result) : State :=
  { s with
    txf := some f
    rbuf := Memory.writeBytes Memory.cleared 0 c
    rlen := c.length
    res := some o
    ph := .idle
    built := none
    ret := some ⟨o.kind, .bytes o.value⟩
    obs := s.obs ++
      [.trace (.requestBuilt (frameBytes f)), .linkWrite (frameBytes f), .trace (.bytesSent (frameBytes f)),
        .linkCapture c, .trace (.bytesReceived c), .trace (.validationResult o.kind)]
    verdicts := noteVerdict c o.kind s.verdicts
    link := s.linkRest s.par.cap
    draws := s.draws + 1 }

/-- A host may extract from the response `r`: `VALIDATE` accepted it last, or has not judged it and would accept it
for some request (42_response_validator.md R153, 70_reset_and_hazards.md R283, R293, log 16). -/
abbrev State.MayExtract (s : State) (r : Bytes) : Prop :=
  lastVerdict r s.verdicts = some .ok ∨ (lastVerdict r s.verdicts = none ∧ acceptable r = true)

/-- The invariant of the machine. -/
structure State.Inv (s : State) : Prop where
  /-- The parameters are legal (00_scope.md R8, R9). -/
  params : s.par.wf
  /-- The response buffer is in its canonical form. -/
  bufferCanonical : s.rbuf.wf
  /-- `0 ≤ rlen ≤ CAP` (10_state.md R25). -/
  rlenInCap : s.rlen ≤ s.par.cap
  /-- The bytes above the captured ones are 0x00 (43_capture.md R172, R174). -/
  tailClear : ∀ a, s.rlen ≤ a → Memory.read s.rbuf a = 0x00
  /-- `txf` holds a request that a transaction may send (10_state.md R23). -/
  sentBuilt : ∀ f, s.txf = some f → Sendable s.par f
  /-- T1's frame is held exactly between T1 and T2, and may be sent (44_transaction.md R190). -/
  builtInT1 : s.ph = .t1 ↔ s.built.isSome
  builtSendable : ∀ f, s.built = some f → Sendable s.par f
  /-- From T2 on, the transaction's request has been sent (R190). -/
  sentAfterT2 : s.ph ≠ .idle → s.ph ≠ .t1 → s.txf.isSome
  /-- After T3 and before T4 no byte is captured (R190). -/
  clearedAfterT3 : s.ph = .t3 → s.rbuf = Memory.cleared ∧ s.rlen = 0
  /-- After T6 the capture is accepted (R190). -/
  acceptedAfterT6 : s.ph = .t6 ∨ s.ph = .t7 → s.CaptureAccepted
  /-- Between operations, an outcome `Ok(r)` is that of the captured bytes, which are the accepted response to
  the request in `txf` (10_state.md R26, 42_response_validator.md R148). -/
  okIsAccepted : s.ph = .idle → ∀ r, s.res = some (.ok r) → s.captured = r ∧ s.CaptureAccepted
  /-- Each judged response has one verdict, and `VALIDATE` accepts for some request each whose verdict is `Ok`
  (42_response_validator.md R148, R153). -/
  verdictsOnce : (s.verdicts.map Verdict.response).Nodup
  okAcceptable : ∀ v ∈ s.verdicts, v.kind = .ok → acceptable v.response = true

end Sys2Proof.Machine
end

