-- ==== Sys2Proof/Certificates/Slice0/Obligations.lean ====
section
/-! DEFINITION. The statements for the provers. -/

open Sys2Proof Sys2Proof.Machine

/-! ## Reset, the invariant, the step -/

/-- The state after reset has the values of 10_state.md R35 (the spec's own choices, D7) whatever the parameters
are; the parameters of State.reset are legal (00_scope.md R8, R9). -/
def Obligations.ResetHasTheValuesOfTheSpec : Prop :=
  (∀ p : Params,
    (State.resetWith p).txf = none ∧ (∀ a, Memory.read (State.resetWith p).rbuf a = 0x00) ∧
      (State.resetWith p).rlen = 0 ∧ (State.resetWith p).res = none ∧ (State.resetWith p).resValid = false ∧
      (State.resetWith p).resValue = [] ∧ (State.resetWith p).ph = .idle ∧ (State.resetWith p).par = p) ∧
    State.reset = State.resetWith Config.params ∧ Config.params.wf

/-- The invariant holds after reset, whatever legal parameters the session has. -/
def Obligations.ResetMeetsInvariant : Prop :=
  (∀ p : Params, p.wf → (State.resetWith p).Inv) ∧ State.reset.Inv

/-- Every step keeps the invariant, from every state that meets it. -/
def Obligations.StepKeepsInvariant : Prop :=
  ∀ s t : State, s.Inv → step s = .next t → t.Inv

/-- Every instruction keeps the invariant, the steps of a transaction among them. -/
def Obligations.EveryInstructionKeepsInvariant : Prop :=
  ∀ (i : Instr) (s t : State), s.Inv → exec i s = .next t → t.Inv

/-- 10_state.md R21: no operation and no step writes a parameter: `CAP`, `TIMEOUT_S`, the address of every attribute,
and with `CAP` the count limit. -/
def Obligations.NothingWritesTheParameters : Prop :=
  ∀ s t : State, ((∃ i : Instr, exec i s = .next t) ∨ step s = .next t) →
    t.par.cap = s.par.cap ∧ t.par.timeoutS = s.par.timeoutS ∧ (∀ a : Attribute, regAddrOf t.par a = regAddrOf s.par a) ∧
      maxCount t.par = maxCount s.par

/-- A step with no transaction in progress runs the instruction its first input line decodes to, in the state
that has the line taken (the model's choice of the input, log 1); a LINK line right after an operation is taken with
it (nextLink: the next line, blank lines apart), and its answer is the link's next one (30_encoding.md R76, log 9).
This third clause is the model's choice: it holds of every decoded operation, also of one that performs no capture (a
pure operation, a rejected set, a TRANSACT that T1 refuses), where the spec is silent and the answer stays at the
front of the link (log 32). -/
def Obligations.StepRunsTheDecodedInstruction : Prop :=
  ∀ (s : State) (line : Bytes) (rest : List Bytes) (i : Instr),
    s.ph = .idle → s.inputs = line :: rest → decode line = .ok i → i.wf = true →
      step s = exec i s.afterFetch ∧
      (linkAnswerOf line ≠ none ∨ nextLink rest = none → s.afterFetch = { s with inputs := rest }) ∧
      ∀ (c : Bytes) (rest' : List Bytes), linkAnswerOf line = none → nextLink rest = some (c, rest') →
        s.afterFetch = { s with inputs := rest', link := c :: s.link }

/-- What a step does where its first input line is no instruction to run: it waits for one (70_reset_and_hazards.md
R281; the model's choice of the input, log 1) and passes over a blank or comment line (30_encoding.md R76). The
rest is the model's choice: a LINK line that stands first puts its answer at the end of the link (log 9); any other
line is refused by the decoder's reason, and a frame that is not well-formed (R70) is refused (log 28). -/
def Obligations.StepOnOtherInput : Prop :=
  (∀ s : State, s.ph = .idle → s.inputs = [] → step s = .next s) ∧
    ∀ (s : State) (line : Bytes) (rest : List Bytes), s.ph = .idle → s.inputs = line :: rest →
      (decode line = .error .emptyLine → step s = .next { s with inputs := rest }) ∧
      (∀ (e : DecodeError) (c : Bytes), decode line = .error e → linkAnswerOf line = some c → s.session = .active →
        step s = .next { s with inputs := rest, link := s.link ++ [c] }) ∧
      (∀ e : DecodeError, decode line = .error e → e ≠ .emptyLine → linkAnswerOf line = none →
        step s = .refused (.undecodable e)) ∧
      ∀ i : Instr, decode line = .ok i → i.wf = false → step s = .refused .illFormed

/-- A transaction that began is carried on by the machine's steps: from the state after T1, some number of
steps, six at most, answers what TRANSACT as one operation answers (44_transaction.md R190, 10_state.md R28). That
TRANSACT is one instruction and that `ph = Tn` means that Tn is done is the model's choice (log 12). -/
def Obligations.TransactIsItsSteps : Prop :=
  ∀ (s : State) (fc : Byte) (addr val : U16), s.Ready →
    ∃ k, k ≤ 6 ∧ Host.Core.run core k (startTransact fc addr val s) = exec (.transact fc addr val) s

/-- A step in a transaction moves the step register to the next step's name, or ends the transaction, which only
T6 and T7 do (10_state.md R28, 44_transaction.md R190). -/
def Obligations.PhasesFollowTheirOrder : Prop :=
  ∀ s t : State, step s = .next t →
    (s.ph = .t1 → t.ph = .t2) ∧ (s.ph = .t2 → t.ph = .t3) ∧ (s.ph = .t3 → t.ph = .t4) ∧ (s.ph = .t4 → t.ph = .t5) ∧
      (s.ph = .t5 → t.ph = .t6 ∨ t.ph = .idle) ∧ (s.ph = .t6 ∨ s.ph = .t7 → t.ph = .idle)

/-! ## Decoding and encoding -/

/-- Decoding gives back every well-formed instruction from its encoding, with every operand. -/
def Obligations.DecodeGivesBackEveryInstruction : Prop :=
  ∀ i : Instr, i.wf = true → decode (encode i) = .ok i

/-- The table's words select the request rows (30_encoding.md R61, R70): the two top bytes choose the row, the
fields are where R61 puts them, and no other function code behind 0xFE is a request. -/
def Obligations.TableWordsSelectRequestRows : Prop :=
  (∀ addr val crc : U16,
    let low := addr.toNat * 0x100000000 + val.toNat * 0x10000 + (crc.toNat % 256) * 0x100 + crc.toNat / 256
    decodeTableWord 64 (0xFE03000000000000 + low) = some (.reqReadHr addr val crc) ∧
    decodeTableWord 64 (0xFE04000000000000 + low) = some (.reqReadIr addr val crc) ∧
    decodeTableWord 64 (0xFE06000000000000 + low) = some (.reqWriteSr addr val crc)) ∧
    ∀ w : Nat, w / 0x100000000000000 = 0xFE → w / 0x1000000000000 ≠ 0xFE03 → w / 0x1000000000000 ≠ 0xFE04 →
      w / 0x1000000000000 ≠ 0xFE06 → decodeTableWord 64 w = none

/-- Some words and lines written out from the spec's encodings decode to what they stand for (R61, R65, R66, R76). -/
def Obligations.WrittenWordsDecode : Prop :=
  decode [0xFE, 0x04, 0x00, 0x04, 0x00, 0x01, 0x64, 0x04] = .ok (.reqReadIr 0x0004 0x0001 0x0464) ∧
  decode [0xFE, 0x06, 0x12, 0x34, 0xAB, 0xCD, 0x67, 0xD6] = .ok (.reqWriteSr 0x1234 0xABCD 0xD667) ∧
  decode (ascii ['C', 'R', 'C', '1', '6', ' ', '[', 'F', 'E', ' ', '0', '4', ']']) = .ok (.crc16 [0xFE, 0x04]) ∧
  decode (ascii ['R', 'E', 'A', 'D', '_', 'I', 'R', ' ', '0', 'x', '0', '0', '0', '4', ',', ' ', '1'])
    = .ok (.readIr 0x0004 1) ∧
  decode (ascii ['S', 'E', 'T', '_', 'U', 'S', 'E', 'R', '_', 'A', 'C', 'K', ' ', '6', '5', '5', '3', '5', ' ', ';', ' ', 'a'])
    = .ok (.setUserAck 0xFFFF) ∧
  decode (ascii ['L', 'I', 'N', 'K', ' ', '<', '-', ' ', 'F', 'E', ' ', '0', '4', ' ', '0', '2', ' ', '3', '0', ' ',
    'D', '4', ' ', 'B', '9', ' ', '7', 'B']) = .ok (.rresp 0x04 [0x30, 0xD4])

/-- 30_encoding.md R69, R258 (f): an operand that does not fit its type is refused at the interface, whatever it is,
wherever it stands: a number that is no `u16`, a number that is no `u8`, a sequence that is no `Frame8` (the spec's
choice, D21; log 2). -/
def Obligations.OperandThatDoesNotFitIsRefused : Prop :=
  (∀ n : Nat, 65536 ≤ n →
    (∀ name ∈ [mnSetAbcPeriod, mnSetUserConcentration, mnSetUserAck, mnSetSpecialCommand],
      decode (opLine name [numNat n]) = .error .operandDoesNotFit) ∧
    (∀ v : U16, ∀ name ∈ [mnReadHr, mnReadIr, mnWriteHr],
      decode (opLine name [numNat n, numU16 v]) = .error .operandDoesNotFit ∧
      decode (opLine name [numU16 v, numNat n]) = .error .operandDoesNotFit) ∧
    ∀ (b : Byte) (v : U16), decode (opLine mnCrcByte [numNat n, numU8 b]) = .error .operandDoesNotFit ∧
      ∀ name ∈ [mnBuild, mnTransact],
        decode (opLine name [numU8 b, numNat n, numU16 v]) = .error .operandDoesNotFit ∧
        decode (opLine name [numU8 b, numU16 v, numNat n]) = .error .operandDoesNotFit) ∧
  (∀ n : Nat, 256 ≤ n → ∀ v w : U16, decode (opLine mnCrcByte [numU16 v, numNat n]) = .error .operandDoesNotFit ∧
    ∀ name ∈ [mnBuild, mnTransact],
      decode (opLine name [numNat n, numU16 v, numU16 w]) = .error .operandDoesNotFit) ∧
  ∀ s r : Bytes, s.length ≠ 8 →
    decode (opLine mnExpectedLen [bracketed s]) = .error .operandDoesNotFit ∧
    decode (opLine mnValidate [bracketed s, bracketed r]) = .error .operandDoesNotFit

/-! ## The CRC engine -/

/-- CRC_BYTE is the byte XORed in and eight steps, with its corner cases and worked example (40_crc16.md R101). That
it completes as an operation of the host, in every ready state, returning the new CRC and changing nothing else, is
the model's reading: R71 lists it as an internal step (log 17). -/
def Obligations.CrcByteIsEightSteps : Prop :=
  let bitStep : U16 → U16 := fun c => if c.getLsbD 0 then (c >>> 1) ^^^ 0xA001 else c >>> 1
  (∀ (s : State) (c : U16) (b : Byte), s.Ready →
    exec (.crcByte c b) s
      = .next { s with ret := some ⟨.ok, .u16 (bitStep^[8] (c ^^^ b.setWidth 16))⟩ }) ∧
  crcByte 0x0000 0x00 = 0x0000 ∧
  (∀ (c : U16) (b : Byte), (crcByte c b).getLsbD 15 = (bitStep^[7] (c ^^^ b.setWidth 16)).getLsbD 0) ∧
  crcByte 0xFFFF 0xFE = 0xC03E

/-- 40_crc16.md R102: CRC16 runs CRC_BYTE over the span in index order from 0xFFFF, completes in every ready
state and changes nothing but the returned value; its corner cases and worked example. -/
def Obligations.Crc16RunsOverTheSpan : Prop :=
  (∀ (s : State) (bs : Bytes), s.Ready → exec (.crc16 bs) s = .next { s with ret := some ⟨.ok, .u16 (crc16 bs)⟩ }) ∧
  crc16 [] = 0xFFFF ∧ (∀ (bs : Bytes) (b : Byte), crc16 (bs ++ [b]) = crcByte (crc16 bs) b) ∧
  (∃ a b : Byte, crc16 [a, b] ≠ crc16 [b, a]) ∧
  crc16 [0xFE] = 0xC03E ∧ crc16 [0xFE, 0x04] = 0x1340 ∧ crc16 [0xFE, 0x04, 0x00] = 0xF012 ∧
  crc16 [0xFE, 0x04, 0x00, 0x04] = 0xCE71 ∧ crc16 [0xFE, 0x04, 0x00, 0x04, 0x00] = 0x240E ∧
  crc16 [0xFE, 0x04, 0x00, 0x04, 0x00, 0x01] = 0x0464

/-- 40_crc16.md R104: CRC_APPEND puts bits 7:0 of the checksum, then bits 15:8, behind the span, completes
in every ready state and changes nothing but the returned value; every request the block builds is the CRC_APPEND of
its first six bytes. -/
def Obligations.CrcAppendPutsLowByteFirst : Prop :=
  (∀ (s : State) (bs : Bytes), s.Ready →
    ∃ lo hi : Byte, exec (.crcAppend bs) s = .next { s with ret := some ⟨.ok, .bytes (bs ++ [lo, hi])⟩ } ∧
      (crc16 bs).toNat = 256 * hi.toNat + lo.toNat) ∧
  crcAppend [] = [0xFF, 0xFF] ∧ (∀ bs : Bytes, (crcAppend bs).length = bs.length + 2) ∧
  crcAppend [0xFE, 0x04, 0x00, 0x04, 0x00, 0x01] = [0xFE, 0x04, 0x00, 0x04, 0x00, 0x01, 0x64, 0x04] ∧
  ∀ (fc : Byte) (addr val : U16) (f : Frame8), buildRequest fc addr val = .ok f →
    frameBytes f = crcAppend ((frameBytes f).take 6)

/-- 40_crc16.md R105: the residue of a span with its checksum is 0, and a frame of at least two bytes has residue 0
exactly when its trailing two bytes are the checksum of the others. -/
def Obligations.ResidueIsZeroExactlyForAFrame : Prop :=
  (∀ bs : Bytes, crc16 (crcAppend bs) = 0x0000) ∧
    ∀ f : Bytes, 2 ≤ f.length → (crc16 f = 0x0000 ↔ f = crcAppend (f.take (f.length - 2)))

/-- 95_test_vectors.md V5, for any accepted read response and any wrong byte: with one byte changed, wherever it
stands, the response is rejected with ChecksumMismatch and no later check is reached. -/
def Obligations.OneWrongByteIsAChecksumMismatch : Prop :=
  ∀ (f : Frame8) (r : Bytes) (i : Nat) (b : Byte), isReadCode f.fc = true → validateResponse f r = some (.ok r) →
    i < r.length → r.getD i 0 ≠ b → validateResponse f (r.set i b) = some (.fail .checksumMismatch)

/-! ## The request builder -/

/-- 41_request_builder.md R121: BUILD completes in every ready state. It reports InvalidArgument for a function
code that is none of the three and for a read of 0 words; otherwise it returns the request, whose residue is 0.
No register changes; a success emits the trace event (R125). Its worked example. -/
def Obligations.BuildMakesTheRequest : Prop :=
  (∀ (s : State) (fc : Byte) (addr val : U16), s.Ready →
    ((fc ≠ 0x03 ∧ fc ≠ 0x04 ∧ fc ≠ 0x06) ∨ ((fc = 0x03 ∨ fc = 0x04) ∧ val = 0) →
      exec (.build fc addr val) s = .next { s with ret := some ⟨.fail .invalidArgument, .bytes []⟩ }) ∧
    (((fc = 0x03 ∨ fc = 0x04) ∧ val ≠ 0) ∨ fc = 0x06 →
      ∃ ah al vh vl : Byte, addr.toNat = 256 * ah.toNat + al.toNat ∧ val.toNat = 256 * vh.toNat + vl.toNat ∧
        exec (.build fc addr val) s =
          .next { s with
            ret := some ⟨.ok, .bytes (crcAppend [0xFE, fc, ah, al, vh, vl])⟩
            obs := s.obs ++ [.trace (.requestBuilt (crcAppend [0xFE, fc, ah, al, vh, vl]))] } ∧
        crc16 (crcAppend [0xFE, fc, ah, al, vh, vl]) = 0x0000)) ∧
  buildRequest 0x04 0x0004 0x0001 = .ok ⟨0xFE, 0x04, 0x00, 0x04, 0x00, 0x01, 0x64, 0x04⟩

/-- 41_request_builder.md R122, R123, R124, for the rows as instructions (log 4): a request row with the right CRC
field completes as BUILD of its fields does; a read row of 0 words completes with InvalidArgument; another CRC
field is refused. -/
def Obligations.RequestRowsBuildTheirRequest : Prop :=
  ∀ (s : State) (addr val crc : U16), s.Ready →
    (∀ row ∈ [(Instr.reqReadHr addr val crc, (0x03 : Byte)), (Instr.reqReadIr addr val crc, 0x04)],
      (val ≠ 0 → crc = crc16 (reqBody row.2 addr val) →
        exec row.1 s = exec (.build row.2 addr val) s ∧
        exec row.1 s = .next { s with
          ret := some ⟨.ok, .bytes (frameBytes (reqFrame row.2 addr val))⟩
          obs := s.obs ++ [.trace (.requestBuilt (frameBytes (reqFrame row.2 addr val)))] }) ∧
      (val = 0 → exec row.1 s = .next { s with ret := some ⟨.fail .invalidArgument, .bytes []⟩ }) ∧
      (val ≠ 0 → crc ≠ crc16 (reqBody row.2 addr val) → exec row.1 s = .refused .requestNotBuilt)) ∧
    (crc = crc16 (reqBody 0x06 addr val) →
      exec (.reqWriteSr addr val crc) s = .next { s with
        ret := some ⟨.ok, .bytes (frameBytes (reqFrame 0x06 addr val))⟩
        obs := s.obs ++ [.trace (.requestBuilt (frameBytes (reqFrame 0x06 addr val)))] }) ∧
    (crc ≠ crc16 (reqBody 0x06 addr val) → exec (.reqWriteSr addr val crc) s = .refused .requestNotBuilt)

/-! ## The response validator -/

/-- 42_response_validator.md R141: EXPECTED_LEN completes in every ready state on a request that BUILD produces,
changing nothing but the returned value: 5 + 2 × count for a read, at least 7, and 8 for the write. It is refused on
any other frame. -/
def Obligations.ExpectedLengthOfARequest : Prop :=
  ∀ (s : State) (f : Frame8), s.Ready →
    ((∃ (fc : Byte) (addr val : U16), buildRequest fc addr val = .ok f) →
      ((f.fc = 0x03 ∨ f.fc = 0x04) →
        exec (.expectedLen f) s
          = .next { s with ret := some ⟨.ok, .nat (5 + 2 * (256 * f.valHi.toNat + f.valLo.toNat))⟩ } ∧
        7 ≤ 5 + 2 * (256 * f.valHi.toNat + f.valLo.toNat)) ∧
      (f.fc = 0x06 → exec (.expectedLen f) s = .next { s with ret := some ⟨.ok, .nat 8⟩ }) ∧
      (f.fc = 0x03 ∨ f.fc = 0x04 ∨ f.fc = 0x06)) ∧
    (¬ (∃ (fc : Byte) (addr val : U16), buildRequest fc addr val = .ok f) →
      exec (.expectedLen f) s = .refused .requestNotBuilt)

/-- 42_response_validator.md R142 to R147 (R144, R146 and R147 whole): VALIDATE completes in every ready state on a
request that BUILD produces, and each kind is returned exactly under its condition. It writes no register; beside
the returned value the model notes its verdict on the response (log 16). -/
def Obligations.ValidateDecidesByTheFirstFailingCheck : Prop :=
  ∀ (s : State) (f : Frame8) (r : Bytes) (E : Nat), s.Ready → expectedLength f = some E →
    ∃ o : Result,
      exec (.validate f r) s
        = .next { s with ret := some ⟨o.kind, .bytes o.value⟩, verdicts := noteVerdict r o.kind s.verdicts } ∧
      (o = .fail .timeout ↔ r.length = 0) ∧
      (o = .fail .unexpectedLength ↔ r.length ≠ 0 ∧ r.length ≠ E) ∧
      (o = .fail .echoMismatch ↔ f.fc = 0x06 ∧ r.length = E ∧ r ≠ frameBytes f) ∧
      (o = .fail .checksumMismatch ↔
        (f.fc = 0x03 ∨ f.fc = 0x04) ∧ r.length = E ∧ r ≠ crcAppend (r.take (r.length - 2))) ∧
      (o = .fail .malformedResponse ↔
        (f.fc = 0x03 ∨ f.fc = 0x04) ∧ r.length = E ∧ r = crcAppend (r.take (r.length - 2)) ∧
          ¬ (r.getD 0 0 = 0xFE ∧ (r.getD 1 0 = 0x03 ∨ r.getD 1 0 = 0x04) ∧ (r.getD 2 0).toNat = r.length - 5)) ∧
      o ≠ .fail .invalidArgument ∧ ∀ x, o = .ok x → x = r

/-- 42_response_validator.md R148, R155: exactly which responses are accepted. On the read path either read code is
accepted, whichever was sent; on the write path only the request itself. -/
def Obligations.AcceptedResponsesExactly : Prop :=
  ∀ (f : Frame8) (r : Bytes), isBuilt f = true →
    ((f.fc = 0x03 ∨ f.fc = 0x04) →
      (validateResponse f r = some (.ok r) ↔
        r.length = 5 + 2 * (frameVal f).toNat ∧ r.getD 0 0 = 0xFE ∧ (r.getD 1 0 = 0x03 ∨ r.getD 1 0 = 0x04) ∧
          (r.getD 2 0).toNat = 2 * (frameVal f).toNat ∧ crc16 r = 0x0000)) ∧
    (f.fc = 0x06 → (validateResponse f r = some (.ok r) ↔ r = frameBytes f))

/-- 42_response_validator.md R150, R151, R152: from a response a host may extract from (MayExtract: VALIDATE accepted
it last, or has not judged it and some request accepts it; log 16), each extractor completes in every ready state
where its range lies inside the response, changes nothing but the returned value, and returns the field, most
significant byte first; from any response, where the range reaches past the end it is refused. Their worked
examples. -/
def Obligations.ExtractorsReadBigEndianFields : Prop :=
  (∀ (s : State) (r : Bytes) (off k : Nat), s.Ready →
    (s.MayExtract r → off + 2 ≤ r.length → ∃ v : U16, exec (.extractU16 r off) s = .next { s with ret := some ⟨.ok, .u16 v⟩ } ∧
      v.toNat = 256 * (r.getD off 0).toNat + (r.getD (off + 1) 0).toNat) ∧
    (s.MayExtract r → off + 4 ≤ r.length → ∃ v : U32, exec (.extractU32 r off) s = .next { s with ret := some ⟨.ok, .u32 v⟩ } ∧
      v.toNat = 65536 * (256 * (r.getD off 0).toNat + (r.getD (off + 1) 0).toNat)
        + (256 * (r.getD (off + 2) 0).toNat + (r.getD (off + 3) 0).toNat)) ∧
    (s.MayExtract r → off + k ≤ r.length → ∃ bs : Bytes, exec (.extractBytes r off k) s = .next { s with ret := some ⟨.ok, .bytes bs⟩ } ∧
      bs.length = k ∧ ∀ j, j < k → bs.getD j 0 = r.getD (off + j) 0) ∧
    (r.length < off + 2 → exec (.extractU16 r off) s = .refused .extractPastEnd) ∧
    (r.length < off + 4 → exec (.extractU32 r off) s = .refused .extractPastEnd) ∧
    (r.length < off + k → exec (.extractBytes r off k) s = .refused .extractPastEnd)) ∧
  extract16 [0xFE, 0x04, 0x02, 0x30, 0xD4, 0xB9, 0x7B] 3 = some 0x30D4 ∧
  extract32 [0xFE, 0x04, 0x04, 0x00, 0x01, 0xE2, 0x40, 0xEC, 0x1B] 3 = some 0x0001E240 ∧
  extractRange [0xFE, 0x04, 0x0A, 0x41, 0x42, 0x43, 0x31, 0x32, 0x00, 0x00, 0x00, 0x00, 0x00, 0x9E, 0xC5] 3 10
    = some [0x41, 0x42, 0x43, 0x31, 0x32, 0x00, 0x00, 0x00, 0x00, 0x00]

/-- What a response's bytes alone say, in the invariant and for an extraction without a verdict: `acceptable` holds exactly of the responses that
VALIDATE accepts for some request that BUILD produces (42_response_validator.md R142, R148). -/
def Obligations.AcceptableMeansSomeRequestAcceptsIt : Prop :=
  ∀ r : Bytes, acceptable r = true ↔ ∃ f : Frame8, isBuilt f = true ∧ validateResponse f r = some (.ok r)

/-- 42_response_validator.md R153: the three uses outside the contract are refused, each by its name, in every ready
state: a request that BUILD did not produce, an extraction past the end, an extraction from a response that VALIDATE
did not accept. The model's choices here: EXPECTED_LEN and VALIDATE refuse such a request before every other check,
the empty response included (log 14); a response that VALIDATE did not accept is one whose last verdict is a failure,
or one without a verdict that no request accepts (log 16); of two reasons the range is named first (log 27). -/
def Obligations.OutOfContractUseIsRefused : Prop :=
  ∀ (s : State) (f : Frame8) (r : Bytes) (off k : Nat), s.Ready →
    (isBuilt f = false → exec (.expectedLen f) s = .refused .requestNotBuilt ∧
      exec (.validate f r) s = .refused .requestNotBuilt) ∧
    (r.length < off + 2 → exec (.extractU16 r off) s = .refused .extractPastEnd) ∧
    (r.length < off + 4 → exec (.extractU32 r off) s = .refused .extractPastEnd) ∧
    (r.length < off + k → exec (.extractBytes r off k) s = .refused .extractPastEnd) ∧
    ((∃ e, lastVerdict r s.verdicts = some (.fail e)) ∨ (lastVerdict r s.verdicts = none ∧ acceptable r = false) →
      (off + 2 ≤ r.length → exec (.extractU16 r off) s = .refused .responseNotAccepted) ∧
      (off + 4 ≤ r.length → exec (.extractU32 r off) s = .refused .responseNotAccepted) ∧
      (off + k ≤ r.length → exec (.extractBytes r off k) s = .refused .responseNotAccepted))

/-- Which responses a host may extract from (42_response_validator.md R153, 60_exceptions.md R253,
70_reset_and_hazards.md R293; that the last verdict on the same bytes decides is the model's choice, log 16). VALIDATE
and a transaction that gets to T6 give the response their verdict and leave that of every other response as it was; so
after either has rejected a response, whatever other request would accept it, every extraction from it is refused, and
after either has accepted it, an extraction inside it completes. -/
def Obligations.VerdictDecidesExtraction : Prop :=
  let refusedFrom : State → Bytes → Prop := fun t r => ∀ off k : Nat,
    (∃ e, exec (.extractU16 r off) t = .refused e) ∧ (∃ e, exec (.extractU32 r off) t = .refused e) ∧
      ∃ e, exec (.extractBytes r off k) t = .refused e
  let extractable : State → Bytes → Prop := fun t r => ∀ off k : Nat,
    (off + 2 ≤ r.length → ∃ u, exec (.extractU16 r off) t = .next u) ∧
    (off + 4 ≤ r.length → ∃ u, exec (.extractU32 r off) t = .next u) ∧
    (off + k ≤ r.length → ∃ u, exec (.extractBytes r off k) t = .next u)
  (∀ (s : State) (f : Frame8) (r : Bytes) (o : Result), s.Ready → validateResponse f r = some o →
    ∃ t, exec (.validate f r) s = .next t ∧
      (∀ x, lastVerdict x t.verdicts = if x = r then some o.kind else lastVerdict x s.verdicts) ∧
      (o = .ok r → extractable t r) ∧ (o ≠ .ok r → refusedFrom t r)) ∧
  ∀ (s : State) (fc : Byte) (addr val : U16), s.Ready →
    ∃ t o, exec (.transact fc addr val) s = .next t ∧ t.res = some o ∧
      (o = .fail .invalidArgument → t.verdicts = s.verdicts) ∧
      (o ≠ .fail .invalidArgument →
        (∀ x, lastVerdict x t.verdicts = if x = t.captured then some o.kind else lastVerdict x s.verdicts) ∧
        (o = .ok t.captured → extractable t t.captured) ∧ (o ≠ .ok t.captured → refusedFrom t t.captured))

/-! ## The link -/

/-- A response row is a frame the link delivers (log 5), laid out as 30_encoding.md R65 or R66 says: the link holds
it behind the answers it has, and nothing else changes. It completes while the session lasts. -/
def Obligations.ResponseRowsAreDelivered : Prop :=
  ∀ s : State, s.session = .active →
    (∀ (fc : Byte) (payload : Bytes), payload.length ≤ 255 →
      ∃ (n lo hi : Byte), n.toNat = payload.length ∧
        (crc16 ([0xFE, fc, n] ++ payload)).toNat = 256 * hi.toNat + lo.toNat ∧
        exec (.rresp fc payload) s = .next { s with link := s.link ++ [[0xFE, fc, n] ++ payload ++ [lo, hi]] }) ∧
    ∀ addr val : U16, exec (.wresp addr val) s = .next { s with link := s.link ++ [frameBytes (reqFrame 0x06 addr val)] }

/-- A delivered read response that has the asked number of registers is captured and accepted by the next read,
whichever read code either has (30_encoding.md R65, 42_response_validator.md R148, R155; logs 5 and 8). -/
def Obligations.DeliveredResponseIsAccepted : Prop :=
  ∀ (s : State) (fc fc' : Byte) (addr count : U16) (payload : Bytes), s.Ready → s.par.wf → s.link = [] →
    (fc = 0x03 ∨ fc = 0x04) → (fc' = 0x03 ∨ fc' = 0x04) → 1 ≤ count.toNat → count.toNat ≤ maxCount s.par →
    payload.length = 2 * count.toNat →
      ∃ u t : State, exec (.rresp fc' payload) s = .next u ∧ exec (.transact fc addr count) u = .next t ∧
        t.res = some (.ok (rrespBytes fc' payload)) ∧ t.captured = rrespBytes fc' payload

/-- 43_capture.md R171: the oracle's answer has at most `max` bytes, and every answer of at most `max` bytes, the
empty one among them, is one that some link gives (log 8). -/
def Obligations.CaptureAnswersAreAllChunksUpToMax : Prop :=
  (∀ (s : State) (max : Nat), (s.captureAnswer max).length ≤ max) ∧
    ∀ (s : State) (max : Nat) (c : Bytes), c.length ≤ max →
      ({ s with link := c :: s.link } : State).captureAnswer max = c

/-- 43_capture.md R177, for the arrivals the link holds: an arrival longer than CAP is split by CAPTURE into the chunk it
stores, some of its bytes in their order, at least one and at most CAP, and the others, which stay with the link in
their order, alone or in front of the arrival after it (which bytes and which of the two is open: free values, log 8).
An arrival of at most CAP bytes is taken whole. -/
def Obligations.LongArrivalLeavesItsRestOnTheLink : Prop :=
  ∀ (s t : State) (c : Bytes) (cs : List Bytes), s.par.wf → s.rbuf.wf → s.link = c :: cs → exec .capture s = .next t →
    (c.length ≤ s.par.cap → t.captured = c ∧ t.link = cs) ∧
    (s.par.cap < c.length → ∃ rest : Bytes, (t.captured ++ rest).Perm c ∧ t.captured.Sublist c ∧ rest.Sublist c ∧
      1 ≤ t.captured.length ∧ t.captured.length ≤ s.par.cap ∧ rest ≠ [] ∧
      (t.link = rest :: cs ∨ ∃ d ds, cs = d :: ds ∧ t.link = (rest ++ d) :: ds))

/-! ## The transaction -/

/-- 44_transaction.md R190: TRANSACT completes in every ready state, with the state it leaves. Where T1 refuses the
request, only `res` and the returned value change (R191, R192); otherwise the request is sent, one answer is
captured, and the validator's verdict on it is the outcome (R195). -/
def Obligations.TransactRunsOneCycle : Prop :=
  ∀ (s : State) (fc : Byte) (addr val : U16), s.Ready →
    (((fc = 0x03 ∨ fc = 0x04) ∧ (val = 0 ∨ maxCount s.par < val.toNat)) ∨ (fc ≠ 0x03 ∧ fc ≠ 0x04 ∧ fc ≠ 0x06) →
      exec (.transact fc addr val) s = .next { s with
        res := some (.fail .invalidArgument)
        ret := some ⟨.fail .invalidArgument, .bytes []⟩ }) ∧
    (((fc = 0x03 ∨ fc = 0x04) ∧ val ≠ 0 ∧ val.toNat ≤ maxCount s.par) ∨ fc = 0x06 →
      ∃ (f : Frame8) (o : Result) (t : State), buildRequest fc addr val = .ok f ∧
        validateResponse f (s.captureAnswer s.par.cap) = some o ∧
        exec (.transact fc addr val) s = .next t ∧
        t = s.afterCycle f (s.captureAnswer s.par.cap) o ∧
        t.captured = s.captureAnswer s.par.cap ∧
        ∀ a, t.rlen ≤ a → Memory.read t.rbuf a = 0x00)

/-- 44_transaction.md R193: whatever its outcome, a transaction that gets past T1 performs exactly one LinkWrite, of
its request, and then exactly one LinkCapture. -/
def Obligations.OneWriteThenOneCapture : Prop :=
  ∀ (s : State) (fc : Byte) (addr val : U16) (f : Frame8), s.Ready →
    buildRequest fc addr val = .ok f → ¬ ((fc = 0x03 ∨ fc = 0x04) ∧ maxCount s.par < val.toNat) →
      ∃ (t : State) (es : List Event) (c : Bytes), exec (.transact fc addr val) s = .next t ∧ t.obs = s.obs ++ es ∧
        es.filter Event.onLink = [.linkWrite (frameBytes f), .linkCapture c]

/-- 44_transaction.md R196: a write transaction completes in every ready state, and succeeds exactly when the
capture is the echo of the request, its value being that echo. -/
def Obligations.WriteSucceedsExactlyOnItsEcho : Prop :=
  ∀ (s : State) (addr value : U16), s.Ready →
    ∃ t, exec (.transact 0x06 addr value) s = .next t ∧
      (∀ x, t.res = some (.ok x) ↔
        s.captureAnswer s.par.cap = frameBytes (reqFrame 0x06 addr value) ∧ x = frameBytes (reqFrame 0x06 addr value)) ∧
      t.txf = some (reqFrame 0x06 addr value)

/-- 43_capture.md R170: SEND, where T1 is done and has built `f`, puts `f` in `txf` and writes it to the link; nothing
else but the step register and T1's frame changes. -/
def Obligations.SendTransmitsTheBuiltRequest : Prop :=
  ∀ (s : State) (f : Frame8), s.session = .active → s.ph = .t1 → s.built = some f →
    exec .send s = .next { s with
      ph := .t2
      built := none
      txf := some f
      obs := s.obs ++ [.linkWrite (frameBytes f), .trace (.bytesSent (frameBytes f))] }

/-- 43_capture.md R174: CLEAR, where T2 is done, makes every byte of the buffer 0x00 and no byte valid; nothing else
but the step register changes. -/
def Obligations.ClearZeroesTheBuffer : Prop :=
  ∀ s : State, s.session = .active → s.ph = .t2 →
    ∃ m : Memory, exec .clear s = .next { s with ph := .t3, rbuf := m, rlen := 0 } ∧ m.wf ∧
      ∀ a, Memory.read m a = 0x00

/-- 43_capture.md R172: CAPTURE, where T3 is done, stores the oracle's answer from offset 0 and its length; every
other byte reads as before, and nothing else but the step register, the history and what the link holds changes. -/
def Obligations.CaptureStoresTheAnswer : Prop :=
  ∀ s : State, s.session = .active → s.ph = .t3 → s.rbuf.wf →
    ∃ m : Memory,
      exec .capture s = .next { s with
        ph := .t4
        rbuf := m
        rlen := (s.captureAnswer s.par.cap).length
        link := s.linkRest s.par.cap
        draws := s.draws + 1
        obs := s.obs ++ [.linkCapture (s.captureAnswer s.par.cap), .trace (.bytesReceived (s.captureAnswer s.par.cap))] } ∧
      m.wf ∧
      (∀ a, a < (s.captureAnswer s.par.cap).length → Memory.read m a = (s.captureAnswer s.par.cap).getD a 0) ∧
      ∀ a, (s.captureAnswer s.par.cap).length ≤ a → Memory.read m a = Memory.read s.rbuf a

/-- 43_capture.md R176: SEND, CLEAR and CAPTURE run only as steps T2, T3 and T4 of a transaction, in that order; named
anywhere else they are refused. -/
def Obligations.TransactionStepsAreRefusedElsewhere : Prop :=
  ∀ s : State, s.session = .active →
    (¬ (s.ph = .t1 ∧ s.built.isSome = true) → exec .send s = .refused .stepOutsideTransaction) ∧
    (s.ph ≠ .t2 → exec .clear s = .refused .stepOutsideTransaction) ∧
    (s.ph ≠ .t3 → exec .capture s = .refused .stepOutsideTransaction)

/-- 30_encoding.md R77: READ_HR, READ_IR and WRITE_HR complete in every ready state, as the TRANSACT each expands to. -/
def Obligations.PseudoOperationsAreTransactions : Prop :=
  ∀ (s : State) (addr v : U16), s.Ready →
    ∀ row ∈ [(Instr.readHr addr v, (0x03 : Byte)), (Instr.readIr addr v, 0x04), (Instr.writeHr addr v, 0x06)],
      ∃ t, exec row.1 s = .next t ∧ exec (.transact row.2 addr v) s = .next t

/-! ## Rules over all instructions -/

/-- 60_exceptions.md R265: a host operation begun while a transaction is in progress is refused. -/
def Obligations.OverlappingCallIsRefused : Prop :=
  ∀ (i : Instr) (s : State), i.IsHostOp → s.session = .active → s.ph ≠ .idle → exec i s = .refused .overlappingCall

/-- 10_state.md R36: after the session every use of the block is refused. -/
def Obligations.NothingRunsAfterTheSession : Prop :=
  ∀ (i : Instr) (s : State), s.session = .ended → exec i s = .refused .sessionEnded

/-- Only a transaction and its steps write the block's registers (10_state.md R23 to R26, R28): a pure operation
leaves them, the link and the input alone and returns Ok or a failure; it records nothing but a built request.
Only VALIDATE changes a verdict, that on its own response (log 16). A delivered response changes only the link (log 5). -/
def Obligations.PureOperationsLeaveTheRegisters : Prop :=
  ∀ (i : Instr) (s t : State), exec i s = .next t →
    (i.cls = .pure → s.SameRegisters t ∧ t.link = s.link ∧ t.draws = s.draws ∧ t.inputs = s.inputs ∧ t.ret.isSome = true ∧
      (t.obs = s.obs ∨ ∃ f, t.obs = s.obs ++ [.trace (.requestBuilt f)]) ∧
      (t.verdicts = s.verdicts ∨
        ∃ f r, i = .validate f r ∧ ∀ x, x ≠ r → lastVerdict x t.verdicts = lastVerdict x s.verdicts)) ∧
    (i.cls = .linkDelivery → ∃ c, t = { s with link := s.link ++ [c] })

/-- 60_exceptions.md R254: a host operation that reports InvalidArgument has emitted no LinkWrite and no LinkCapture,
and `txf`, `rbuf` and `rlen` are unchanged (44_transaction.md R192). -/
def Obligations.InvalidArgumentNeverTouchesTheWire : Prop :=
  ∀ (i : Instr) (s t : State) (v : Value), i.IsHostOp → exec i s = .next t →
    t.ret = some ⟨.fail .invalidArgument, v⟩ →
      t.obs.filter Event.onLink = s.obs.filter Event.onLink ∧ t.txf = s.txf ∧ t.rbuf = s.rbuf ∧ t.rlen = s.rlen

/-- 10_state.md R29, R32: an outcome is cleared only by being replaced, so `res.valid` never becomes false; while it
is true, `res.kind` is one of the codes 0 to 6 and `res.value` is empty unless the code is 0; the codes of the
kinds are those of 60_exceptions.md R250 (the spec's choice, D6). -/
def Obligations.OutcomeRegisterStaysValid : Prop :=
  (∀ (i : Instr) (s t : State), exec i s = .next t → s.resValid = true → t.resValid = true) ∧
  (∀ s : State, s.resValid = true → s.resKind.toNat ≤ 6 ∧ (s.resKind ≠ 0 → s.resValue = [])) ∧
  Kind.ok.code = 0 ∧ FailKind.invalidArgument.code = 1 ∧ FailKind.timeout.code = 2 ∧
  FailKind.unexpectedLength.code = 3 ∧ FailKind.checksumMismatch.code = 4 ∧ FailKind.malformedResponse.code = 5 ∧
  FailKind.echoMismatch.code = 6

/-- 60_exceptions.md R262: the observation history changes nothing. With another history before it, an instruction,
and a step of the machine, answers the same state but for the history, to which it adds the same events. -/
def Obligations.HistoryNeverMatters : Prop :=
  ∀ (s : State) (h : List Event),
    (∀ (i : Instr) (t : State), exec i s = .next t →
      ∃ es, t.obs = s.obs ++ es ∧ exec i { s with obs := h } = .next { t with obs := h ++ es }) ∧
    ∀ t : State, step s = .next t →
      ∃ es, t.obs = s.obs ++ es ∧ step { s with obs := h } = .next { t with obs := h ++ es }

/-- 10_state.md R27: no rule reads the bytes at or above `rlen`. With other bytes there, an instruction, and a step of
the machine, the steps T5, T6 and T7 of a transaction in progress among them, answers the same state but for the bytes
at or above its `rlen`. -/
def Obligations.BytesAboveRlenNeverMatter : Prop :=
  ∀ (s : State) (m : Memory), s.rbuf.wf → m.wf → (∀ a, a < s.rlen → Memory.read m a = Memory.read s.rbuf a) →
    (∀ (i : Instr) (t : State), exec i s = .next t →
      ∃ m', exec i { s with rbuf := m } = .next { t with rbuf := m' } ∧
        ∀ a, a < t.rlen → Memory.read m' a = Memory.read t.rbuf a) ∧
    ∀ t : State, step s = .next t →
      ∃ m', step { s with rbuf := m } = .next { t with rbuf := m' } ∧
        ∀ a, a < t.rlen → Memory.read m' a = Memory.read t.rbuf a

/-! ## The register operations -/

/-- The gets of the 16-bit attributes (45_register_ops.md R211, R220, R230, R233, R234, R237, R238, R239, R242): each
completes in every ready state as the transaction it expands to, and returns the big-endian word at offsets 3 and
4 of the accepted response, or 0 beside the failure kind. -/
def Obligations.GetsOfUnsignedWords : Prop :=
  ∀ s : State, s.Ready →
    ∀ row ∈ [(Instr.getMeterStatus, (0x04 : Byte), s.par.regAddr.meter),
             (Instr.getOutputStatus, 0x04, s.par.regAddr.output),
             (Instr.getPwmOutput, 0x04, s.par.regAddr.pwm),
             (Instr.getMemoryMapVersion, 0x04, s.par.regAddr.mmapVer),
             (Instr.getAbcPeriod, 0x03, s.par.regAddr.abc),
             (Instr.getUserAck, 0x03, s.par.regAddr.ack),
             (Instr.getUserConcentration, 0x03, s.par.regAddr.conc)],
      ∃ u t : State, exec (.transact row.2.1 row.2.2 1) s = .next u ∧ exec row.1 s = .next t ∧
        (∀ k, u.res = some (.fail k) → t = { u with ret := some ⟨.fail k, .u16 0⟩ }) ∧
        ∀ r, u.res = some (.ok r) → ∃ v : U16, t = { u with ret := some ⟨.ok, .u16 v⟩ } ∧
          v.toNat = 256 * (r.getD 3 0).toNat + (r.getD 4 0).toNat

/-- The gets of the 32-bit attributes (R221, R240, R241): two registers, the first the more significant. -/
def Obligations.GetsOfDoubleWords : Prop :=
  ∀ s : State, s.Ready →
    ∀ row ∈ [(Instr.getSensorTypeId, s.par.regAddr.typeId), (Instr.getSensorId, s.par.regAddr.sensId)],
      ∃ u t : State, exec (.transact 0x04 row.2 2) s = .next u ∧ exec row.1 s = .next t ∧
        (∀ k, u.res = some (.fail k) → t = { u with ret := some ⟨.fail k, .u32 0⟩ }) ∧
        ∀ r, u.res = some (.ok r) → ∃ v : U32, t = { u with ret := some ⟨.ok, .u32 v⟩ } ∧
          v.toNat = 65536 * (256 * (r.getD 3 0).toNat + (r.getD 4 0).toNat)
            + (256 * (r.getD 5 0).toNat + (r.getD 6 0).toNat)

/-- GET_CO2 (R222, R228): the word `u` of the accepted response read as two's complement, `u` below 0x8000 and
`u - 65536` from there on. -/
def Obligations.GetCo2IsSigned : Prop :=
  ∀ s : State, s.Ready →
    ∃ u t : State, exec (.transact 0x04 s.par.regAddr.co2 1) s = .next u ∧ exec .getCo2 s = .next t ∧
      (∀ k, u.res = some (.fail k) → t = { u with ret := some ⟨.fail k, .int 0⟩ }) ∧
      ∀ r, u.res = some (.ok r) → ∃ n : Nat, n = 256 * (r.getD 3 0).toNat + (r.getD 4 0).toNat ∧
        t = { u with ret := some ⟨.ok, .int (if n < 0x8000 then (n : Int) else (n : Int) - 65536)⟩ }

/-- GET_TEMPERATURE (R223, R229): it completes in every ready state as the transaction whose request is
FE 04 00 04 00 01 64 04; the value is `raw / 100 - 100`, the division on naturals, and lies from -100 to 555; a failure
is one of the four kinds of a read, with the value 0. -/
def Obligations.GetTemperatureScalesTheRawWord : Prop :=
  (∀ s : State, s.Ready →
    ∃ u t : State, exec (.transact 0x04 0x0004 1) s = .next u ∧ exec .getTemperature s = .next t ∧
      (∀ k, u.res = some (.fail k) → t = { u with ret := some ⟨.fail k, .int 0⟩ } ∧
        (s.par.wf → k = .timeout ∨ k = .unexpectedLength ∨ k = .checksumMismatch ∨ k = .malformedResponse)) ∧
      ∀ r, u.res = some (.ok r) → ∃ n : Nat, n = (256 * (r.getD 3 0).toNat + (r.getD 4 0).toNat) / 100 ∧
        t = { u with ret := some ⟨.ok, .int ((n : Int) - 100)⟩ } ∧ -100 ≤ (n : Int) - 100 ∧ (n : Int) - 100 ≤ 555) ∧
    buildRequest 0x04 0x0004 1 = .ok ⟨0xFE, 0x04, 0x00, 0x04, 0x00, 0x01, 0x64, 0x04⟩

/-- GET_SOFTWARE_VERSION (R224, R227): "major.minor" of the bytes at offsets 3 and 4, each in decimal without leading
zeros, or the empty string beside the failure kind. -/
def Obligations.GetSoftwareVersionIsMajorDotMinor : Prop :=
  ∀ s : State, s.Ready →
    ∃ u t : State, exec (.transact 0x04 s.par.regAddr.fwVer 1) s = .next u ∧ exec .getSoftwareVersion s = .next t ∧
      (∀ k, u.res = some (.fail k) → t = { u with ret := some ⟨.fail k, .text []⟩ }) ∧
      ∀ r, u.res = some (.ok r) → ∃ major minor : Bytes,
        t = { u with ret := some ⟨.ok, .text (major ++ [0x2E] ++ minor)⟩ } ∧
        readNumber major = some (r.getD 3 0).toNat ∧ readNumber minor = some (r.getD 4 0).toNat ∧
        (major.head? = some 0x30 → major.length = 1) ∧ (minor.head? = some 0x30 → minor.length = 1)

/-- GET_SERIAL_NUMBER (R225, R226): the bytes at offsets 3 to 12 of the accepted 15-byte response up to the first 0x00,
or all ten, or the empty string beside the failure kind. -/
def Obligations.GetSerialNumberStopsAtNul : Prop :=
  ∀ s : State, s.Ready →
    ∃ u t : State, exec (.transact 0x04 s.par.regAddr.serial 5) s = .next u ∧ exec .getSerialNumber s = .next t ∧
      (∀ k, u.res = some (.fail k) → t = { u with ret := some ⟨.fail k, .text []⟩ }) ∧
      ∀ r, u.res = some (.ok r) → ∃ m, m ≤ 10 ∧ r.length = 15 ∧
        t = { u with ret := some ⟨.ok, .text ((r.drop 3).take m)⟩ } ∧
        (∀ j, j < m → r.getD (3 + j) 0 ≠ 0x00) ∧ (m < 10 → r.getD (3 + m) 0 = 0x00)

/-- SET_ABC_PERIOD (R231): 0 and 4 to 4800 run the write transaction and return its kind, which is Ok, Timeout,
UnexpectedLength or EchoMismatch; every other value is rejected with InvalidArgument, nothing but the returned value
changing. -/
def Obligations.SetAbcPeriodChecksItsRange : Prop :=
  ∀ (s : State) (v : U16), s.Ready →
    (v.toNat = 0 ∨ (4 ≤ v.toNat ∧ v.toNat ≤ 4800) →
      ∃ (u : State) (o : Result), exec (.transact 0x06 s.par.regAddr.abc v) s = .next u ∧ u.res = some o ∧
        exec (.setAbcPeriod v) s = .next { u with ret := some ⟨o.kind, .unit⟩ } ∧
        ∀ k, o = .fail k → k = .timeout ∨ k = .unexpectedLength ∨ k = .echoMismatch) ∧
    (¬ (v.toNat = 0 ∨ (4 ≤ v.toNat ∧ v.toNat ≤ 4800)) →
      exec (.setAbcPeriod v) s = .next { s with ret := some ⟨.fail .invalidArgument, .unit⟩ })

/-- SET_USER_CONCENTRATION (R232): 400 to 2000 run the write transaction and return its kind, which is Ok, Timeout,
UnexpectedLength or EchoMismatch; every other value is rejected with InvalidArgument, nothing but the returned value
changing. -/
def Obligations.SetUserConcentrationChecksItsRange : Prop :=
  ∀ (s : State) (v : U16), s.Ready →
    (400 ≤ v.toNat ∧ v.toNat ≤ 2000 →
      ∃ (u : State) (o : Result), exec (.transact 0x06 s.par.regAddr.conc v) s = .next u ∧ u.res = some o ∧
        exec (.setUserConcentration v) s = .next { u with ret := some ⟨o.kind, .unit⟩ } ∧
        ∀ k, o = .fail k → k = .timeout ∨ k = .unexpectedLength ∨ k = .echoMismatch) ∧
    (¬ (400 ≤ v.toNat ∧ v.toNat ≤ 2000) →
      exec (.setUserConcentration v) s = .next { s with ret := some ⟨.fail .invalidArgument, .unit⟩ })

/-- SET_USER_ACK and SET_SPECIAL_COMMAND (R235, R236): any value is sent, in the request
`CRC_APPEND [FE 06 a_hi a_lo v_hi v_lo]`, and the outcome kind is returned, which is Ok, Timeout, UnexpectedLength or
EchoMismatch. -/
def Obligations.SetsWithoutRangeForwardAnyValue : Prop :=
  ∀ (s : State) (v : U16), s.Ready →
    ∀ row ∈ [(Instr.setUserAck v, s.par.regAddr.ack), (Instr.setSpecialCommand v, s.par.regAddr.special)],
      ∃ (u : State) (o : Result) (f : Frame8), exec (.transact 0x06 row.2 v) s = .next u ∧ u.res = some o ∧
        exec row.1 s = .next { u with ret := some ⟨o.kind, .unit⟩ } ∧
        (∀ k, o = .fail k → k = .timeout ∨ k = .unexpectedLength ∨ k = .echoMismatch) ∧
        u.txf = some f ∧
        frameBytes f = crcAppend [0xFE, 0x06, hiByte row.2, loByte row.2, hiByte v, loByte v]

/-- 44_transaction.md R191: every read that the register operations issue passes the count limit, so with a legal CAP
no get reports InvalidArgument, and no get reports EchoMismatch (45_register_ops.md R226). -/
def Obligations.GetsAreNeverRejectedLocally : Prop :=
  ∀ (s t : State) (k : Kind) (v : Value), s.par.wf →
    ∀ i ∈ [Instr.getSerialNumber, .getSoftwareVersion, .getCo2, .getTemperature, .getAbcPeriod, .getUserConcentration,
           .getUserAck, .getMeterStatus, .getOutputStatus, .getPwmOutput, .getSensorTypeId, .getSensorId,
           .getMemoryMapVersion],
      exec i s = .next t → t.ret = some ⟨k, v⟩ → k ≠ .fail .invalidArgument ∧ k ≠ .fail .echoMismatch

/-! ## Direct use of the pure operations -/

/-- 70_reset_and_hazards.md R283: an extraction that the host issues directly uses only its own operands: in any two
ready states that hold no verdict on its response, as every state does in which none was asked for, it answers the
same value, and changes nothing else, or the same refusal. VALIDATE always does. So from reset, whatever the
parameters, the examples of 42_response_validator.md R150, R151 and R152 run. That VALIDATE's own verdict counts for a
later extraction (R153, R293) is the model's reading, log 16. -/
def Obligations.DirectUseDependsOnItsOperandsOnly : Prop :=
  (∀ (s t : State) (r : Bytes) (off k : Nat), s.Ready → t.Ready →
    lastVerdict r s.verdicts = none → lastVerdict r t.verdicts = none →
      ∀ i ∈ [Instr.extractU16 r off, .extractU32 r off, .extractBytes r off k],
        (∃ x, exec i s = .next { s with ret := some x } ∧ exec i t = .next { t with ret := some x }) ∨
          ∃ e, exec i s = .refused e ∧ exec i t = .refused e) ∧
  (∀ (s t : State) (f : Frame8) (r : Bytes), s.Ready → t.Ready →
    (∃ s' t', exec (.validate f r) s = .next s' ∧ exec (.validate f r) t = .next t' ∧ s'.ret = t'.ret) ∨
      ∃ e, exec (.validate f r) s = .refused e ∧ exec (.validate f r) t = .refused e) ∧
  ∀ p : Params,
    exec (.extractU16 [0xFE, 0x04, 0x02, 0x30, 0xD4, 0xB9, 0x7B] 3) (State.resetWith p) =
      .next { State.resetWith p with ret := some ⟨.ok, .u16 0x30D4⟩ } ∧
    exec (.extractU32 [0xFE, 0x04, 0x04, 0x00, 0x01, 0xE2, 0x40, 0xEC, 0x1B] 3) (State.resetWith p) =
      .next { State.resetWith p with ret := some ⟨.ok, .u32 0x0001E240⟩ } ∧
    exec (.extractBytes
        [0xFE, 0x04, 0x0A, 0x41, 0x42, 0x43, 0x31, 0x32, 0x00, 0x00, 0x00, 0x00, 0x00, 0x9E, 0xC5] 3 10)
        (State.resetWith p) =
      .next { State.resetWith p with
        ret := some ⟨.ok, .bytes [0x41, 0x42, 0x43, 0x31, 0x32, 0x00, 0x00, 0x00, 0x00, 0x00]⟩ }
end

