-- ==== Sys2Proof/Laws/Bits.lean ====
section
/-! SUPPORT. Bytes and words: assembling the two bytes of a word gives it back, and the converse. -/

namespace Sys2Proof.Machine

@[simp] theorem be16_hi_lo (v : U16) : be16 (hiByte v) (loByte v) = v := by
  ext i hi
  simp only [be16, hiByte, loByte, BitVec.getElem_or, BitVec.getElem_shiftLeft, BitVec.getElem_setWidth,
    BitVec.getLsbD_setWidth, BitVec.getLsbD_ushiftRight]
  by_cases h : i < 8
  · simp [h, BitVec.getLsbD_eq_getElem, hi]
  · have h1 : i - 8 < 8 := by omega
    have h2 : 8 + (i - 8) = i := by omega
    simp [h, h1, h2, BitVec.getLsbD_eq_getElem, hi]

@[simp] theorem hiByte_be16 (h l : Byte) : hiByte (be16 h l) = h := by
  ext i hi
  have h8 : ¬ (8 + i < 8) := by omega
  have h16 : 8 + i < 16 := by omega
  simp [be16, hiByte, h16, BitVec.getLsbD_eq_getElem, hi]

@[simp] theorem loByte_be16 (h l : Byte) : loByte (be16 h l) = l := by
  ext i hi
  simp [be16, loByte]

theorem be16_inj {h l h' l' : Byte} (e : be16 h l = be16 h' l') : h = h' ∧ l = l' :=
  ⟨by rw [← hiByte_be16 h l, e, hiByte_be16], by rw [← loByte_be16 h l, e, loByte_be16]⟩

/-- The number of a big-endian word. -/
theorem be16_toNat (h l : Byte) : (be16 h l).toNat = 256 * h.toNat + l.toNat := by
  have hh := h.isLt
  have hl := l.isLt
  simp only [be16, BitVec.toNat_or, BitVec.toNat_shiftLeft, BitVec.toNat_setWidth]
  rw [Nat.mod_eq_of_lt (a := h.toNat) (by omega), Nat.mod_eq_of_lt (a := l.toNat) (by omega),
    Nat.mod_eq_of_lt (a := h.toNat <<< 8) (by rw [Nat.shiftLeft_eq]; omega),
    ← Nat.shiftLeft_add_eq_or_of_lt (by omega), Nat.shiftLeft_eq]
  omega

/-- The number of a big-endian double word (20_memory.md R43). -/
theorem be32_toNat (b0 b1 b2 b3 : Byte) :
    (be32 b0 b1 b2 b3).toNat = 16777216 * b0.toNat + 65536 * b1.toNat + 256 * b2.toNat + b3.toNat := by
  have h0 := b0.isLt
  have h1 := b1.isLt
  have h2 := b2.isLt
  have h3 := b3.isLt
  have e : ∀ (b : Byte) (k : Nat), k ≤ 24 → (b.setWidth 32 <<< k).toNat = b.toNat <<< k := by
    intro b k hk
    have hb := b.isLt
    rw [BitVec.toNat_shiftLeft, BitVec.toNat_setWidth, Nat.mod_eq_of_lt (a := b.toNat) (by omega), Nat.mod_eq_of_lt]
    rw [Nat.shiftLeft_eq]
    calc b.toNat * 2 ^ k ≤ b.toNat * 2 ^ 24 := Nat.mul_le_mul_left _ (Nat.pow_le_pow_right (by omega) hk)
      _ < 2 ^ 32 := by omega
  simp only [be32, BitVec.toNat_or, e _ 24 (by omega), e _ 16 (by omega), e _ 8 (by omega), BitVec.toNat_setWidth]
  rw [Nat.mod_eq_of_lt (by omega)]
  have a1 : b0.toNat <<< 24 ||| b1.toNat <<< 16 = (b0.toNat <<< 8 + b1.toNat) <<< 16 := by
    rw [Nat.shiftLeft_add_eq_or_of_lt (by omega), Nat.shiftLeft_or_distrib, ← Nat.shiftLeft_add]
  have a2 : ∀ x y : Nat, x <<< 16 ||| y <<< 8 = (x <<< 8 ||| y) <<< 8 := by
    intro x y; rw [Nat.shiftLeft_or_distrib, ← Nat.shiftLeft_add]
  rw [a1, a2, ← Nat.shiftLeft_add_eq_or_of_lt (i := 8) (b := b2.toNat) (by omega),
    ← Nat.shiftLeft_add_eq_or_of_lt (by omega)]
  simp only [Nat.shiftLeft_eq]
  omega

@[simp] theorem frameOfBytes_frameBytes (f : Frame8) : frameOfBytes (frameBytes f) = some f := rfl

@[simp] theorem frameBytes_length (f : Frame8) : (frameBytes f).length = 8 := rfl

theorem frameOfBytes_eq_some {bs : Bytes} {f : Frame8} : frameOfBytes bs = some f ↔ bs = frameBytes f := by
  constructor
  · intro h
    unfold frameOfBytes at h
    split at h
    · cases h; rfl
    · cases h
  · rintro rfl; rfl

theorem frameBytes_inj {f g : Frame8} (h : frameBytes f = frameBytes g) : f = g := by
  have := congrArg frameOfBytes h
  simpa using this

theorem frameOfBytes_isSome (bs : Bytes) : (frameOfBytes bs).isSome = decide (bs.length = 8) := by
  rcases bs with _ | ⟨_, _ | ⟨_, _ | ⟨_, _ | ⟨_, _ | ⟨_, _ | ⟨_, _ | ⟨_, _ | ⟨_, _ | ⟨_, _⟩⟩⟩⟩⟩⟩⟩⟩⟩ <;>
    simp [frameOfBytes]

@[simp] theorem asU8_toNat (b : Byte) : asU8 b.toNat = some b := by
  simp [asU8, b.isLt]

@[simp] theorem asU16_toNat (v : U16) : asU16 v.toNat = some v := by
  simp [asU16, v.isLt]

theorem isReadCode_iff (fc : Byte) : isReadCode fc = true ↔ fc = 0x03 ∨ fc = 0x04 := by
  simp [isReadCode, Config.fcReadHr, Config.fcReadIr]

theorem isFunctionCode_iff (fc : Byte) : isFunctionCode fc = true ↔ fc = 0x03 ∨ fc = 0x04 ∨ fc = 0x06 := by
  simp [isFunctionCode, isReadCode, Config.fcReadHr, Config.fcReadIr, Config.fcWriteSr, or_assoc]

end Sys2Proof.Machine
end

