-- ==== Sys2Proof/Laws/Crc.lean ====
section
/-! SUPPORT. The CRC engine: one byte more, each step is one-to-one, and when a span followed by two bytes has residue 0. -/

namespace Sys2Proof.Machine

@[simp] theorem crc16_nil : crc16 [] = 0xFFFF := rfl

theorem crc16_append (s t : Bytes) : crc16 (s ++ t) = t.foldl crcByte (crc16 s) := by
  simp [crc16, List.foldl_append]

@[simp] theorem crcAppend_length (s : Bytes) : (crcAppend s).length = s.length + 2 := by simp [crcAppend]

@[simp] theorem frameBytes_reqFrame (fc : Byte) (addr val : U16) :
    frameBytes (reqFrame fc addr val) = crcAppend (reqBody fc addr val) := rfl

@[simp] theorem rrespBytes_length (fc : Byte) (payload : Bytes) :
    (rrespBytes fc payload).length = payload.length + 5 := by simp [rrespBytes]

/-- Bit 15 after a step is bit 0 before it: the shift clears it and the polynomial sets it (40_crc16.md R101). -/
theorem crcBit_top (c : U16) : (crcBit c).getLsbD 15 = c.getLsbD 0 := by
  unfold crcBit
  split
  · rename_i h
    simp only [BitVec.getLsbD_xor, BitVec.getLsbD_ushiftRight, BitVec.getLsbD_of_ge c (1 + 15) (by omega), h]
    decide
  · rename_i h
    simp only [BitVec.getLsbD_ushiftRight, BitVec.getLsbD_of_ge c (1 + 15) (by omega)]
    simpa using h

theorem ushiftRight_one_inj {c d : U16} (h0 : c.getLsbD 0 = d.getLsbD 0) (h : c >>> 1 = d >>> 1) : c = d := by
  refine BitVec.eq_of_getLsbD_eq fun i hi => ?_
  cases i with
  | zero => exact h0
  | succ i =>
    have := congrArg (fun x : U16 => x.getLsbD i) h
    simpa [Nat.add_comm] using this

theorem crcBit_inj {c d : U16} (h : crcBit c = crcBit d) : c = d := by
  have h0 : c.getLsbD 0 = d.getLsbD 0 := by rw [← crcBit_top, ← crcBit_top, h]
  refine ushiftRight_one_inj h0 ?_
  unfold crcBit at h
  rw [← h0] at h
  split at h
  · have := congrArg (· ^^^ Config.crcPoly) h
    simpa [BitVec.xor_assoc] using this
  · exact h

theorem crcShift_inj (n : Nat) {c d : U16} (h : crcShift n c = crcShift n d) : c = d := by
  induction n generalizing c d with
  | zero => exact h
  | succ n ih => exact crcBit_inj (ih h)

theorem crcByte_inj_left {c d : U16} {b : Byte} (h : crcByte c b = crcByte d b) : c = d := by
  have := congrArg (· ^^^ b.setWidth 16) (crcShift_inj 8 h)
  simpa [BitVec.xor_assoc] using this

theorem setWidth_inj {a b : Byte} (h : a.setWidth 16 = b.setWidth 16) : a = b := by
  have := congrArg (BitVec.setWidth 8) h
  simpa using this

theorem crcByte_inj_right {c : U16} {a b : Byte} (h : crcByte c a = crcByte c b) : a = b := by
  have := congrArg (c ^^^ ·) (crcShift_inj 8 h)
  exact setWidth_inj (by simpa [← BitVec.xor_assoc] using this)

theorem foldl_crcByte_inj (s : Bytes) {c d : U16} (h : s.foldl crcByte c = s.foldl crcByte d) : c = d := by
  induction s generalizing c d with
  | nil => exact h
  | cons b s ih => exact crcByte_inj_left (ih h)

/-- Eight steps of a register whose low byte is 0 move the high byte down. -/
theorem crcShift_high : ∀ h : Byte, crcShift 8 (h.setWidth 16 <<< 8) = h.setWidth 16 := by decide +kernel

theorem crcShift_zero : crcShift 8 0 = 0 := by decide

theorem be16_eq_xor (h l : Byte) : be16 h l = (h.setWidth 16 <<< 8) ^^^ l.setWidth 16 := by
  refine BitVec.eq_of_getLsbD_eq fun i hi => ?_
  simp only [be16, BitVec.getLsbD_or, BitVec.getLsbD_xor, BitVec.getLsbD_shiftLeft, BitVec.getLsbD_setWidth]
  by_cases h8 : i < 8
  · simp [h8]
  · simp [h8, BitVec.getLsbD_of_ge l i (by omega)]

/-- Two more bytes bring the register to 0 exactly when they are its low byte, then its high byte. -/
theorem crcByte_crcByte_eq_zero (c : U16) (l h : Byte) :
    crcByte (crcByte c l) h = 0 ↔ l = loByte c ∧ h = hiByte c := by
  have key : crcByte (crcByte c l) h = 0 ↔ c = be16 h l := by
    constructor
    · intro e
      have e1 : crcByte c l ^^^ h.setWidth 16 = 0 := crcShift_inj 8 (e.trans crcShift_zero.symm)
      have e2 : crcByte c l = h.setWidth 16 := by
        have := congrArg (· ^^^ h.setWidth 16) e1
        simpa [BitVec.xor_assoc] using this
      have e3 : c ^^^ l.setWidth 16 = h.setWidth 16 <<< 8 := crcShift_inj 8 (e2.trans (crcShift_high h).symm)
      have := congrArg (· ^^^ l.setWidth 16) e3
      rw [be16_eq_xor]
      simpa [BitVec.xor_assoc] using this
    · rintro rfl
      have e : be16 h l ^^^ l.setWidth 16 = h.setWidth 16 <<< 8 := by
        rw [be16_eq_xor, BitVec.xor_assoc, BitVec.xor_self, BitVec.xor_zero]
      have e1 : crcByte (be16 h l) l = h.setWidth 16 := by unfold crcByte; rw [e, crcShift_high]
      unfold crcByte at e1 ⊢
      rw [e1, BitVec.xor_self]
      exact crcShift_zero
  rw [key]
  constructor
  · rintro rfl; simp
  · rintro ⟨rfl, rfl⟩; simp

/-- A span and two bytes have residue 0 exactly when the two are the span's checksum, low byte first. -/
theorem crc16_snoc_snoc_eq_zero (s : Bytes) (l h : Byte) :
    crc16 (s ++ [l, h]) = 0 ↔ l = loByte (crc16 s) ∧ h = hiByte (crc16 s) := by
  rw [crc16_append]
  exact crcByte_crcByte_eq_zero _ _ _

/-- A sequence of at least two bytes is its body and its trailing two bytes. -/
theorem take_trailing {r : Bytes} (h : 2 ≤ r.length) :
    r = r.take (r.length - 2) ++ [r.getD (r.length - 2) 0, r.getD (r.length - 1) 0] := by
  refine List.ext_getElem (by simp; omega) fun i h1 h2 => ?_
  by_cases hi : i < r.length - 2
  · rw [List.getElem_append_left (by simp; omega)]
    simp
  · rw [List.getElem_append_right (by simp; omega)]
    have : i = r.length - 2 ∨ i = r.length - 1 := by omega
    rcases this with rfl | rfl
    · simp [show r.length - 2 < r.length by omega]
    · have e : r.length - 1 - (r.length - 2) = 1 := by omega
      simp [e, show r.length - 1 < r.length by omega]

/-- The CRC comparison of the validator is the residue test (40_crc16.md R105). -/
theorem trailing_iff_residue {r : Bytes} (h : 2 ≤ r.length) :
    (r.getD (r.length - 2) 0 = loByte (crc16 (r.take (r.length - 2))) ∧
      r.getD (r.length - 1) 0 = hiByte (crc16 (r.take (r.length - 2)))) ↔ crc16 r = 0 := by
  conv_rhs => rw [take_trailing h]
  exact (crc16_snoc_snoc_eq_zero _ _ _).symm

/-- Residue 0 says that the frame is its body with its checksum appended. -/
theorem residue_iff_crcAppend {r : Bytes} (h : 2 ≤ r.length) :
    crc16 r = 0 ↔ r = crcAppend (r.take (r.length - 2)) := by
  rw [← trailing_iff_residue h]
  constructor
  · rintro ⟨h1, h2⟩
    conv_lhs => rw [take_trailing h, h1, h2]
    rfl
  · intro e
    have e2 := (take_trailing h).symm.trans e
    simpa [crcAppend] using e2

/-- One changed byte changes the checksum. -/
theorem crc16_set_ne {r : Bytes} {i : Nat} {b : Byte} (hi : i < r.length) (hb : r.getD i 0 ≠ b) :
    crc16 (r.set i b) ≠ crc16 r := by
  intro e
  rw [List.set_eq_take_append_cons_drop, if_pos hi] at e
  conv_rhs at e => rw [← List.take_append_drop i r, List.drop_eq_getElem_cons hi]
  rw [crc16_append, crc16_append, List.foldl_cons, List.foldl_cons] at e
  have := crcByte_inj_right (foldl_crcByte_inj _ e)
  apply hb
  simp [hi, this]

end Sys2Proof.Machine
end

