-- ==== Sys2Proof/Laws/Codec.lean ====
section
/-! SUPPORT. The codec: what the builder produces, which frames are built, the expected length, the shapes of a verdict. -/

namespace Sys2Proof.Machine

@[simp] theorem reqFrame_fc (fc : Byte) (addr val : U16) : (reqFrame fc addr val).fc = fc := rfl
@[simp] theorem reqFrame_dev (fc : Byte) (addr val : U16) : (reqFrame fc addr val).dev = Config.devAddr := rfl
@[simp] theorem frameAddr_reqFrame (fc : Byte) (addr val : U16) : frameAddr (reqFrame fc addr val) = addr :=
  be16_hi_lo addr
@[simp] theorem frameVal_reqFrame (fc : Byte) (addr val : U16) : frameVal (reqFrame fc addr val) = val :=
  be16_hi_lo val
@[simp] theorem frameCrc_reqFrame (fc : Byte) (addr val : U16) :
    frameCrc (reqFrame fc addr val) = crc16 (reqBody fc addr val) := be16_hi_lo _

/-- What the builder accepts (41_request_builder.md R121). -/
abbrev Buildable (fc : Byte) (val : U16) : Prop := isFunctionCode fc = true ∧ ¬ (isReadCode fc = true ∧ val = 0)

theorem buildRequest_of_buildable {fc : Byte} {val : U16} (h : Buildable fc val) (addr : U16) :
    buildRequest fc addr val = .ok (reqFrame fc addr val) := by
  unfold buildRequest
  rw [if_neg (by simp [h.1]), if_neg h.2]

theorem buildRequest_of_not {fc : Byte} {val : U16} (h : ¬ Buildable fc val) (addr : U16) :
    buildRequest fc addr val = .error .invalidArgument := by
  unfold buildRequest
  by_cases h1 : isFunctionCode fc = true
  · rw [if_neg (by simp [h1]), if_pos (by by_contra h2; exact h ⟨h1, h2⟩)]
  · rw [if_pos h1]

theorem buildRequest_ok {fc : Byte} {addr val : U16} {f : Frame8} :
    buildRequest fc addr val = .ok f ↔ Buildable fc val ∧ f = reqFrame fc addr val := by
  by_cases h : Buildable fc val
  · rw [buildRequest_of_buildable h]
    constructor
    · intro e; cases e; exact ⟨h, rfl⟩
    · rintro ⟨_, rfl⟩; rfl
  · rw [buildRequest_of_not h]
    constructor
    · intro e; cases e
    · rintro ⟨h', _⟩; exact absurd h' h

theorem isBuilt_iff (f : Frame8) :
    isBuilt f = true ↔ Buildable f.fc (frameVal f) ∧ f = reqFrame f.fc (frameAddr f) (frameVal f) := by
  unfold isBuilt
  by_cases h : Buildable f.fc (frameVal f)
  · rw [buildRequest_of_buildable h]
    simp only [beq_iff_eq]
    exact ⟨fun e => ⟨h, e.symm⟩, fun e => e.2.symm⟩
  · rw [buildRequest_of_not h]
    simp [h]

/-- A frame is built exactly when the builder gives it for some operands. -/
theorem isBuilt_iff_exists (f : Frame8) :
    isBuilt f = true ↔ ∃ fc addr val, buildRequest fc addr val = .ok f := by
  rw [isBuilt_iff]
  constructor
  · rintro ⟨h, e⟩
    exact ⟨_, _, _, buildRequest_ok.2 ⟨h, e⟩⟩
  · rintro ⟨fc, addr, val, e⟩
    obtain ⟨h, rfl⟩ := buildRequest_ok.1 e
    simpa using h

theorem isBuilt_reqFrame {fc : Byte} {val : U16} (h : Buildable fc val) (addr : U16) :
    isBuilt (reqFrame fc addr val) = true :=
  (isBuilt_iff_exists _).2 ⟨_, _, _, buildRequest_of_buildable h addr⟩

theorem isReadCode_writeSr : isReadCode Config.fcWriteSr = false := by decide

theorem expectedLength_of_read {f : Frame8} (h : isBuilt f = true) (hr : isReadCode f.fc = true) :
    expectedLength f = some (5 + 2 * (frameVal f).toNat) := by
  simp [expectedLength, h, hr]

theorem expectedLength_of_write {f : Frame8} (h : isBuilt f = true) (hw : f.fc = Config.fcWriteSr) :
    expectedLength f = some 8 := by
  simp [expectedLength, h, hw, isReadCode_writeSr]

theorem expectedLength_of_not {f : Frame8} (h : ¬ isBuilt f = true) : expectedLength f = none := by
  simp [expectedLength, h]

/-- A built request is a read or the write. -/
theorem built_cases {f : Frame8} (h : isBuilt f = true) :
    (isReadCode f.fc = true ∧ f.fc ≠ Config.fcWriteSr ∧ frameVal f ≠ 0) ∨
      (f.fc = Config.fcWriteSr ∧ isReadCode f.fc = false) := by
  obtain ⟨⟨hf, hz⟩, -⟩ := (isBuilt_iff f).1 h
  by_cases hr : isReadCode f.fc = true
  · refine .inl ⟨hr, ?_, fun hv => hz ⟨hr, hv⟩⟩
    intro hw
    rw [hw] at hr
    exact absurd hr (by decide)
  · refine .inr ⟨?_, by simpa using hr⟩
    simp only [isFunctionCode, Bool.or_eq_true, beq_iff_eq] at hf
    exact hf.resolve_left hr

theorem expectedLength_isSome (f : Frame8) : (expectedLength f).isSome = isBuilt f := by
  by_cases h : isBuilt f = true
  · rcases built_cases h with ⟨hr, -, -⟩ | ⟨hw, -⟩
    · rw [expectedLength_of_read h hr, h]; rfl
    · rw [expectedLength_of_write h hw, h]; rfl
  · rw [expectedLength_of_not h]
    simpa using h

theorem validateRead_ok {r x : Bytes} (h : validateRead r = .ok x) : x = r := by
  simp only [validateRead] at h
  split at h <;> [cases h; split at h <;> [cases h; split at h <;> [cases h; split at h <;> [cases h; (cases h; rfl)]]]]

theorem verdict_ok {f : Frame8} {E : Nat} {r x : Bytes} (h : verdict f E r = .ok x) :
    x = r ∧ r.length = E ∧ r ≠ [] := by
  unfold verdict at h
  split at h
  · cases h
  · rename_i h0
    split at h
    · cases h
    · rename_i hE
      refine ⟨?_, by simpa using hE, fun e => h0 (by simp [e])⟩
      split at h
      · unfold validateEcho at h
        split at h
        · cases h
        · cases h; rfl
      · exact validateRead_ok h

theorem validateResponse_of_expected {f : Frame8} {E : Nat} (h : expectedLength f = some E) (r : Bytes) :
    validateResponse f r = some (verdict f E r) := by
  simp [validateResponse, h]

theorem validateResponse_eq_some {f : Frame8} {r : Bytes} {o : Result} (h : validateResponse f r = some o) :
    ∃ E, expectedLength f = some E ∧ o = verdict f E r := by
  unfold validateResponse at h
  split at h
  · cases h
  · rename_i E hE
    cases h
    exact ⟨E, hE, rfl⟩

theorem validateResponse_ok {f : Frame8} {r x : Bytes} (h : validateResponse f r = some (.ok x)) : x = r := by
  obtain ⟨E, -, e⟩ := validateResponse_eq_some h
  exact (verdict_ok e.symm).1

theorem validateResponse_isSome (f : Frame8) (r : Bytes) : (validateResponse f r).isSome = isBuilt f := by
  rw [← expectedLength_isSome]
  unfold validateResponse
  split <;> simp_all

/-- The fields the read path checks, after the CRC (42_response_validator.md R146). -/
abbrev ReadFieldsOk (r : Bytes) : Prop :=
  r.getD 0 0 = Config.devAddr ∧ isReadCode (r.getD 1 0) = true ∧ (r.getD 2 0).toNat = r.length - 5

/-- The read path, its CRC comparison as the residue test. -/
theorem validateRead_eq {r : Bytes} (h : 2 ≤ r.length) :
    validateRead r =
      if crc16 r ≠ 0 then .fail .checksumMismatch
      else if ReadFieldsOk r then .ok r else .fail .malformedResponse := by
  have key := trailing_iff_residue h
  unfold validateRead
  by_cases hc : crc16 r = 0
  · have ht := key.2 hc
    have h' : ¬ (r.getD (r.length - 2) 0 ≠ loByte (crc16 (r.take (r.length - 2))) ∨
        r.getD (r.length - 1) 0 ≠ hiByte (crc16 (r.take (r.length - 2)))) := by
      rintro (hn | hn)
      · exact hn ht.1
      · exact hn ht.2
    simp only [if_neg h', if_neg (not_not.2 hc)]
    by_cases h0 : r.getD 0 0 = Config.devAddr
    · by_cases h1 : isReadCode (r.getD 1 0) = true
      · by_cases h2 : (r.getD 2 0).toNat = r.length - 5
        · rw [if_neg (not_not.2 h0), if_neg (not_not.2 h1), if_neg (not_not.2 h2), if_pos ⟨h0, h1, h2⟩]
        · rw [if_neg (not_not.2 h0), if_neg (not_not.2 h1), if_pos h2, if_neg fun hf => h2 hf.2.2]
      · rw [if_neg (not_not.2 h0), if_pos h1, if_neg fun hf => h1 hf.2.1]
    · rw [if_pos h0, if_neg fun hf => h0 hf.1]
  · have ht := mt key.1 hc
    have h' : r.getD (r.length - 2) 0 ≠ loByte (crc16 (r.take (r.length - 2))) ∨
        r.getD (r.length - 1) 0 ≠ hiByte (crc16 (r.take (r.length - 2))) := by
      by_contra hn
      simp only [not_or, not_not] at hn
      exact ht hn
    simp only [if_pos h', if_pos hc]

/-- The read path of `VALIDATE` as one case analysis (R143 to R146). -/
theorem validateResponse_read {f : Frame8} (hb : isBuilt f = true) (hr : isReadCode f.fc = true) (r : Bytes) :
    validateResponse f r = some (
      if r.length = 0 then .fail .timeout
      else if r.length ≠ 5 + 2 * (frameVal f).toNat then .fail .unexpectedLength
      else if crc16 r ≠ 0 then .fail .checksumMismatch
      else if ReadFieldsOk r then .ok r else .fail .malformedResponse) := by
  rw [validateResponse_of_expected (expectedLength_of_read hb hr), verdict]
  have hw : f.fc ≠ Config.fcWriteSr := by
    rcases built_cases hb with ⟨-, h, -⟩ | ⟨-, h⟩
    · exact h
    · rw [hr] at h; cases h
  by_cases h0 : r.length = 0
  · simp [h0]
  · by_cases hE : r.length ≠ 5 + 2 * (frameVal f).toNat
    · rw [if_neg h0, if_pos hE, if_neg h0, if_pos hE]
    · rw [if_neg h0, if_neg hE, if_neg hw, if_neg h0, if_neg hE, validateRead_eq (by omega)]

/-- The write path of `VALIDATE` (R143, R144, R147). -/
theorem validateResponse_write {f : Frame8} (hb : isBuilt f = true) (hw : f.fc = Config.fcWriteSr) (r : Bytes) :
    validateResponse f r = some (
      if r.length = 0 then .fail .timeout
      else if r.length ≠ 8 then .fail .unexpectedLength
      else if r ≠ frameBytes f then .fail .echoMismatch else .ok r) := by
  rw [validateResponse_of_expected (expectedLength_of_write hb hw), verdict]
  by_cases h0 : r.length = 0
  · simp [h0]
  · by_cases hE : r.length ≠ 8
    · rw [if_neg h0, if_pos hE, if_neg h0, if_pos hE]
    · rw [if_neg h0, if_neg hE, if_pos hw, if_neg h0, if_neg hE, validateEcho]

/-- Exactly the accepted read responses (R148). -/
theorem validateResponse_read_ok_iff {f : Frame8} (hb : isBuilt f = true) (hr : isReadCode f.fc = true) (r : Bytes) :
    validateResponse f r = some (.ok r) ↔
      r.length = 5 + 2 * (frameVal f).toNat ∧ crc16 r = 0 ∧ ReadFieldsOk r := by
  rw [validateResponse_read hb hr]
  constructor
  · intro h
    split at h
    · cases h
    · split at h
      · cases h
      · split at h
        · cases h
        · split at h
          · rename_i h1 h2 h3
            exact ⟨not_not.1 h1, not_not.1 h2, h3⟩
          · cases h
  · rintro ⟨h1, h2, h3⟩
    rw [if_neg (by omega), if_neg (not_not.2 h1), if_neg (not_not.2 h2), if_pos h3]

/-- Exactly the accepted write response (R148). -/
theorem validateResponse_write_ok_iff {f : Frame8} (hb : isBuilt f = true) (hw : f.fc = Config.fcWriteSr) (r : Bytes) :
    validateResponse f r = some (.ok r) ↔ r = frameBytes f := by
  rw [validateResponse_write hb hw]
  constructor
  · intro h
    split at h
    · cases h
    · split at h
      · cases h
      · split at h
        · cases h
        · rename_i h3; exact not_not.1 h3
  · rintro rfl
    simp

end Sys2Proof.Machine
end

