-- ==== Sys2Proof/Laws/Decode.lean ====
section
/-! SUPPORT. The notation of R76: what the tokens of a written line are, and that a written number or byte sequence is read back. -/

namespace Sys2Proof

/-- A word: none of its bytes is a mark of the notation. -/
abbrev PlainWord (w : Bytes) : Prop :=
  ∀ b ∈ w, b ≠ chComment ∧ b ≠ chBlank ∧ b ≠ chComma ∧ b ≠ chOpen ∧ b ≠ chClose

/-- The text `rest` ends the word before it, and its own tokens are `ts`. -/
abbrev EndsWord (rest : Bytes) (ts : List Token) : Prop := ∀ acc, tokensFrom rest acc = flushWord acc ts

theorem tokensFrom_plain {w : Bytes} (h : PlainWord w) (rest acc : Bytes) :
    tokensFrom (w ++ rest) acc = tokensFrom rest (acc ++ w) := by
  induction w generalizing acc with
  | nil => simp
  | cons b w ih =>
    obtain ⟨h1, h2, h3, h4, h5⟩ := h b (by simp)
    rw [List.cons_append, tokensFrom, if_neg h1, if_neg h2, if_neg h3, if_neg h4, if_neg h5,
      ih fun c hc => h c (by simp [hc])]
    simp

theorem endsWord_nil : EndsWord [] [] := fun _ => rfl

theorem endsWord_blank (rest : Bytes) : EndsWord (chBlank :: rest) (tokensFrom rest []) := by
  intro acc
  rw [tokensFrom, if_neg (by decide), if_pos rfl]

theorem endsWord_comma (rest : Bytes) : EndsWord (chComma :: rest) (.comma :: tokensFrom rest []) := by
  intro acc
  rw [tokensFrom, if_neg (by decide), if_neg (by decide), if_pos rfl]

theorem endsWord_open (rest : Bytes) : EndsWord (chOpen :: rest) (.lbrack :: tokensFrom rest []) := by
  intro acc
  rw [tokensFrom, if_neg (by decide), if_neg (by decide), if_neg (by decide), if_pos rfl]

theorem endsWord_close (rest : Bytes) : EndsWord (chClose :: rest) (.rbrack :: tokensFrom rest []) := by
  intro acc
  rw [tokensFrom, if_neg (by decide), if_neg (by decide), if_neg (by decide), if_neg (by decide), if_pos rfl]

/-- A word and what ends it. -/
theorem tokensFrom_word {w : Bytes} (h : PlainWord w) (hne : w ≠ []) {rest : Bytes} {ts : List Token}
    (hr : EndsWord rest ts) : tokensFrom (w ++ rest) [] = .word w :: ts := by
  rw [tokensFrom_plain h, hr]
  simp [flushWord, hne]

/-! ## Numbers -/

theorem hexChar_spec : ∀ n < 16, hexDigit (hexChar n) = some n ∧
    (hexChar n ≠ chComment ∧ hexChar n ≠ chBlank ∧ hexChar n ≠ chComma ∧ hexChar n ≠ chOpen ∧ hexChar n ≠ chClose) := by
  decide

theorem plain_hexOf (b : Byte) : PlainWord (hexOf b) := by
  have h := b.isLt
  intro c hc
  simp only [hexOf, List.mem_cons, List.not_mem_nil, or_false] at hc
  rcases hc with rfl | rfl
  · exact (hexChar_spec _ (by omega)).2
  · exact (hexChar_spec _ (by omega)).2

theorem hexOf_ne_nil (b : Byte) : hexOf b ≠ [] := by simp [hexOf]

@[simp] theorem hexByte_hexOf (b : Byte) : hexByte (hexOf b) = some b := by
  have h := b.isLt
  simp only [hexByte, hexOf, (hexChar_spec (b.toNat / 16) (by omega)).1, (hexChar_spec (b.toNat % 16) (by omega)).1]
  rw [show b.toNat / 16 * 16 + b.toNat % 16 = b.toNat by omega]
  simp

theorem readDigits_hexOf (b : Byte) (rest : Bytes) (n : Nat) :
    readDigits hexDigit 16 (hexOf b ++ rest) n = readDigits hexDigit 16 rest (256 * n + b.toNat) := by
  have h := b.isLt
  simp only [hexOf, List.cons_append, List.nil_append, readDigits, (hexChar_spec (b.toNat / 16) (by omega)).1,
    (hexChar_spec (b.toNat % 16) (by omega)).1]
  rw [show (n * 16 + b.toNat / 16) * 16 + b.toNat % 16 = 256 * n + b.toNat by omega]

theorem readNumber_hex {ds : Bytes} (h : ds ≠ []) :
    readNumber (0x30 :: 0x78 :: ds) = readDigits hexDigit 16 ds 0 := by
  simp [readNumber, h]

@[simp] theorem readNumber_numU8 (b : Byte) : readNumber (numU8 b) = some b.toNat := by
  have := readDigits_hexOf b [] 0
  simp only [List.append_nil] at this
  simp only [numU8, List.cons_append, List.nil_append]
  rw [readNumber_hex (hexOf_ne_nil b), this]
  simp [readDigits]

@[simp] theorem readNumber_numU16 (v : U16) : readNumber (numU16 v) = some v.toNat := by
  have h1 := readDigits_hexOf (Machine.hiByte v) (hexOf (Machine.loByte v)) 0
  have h2 := readDigits_hexOf (Machine.loByte v) [] (256 * 0 + (Machine.hiByte v).toNat)
  simp only [List.append_nil] at h2
  simp only [numU16, List.cons_append, List.nil_append]
  rw [readNumber_hex (by simp [hexOf]), h1, h2]
  simp only [readDigits]
  have := Machine.be16_toNat (Machine.hiByte v) (Machine.loByte v)
  rw [Machine.be16_hi_lo] at this
  rw [this]
  simp

theorem plain_numPrefix : PlainWord [0x30, 0x78] := by decide

theorem PlainWord.append {v w : Bytes} (hv : PlainWord v) (hw : PlainWord w) : PlainWord (v ++ w) := by
  intro b hb
  rcases List.mem_append.1 hb with hb | hb
  · exact hv b hb
  · exact hw b hb

theorem plain_numU8 (b : Byte) : PlainWord (numU8 b) := plain_numPrefix.append (plain_hexOf b)

theorem plain_numU16 (v : U16) : PlainWord (numU16 v) :=
  (plain_numPrefix.append (plain_hexOf _)).append (plain_hexOf _)

theorem decChar_spec : ∀ n < 10, decDigit (BitVec.ofNat 8 (0x30 + n)) = some n ∧
    PlainWord [BitVec.ofNat 8 (0x30 + n)] ∧ (n ≠ 0 → BitVec.ofNat 8 (0x30 + n) ≠ 0x30) := by decide

/-- The digits written for `n` before `acc`: they are read back as `n`, whatever was read before. -/
theorem decDigitsFrom_spec (fuel n : Nat) (acc : Bytes) (hn : n < fuel) :
    ∃ ds, ds ≠ [] ∧ decDigitsFrom fuel n acc = ds ++ acc ∧ PlainWord ds ∧
      (∀ rest, readDigits decDigit 10 (ds ++ rest) 0 = readDigits decDigit 10 rest n) ∧
      (∀ c, ds.tail.head? = some c → c ≠ 0x78) := by
  induction fuel generalizing n acc with
  | zero => omega
  | succ fuel ih =>
    rw [decDigitsFrom]
    by_cases h10 : n < 10
    · obtain ⟨hd, hp, -⟩ := decChar_spec n h10
      refine ⟨[BitVec.ofNat 8 (0x30 + n)], by simp, by simp [h10], hp, fun rest => ?_, by simp⟩
      simp [readDigits, hd]
    · rw [if_neg h10]
      obtain ⟨ds, hne, he, hp, hr, hx⟩ := ih (n / 10) (BitVec.ofNat 8 (0x30 + n % 10) :: acc) (by omega)
      obtain ⟨hd, hp1, -⟩ := decChar_spec (n % 10) (by omega)
      refine ⟨ds ++ [BitVec.ofNat 8 (0x30 + n % 10)], by simp, by rw [he]; simp, hp.append hp1, fun rest => ?_, ?_⟩
      · rw [List.append_assoc, hr]
        simp only [List.cons_append, List.nil_append, readDigits, hd]
        rw [show n / 10 * 10 + n % 10 = n by omega]
      · intro c hc
        cases ds with
        | nil => exact absurd rfl hne
        | cons d ds =>
          cases ds with
          | nil =>
            simp only [List.cons_append, List.nil_append, List.tail_cons, List.head?_cons, Option.some.injEq] at hc
            subst hc
            intro e
            rw [e] at hd
            have hn : decDigit 0x78 = none := by decide
            rw [hn] at hd
            cases hd
          | cons d' ds =>
            exact hx c (by simpa using hc)

theorem plain_numNat (n : Nat) : PlainWord (numNat n) := by
  obtain ⟨ds, -, he, hp, -, -⟩ := decDigitsFrom_spec (n + 1) n [] (by omega)
  rw [numNat, he, List.append_nil]
  exact hp

theorem numNat_ne_nil (n : Nat) : numNat n ≠ [] := by
  obtain ⟨ds, hne, he, -, -, -⟩ := decDigitsFrom_spec (n + 1) n [] (by omega)
  rw [numNat, he, List.append_nil]
  exact hne

@[simp] theorem readNumber_numNat (n : Nat) : readNumber (numNat n) = some n := by
  obtain ⟨ds, hne, he, -, hr, hx⟩ := decDigitsFrom_spec (n + 1) n [] (by omega)
  have hr := hr []
  rw [numNat, he, List.append_nil]
  rw [List.append_nil] at hr
  simp only [readDigits] at hr
  match ds, hne with
  | [b], _ =>
    simp only [readDigits] at hr
    simp only [readNumber]
    cases hd : decDigit b with
    | none => simp [hd] at hr
    | some d => simpa [hd] using hr
  | b :: x :: ds, _ =>
    have hx : x ≠ 0x78 := hx x (by simp)
    simp only [readNumber, hx, and_false, if_false]
    exact hr

/-! ## Byte sequences -/

/-- The tokens of a hex byte listing. -/
abbrev hexTokens (s : Bytes) : List Token := s.map fun b => .word (hexOf b)

theorem endsWord_hexListing (s : Bytes) {rest : Bytes} {ts : List Token} (hr : EndsWord rest ts) :
    EndsWord (hexListing s ++ rest) (hexTokens s ++ ts) := by
  induction s with
  | nil => exact hr
  | cons b s ih =>
    have h : tokensFrom (hexOf b ++ (hexListing s ++ rest)) [] = .word (hexOf b) :: (hexTokens s ++ ts) :=
      tokensFrom_word (plain_hexOf b) (hexOf_ne_nil b) ih
    have e : hexListing (b :: s) ++ rest = chBlank :: (hexOf b ++ (hexListing s ++ rest)) := by simp [hexListing]
    rw [e]
    intro acc
    rw [endsWord_blank, h]
    rfl

@[simp] theorem hexBytes_hexTokens (s : Bytes) : hexBytes (hexTokens s) = some s := by
  induction s with
  | nil => rfl
  | cons b s ih => simp [hexBytes, ih]

/-! ## Operands -/

/-- The text is read as the operand, wherever something that ends a word comes after it. -/
structure Reads (text : Bytes) (o : Operand) : Prop where
  reads : ∀ {rest : Bytes} {ts : List Token}, EndsWord rest ts →
    ∃ us, us ≠ [] ∧ tokensFrom (text ++ rest) [] = us ++ ts ∧
      ∀ os, readOperands ts .separator = some os → readOperands (us ++ ts) .operand = some (o :: os)

theorem reads_number {w : Bytes} {n : Nat} (hp : PlainWord w) (hne : w ≠ []) (hn : readNumber w = some n) :
    Reads w (.num n) where
  reads {rest ts} hr := by
    refine ⟨[.word w], by simp, tokensFrom_word hp hne hr, fun os ho => ?_⟩
    simp [readOperands, hn, ho]

theorem reads_numU8 (b : Byte) : Reads (numU8 b) (.num b.toNat) :=
  reads_number (plain_numU8 b) (by simp [numU8]) (by simp)

theorem reads_numU16 (v : U16) : Reads (numU16 v) (.num v.toNat) :=
  reads_number (plain_numU16 v) (by simp [numU16]) (by simp)

theorem reads_numNat (n : Nat) : Reads (numNat n) (.num n) :=
  reads_number (plain_numNat n) (numNat_ne_nil n) (by simp)

theorem readOperands_hexTokens (s acc : Bytes) (ts : List Token) :
    readOperands (hexTokens s ++ ts) (.inBytes acc) = readOperands ts (.inBytes (acc ++ s)) := by
  induction s generalizing acc with
  | nil => simp
  | cons b s ih =>
    have e : hexTokens (b :: s) ++ ts = .word (hexOf b) :: (hexTokens s ++ ts) := rfl
    rw [e, readOperands, hexByte_hexOf]
    simp [ih]

theorem reads_bracketed (s : Bytes) : Reads (bracketed s) (.bytes s) where
  reads {rest ts} hr := by
    have hc : EndsWord (chClose :: rest) (.rbrack :: ts) := by
      intro acc
      rw [endsWord_close, hr]
      rfl
    have e : bracketed s ++ rest = chOpen :: (hexListing s ++ chClose :: rest) := by simp [bracketed]
    refine ⟨.lbrack :: (hexTokens s ++ [.rbrack]), by simp, ?_, fun os ho => ?_⟩
    · rw [e, endsWord_open, endsWord_hexListing s hc]
      simp [flushWord]
    · have e2 : .lbrack :: (hexTokens s ++ [.rbrack]) ++ ts = .lbrack :: (hexTokens s ++ .rbrack :: ts) := by simp
      rw [e2, readOperands, readOperands_hexTokens]
      simp [readOperands, ho]

/-- Each text is read as the operand beside it. -/
abbrev ReadsAll : List Bytes → List Operand → Prop := List.Forall₂ Reads

theorem endsWord_moreOperands {texts : List Bytes} {os : List Operand} (h : ReadsAll texts os) :
    ∃ ts, EndsWord (moreOperands texts) ts ∧ readOperands ts .separator = some os := by
  induction h with
  | nil => exact ⟨[], endsWord_nil, rfl⟩
  | @cons text o texts os ho _ ih =>
    obtain ⟨ts, hts, hos⟩ := ih
    obtain ⟨us, -, hus, hread⟩ := ho.reads hts
    have e : moreOperands (text :: texts) = chComma :: (chBlank :: (text ++ moreOperands texts)) := by
      simp [moreOperands]
    refine ⟨.comma :: (us ++ ts), ?_, ?_⟩
    · intro acc
      rw [e, endsWord_comma, endsWord_blank, hus]
      simp [flushWord]
    · rw [readOperands, hread os hos]

/-- The tokens of a written operation are its mnemonic and tokens that are read as its operands. -/
theorem tokens_opLine {name : Bytes} (hp : PlainWord name) (hne : name ≠ []) {texts : List Bytes}
    {os : List Operand} (h : ReadsAll texts os) :
    ∃ ts, tokens (opLine name texts) = .word name :: ts ∧ operandsOf ts = some os := by
  cases h with
  | nil =>
    refine ⟨[], ?_, rfl⟩
    have := tokensFrom_word hp hne endsWord_nil
    rwa [List.append_nil] at this
  | @cons text o texts os ho hos =>
    obtain ⟨ts, hts, hsep⟩ := endsWord_moreOperands hos
    obtain ⟨us, hne', hus, hread⟩ := ho.reads hts
    refine ⟨us ++ ts, ?_, ?_⟩
    · have e : opLine name (text :: texts) = name ++ chBlank :: (text ++ moreOperands texts) := by simp [opLine]
      rw [tokens, e, tokensFrom_word hp hne (endsWord_blank _), hus]
    · rw [operandsOf, if_neg (by simp [hne']), hread os hsep]

/-- A written operation decodes to what its row makes of its operands. -/
theorem decode_opLine {name : Bytes} {row : OpRow} (hp : PlainWord name) (hb : name.head? ≠ some Config.devAddr)
    (hne : name ≠ []) (hl : name ≠ kwLink) (hrow : findRow name opRows = some row) {texts : List Bytes}
    {os : List Operand} (h : ReadsAll texts os) : decode (opLine name texts) = row.form os := by
  obtain ⟨ts, hts, hos⟩ := tokens_opLine hp hne h
  cases name with
  | nil => exact absurd rfl hne
  | cons b name =>
    have e : ∃ l, opLine (b :: name) texts = b :: l := by
      cases texts with
      | nil => exact ⟨name, rfl⟩
      | cons t texts => exact ⟨_, by simp [opLine]; rfl⟩
    obtain ⟨l, hl'⟩ := e
    rw [hl'] at hts ⊢
    have hb' : b ≠ Config.devAddr := fun e => hb (by simp [e])
    simp [decode, hb', hts, decodeLine, hl, hrow, hos]

/-- A written LINK line states its bytes, which are not none. -/
theorem tokens_linkLine (c : Bytes) : tokens (linkLine c) = .word kwLink :: .word kwArrow :: hexTokens c := by
  have h1 := endsWord_hexListing c endsWord_nil
  have h2 := tokensFrom_word (w := kwArrow) (by decide) (by decide) h1
  have h3 := tokensFrom_word (w := kwLink) (by decide) (by decide) (endsWord_blank (kwArrow ++ (hexListing c ++ [])))
  rw [h2] at h3
  simpa [tokens, linkLine] using h3

theorem hexOf_ne_timeout (b : Byte) : hexOf b ≠ kwTimeout := by
  intro h
  have := congrArg List.length h
  simp [hexOf, kwTimeout, ascii] at this

theorem linkAnswer_hexTokens {c : Bytes} (h : c ≠ []) :
    linkAnswer (.word kwLink :: .word kwArrow :: hexTokens c) = some c := by
  cases c with
  | nil => exact absurd rfl h
  | cons b c =>
    have := hexBytes_hexTokens (b :: c)
    simp only [List.map_cons] at this ⊢
    simp [linkAnswer, hexOf_ne_timeout, this]

theorem decode_linkLine {c : Bytes} (h : c ≠ []) :
    decode (linkLine c) = match responseOf c with | some i => .ok i | none => .error .notAResponse := by
  have ht := tokens_linkLine c
  have hd : ∃ l, linkLine c = 0x4C :: l := ⟨_, rfl⟩
  obtain ⟨l, hl⟩ := hd
  rw [hl] at ht ⊢
  have hb : (0x4C : Byte) ≠ Config.devAddr := by decide
  simp only [decode, hb, if_false, ht, decodeLine, if_true, linkAnswer_hexTokens h]
  all_goals cases responseOf c <;> rfl

/-! ## Wire frames and table words -/

/-- A request frame on the wire decodes to the row its function code selects (R70). -/
theorem decode_reqBytes (fc : Byte) (addr val crc : U16) :
    decode (reqBytes fc addr val crc) =
      if fc = Config.fcReadHr then .ok (.reqReadHr addr val crc)
      else if fc = Config.fcReadIr then .ok (.reqReadIr addr val crc)
      else if fc = Config.fcWriteSr then .ok (.reqWriteSr addr val crc)
      else .error .frameFunctionCode := by
  have h : decode (reqBytes fc addr val crc) = decodeFrame (reqBytes fc addr val crc) := rfl
  rw [h]
  simp [decodeFrame, reqBytes, Machine.reqBody, Machine.frameOfBytes, Machine.frameAddr, Machine.frameVal,
    Machine.frameCrc]

/-- The low bytes of a word do not see its high part. -/
theorem wordBytes_add (n b w : Nat) : wordBytes n (b * 256 ^ n + w) = wordBytes n w := by
  induction n generalizing b w with
  | zero => rfl
  | succ n ih =>
    have e : b * 256 ^ (n + 1) + w = (b * 256) * 256 ^ n + w := by rw [Nat.pow_succ]; ring
    rw [wordBytes, wordBytes, e, ih]
    congr 1
    apply BitVec.eq_of_toNat_eq
    simp only [BitVec.toNat_ofNat]
    rw [Nat.add_comm, Nat.add_mul_div_right _ _ (by positivity)]
    omega

/-- The first byte of a word is its most significant one (R61). -/
theorem wordBytes_cons (n w : Nat) (b : Byte) (hw : w < 256 ^ n) :
    wordBytes (n + 1) (b.toNat * 256 ^ n + w) = b :: wordBytes n w := by
  rw [wordBytes, wordBytes_add]
  congr 1
  rw [Nat.add_comm, Nat.add_mul_div_right _ _ (by positivity), Nat.div_eq_of_lt hw]
  simp

/-- A word of a 64-bit row is decoded as its eight bytes. -/
theorem decodeTableWord_of_ok {w : Nat} {i : Instr} (h : decode (wordBytes 8 w) = .ok i) :
    decodeTableWord 64 w = some i := by
  simp [decodeTableWord, h]

theorem decodeTableWord_of_error {w : Nat} {e : DecodeError} (h : decode (wordBytes 8 w) = .error e) :
    decodeTableWord 64 w = none := by
  simp [decodeTableWord, h]

/-- The eight bytes of a request word, `top` being its device and function code bytes in place (R61). -/
theorem wordBytes_request (fc : Byte) (addr val crc : U16) {top : Nat}
    (h : top = (0xFE00 + fc.toNat) * 0x1000000000000) :
    wordBytes 8 (top + (addr.toNat * 0x100000000 + val.toNat * 0x10000 + (crc.toNat % 256) * 0x100 + crc.toNat / 256))
      = reqBytes fc addr val crc := by
  have hl : ∀ v : U16, (Machine.loByte v).toNat = v.toNat % 256 := fun v => by simp [Machine.loByte]
  have hh : ∀ v : U16, (Machine.hiByte v).toNat = v.toNat / 256 := fun v => by
    have := v.isLt
    simp only [Machine.hiByte, BitVec.toNat_setWidth, BitVec.toNat_ushiftRight, Nat.shiftRight_eq_div_pow]
    omega
  have e : top + (addr.toNat * 0x100000000 + val.toNat * 0x10000 + (crc.toNat % 256) * 0x100 + crc.toNat / 256) =
      (0xFE : Byte).toNat * 256 ^ 7 + (fc.toNat * 256 ^ 6 + ((Machine.hiByte addr).toNat * 256 ^ 5 +
        ((Machine.loByte addr).toNat * 256 ^ 4 + ((Machine.hiByte val).toNat * 256 ^ 3 +
          ((Machine.loByte val).toNat * 256 ^ 2 + ((Machine.loByte crc).toNat * 256 ^ 1 +
            ((Machine.hiByte crc).toNat * 256 ^ 0 + 0))))))) := by
    simp only [hl, hh, show (BitVec.toNat (0xFE : BitVec 8)) = 254 from rfl, h]
    omega
  have h0 := fc.isLt
  have h1 := (Machine.hiByte addr).isLt
  have h2 := (Machine.loByte addr).isLt
  have h3 := (Machine.hiByte val).isLt
  have h4 := (Machine.loByte val).isLt
  have h5 := (Machine.hiByte crc).isLt
  have h6 := (Machine.loByte crc).isLt
  rw [e, wordBytes_cons _ _ _ (by omega), wordBytes_cons _ _ _ (by omega), wordBytes_cons _ _ _ (by omega),
    wordBytes_cons _ _ _ (by omega), wordBytes_cons _ _ _ (by omega), wordBytes_cons _ _ _ (by omega),
    wordBytes_cons _ _ _ (by omega), wordBytes_cons _ _ _ (by omega)]
  rfl

end Sys2Proof
end

