-- ==== Sys2Proof/Laws/Memory.lean ====
section
/-! SUPPORT. The response buffer: a read after a write, the canonical form, the slice that a capture stores. -/

namespace Sys2Proof.Machine

theorem Memory.wf_nil : Memory.wf [] := ⟨List.Pairwise.nil, fun _ hc => by cases hc⟩

@[simp] theorem Memory.read_nil (a : Nat) : Memory.read [] a = 0x00 := rfl

@[simp] theorem Memory.read_cleared (a : Nat) : Memory.read Memory.cleared a = 0x00 := rfl

theorem Memory.read_cons (k : Nat) (w : Byte) (m : Memory) (a : Nat) :
    Memory.read ((k, w) :: m) a = if a = k then w else Memory.read m a := rfl

/-- The keys of a canonical memory: the first is below all others. -/
theorem Memory.wf_cons {k : Nat} {w : Byte} {m : Memory} (h : Memory.wf ((k, w) :: m)) :
    (∀ c ∈ m, k < c.1) ∧ w ≠ unlistedByte ∧ Memory.wf m := by
  obtain ⟨hs, hn⟩ := h
  simp only [List.map_cons, List.pairwise_cons, List.mem_map] at hs
  exact ⟨fun c hc => hs.1 _ ⟨c, hc, rfl⟩, hn (k, w) (by simp), hs.2, fun c hc => hn c (by simp [hc])⟩

theorem Memory.wf_cons_of {k : Nat} {w : Byte} {m : Memory} (hk : ∀ c ∈ m, k < c.1) (hw : w ≠ unlistedByte)
    (hm : Memory.wf m) : Memory.wf ((k, w) :: m) := by
  refine ⟨?_, ?_⟩
  · simp only [List.map_cons, List.pairwise_cons, List.mem_map]
    exact ⟨by rintro _ ⟨c, hc, rfl⟩; exact hk c hc, hm.1⟩
  · intro c hc
    rcases List.mem_cons.1 hc with rfl | hc
    · exact hw
    · exact hm.2 c hc

/-- An offset below every listed one is not listed. -/
theorem Memory.read_of_lt {m : Memory} {a : Nat} (h : ∀ c ∈ m, a < c.1) : Memory.read m a = unlistedByte := by
  induction m with
  | nil => rfl
  | cons c m ih =>
    obtain ⟨k, w⟩ := c
    have hk := h (k, w) (by simp)
    rw [Memory.read_cons, if_neg (by simp at hk; omega)]
    exact ih fun c hc => h c (by simp [hc])

theorem Memory.read_write (m : Memory) (h : m.wf) (a : Nat) (v : Byte) (b : Nat) :
    Memory.read (m.write a v) b = if b = a then v else Memory.read m b := by
  induction m with
  | nil =>
    by_cases hv : v = unlistedByte
    · simp [Memory.write, hv, unlistedByte]
    · simp only [Memory.write, hv, if_false, Memory.read_cons]
  | cons c m ih =>
    obtain ⟨k, w⟩ := c
    obtain ⟨hk, hw, hm⟩ := Memory.wf_cons h
    have hlt : ∀ x, x < k → Memory.read ((k, w) :: m) x = unlistedByte := fun x hx =>
      Memory.read_of_lt fun c hc => by
        rcases List.mem_cons.1 hc with rfl | hc
        · exact hx
        · exact hx.trans (hk c hc)
    unfold Memory.write
    by_cases h1 : a < k
    · by_cases hv : v = unlistedByte
      · simp only [h1, hv, if_true]
        by_cases hb : b = a
        · subst hb; simp [hlt b h1]
        · simp [hb]
      · simp only [h1, hv, if_true, if_false, Memory.read_cons k w m b, Memory.read_cons a v]
    · by_cases h2 : a = k
      · subst h2
        by_cases hv : v = unlistedByte
        · simp only [lt_irrefl, hv, if_true, if_false, Memory.read_cons]
          by_cases hb : b = a
          · subst hb; simp [Memory.read_of_lt hk]
          · simp [hb]
        · simp only [lt_irrefl, hv, if_true, if_false, Memory.read_cons]
          by_cases hb : b = a <;> simp [hb]
      · simp only [h1, h2, if_false, Memory.read_cons, ih hm]
        by_cases hb : b = k
        · subst hb; simp [Ne.symm h2]
        · simp [hb]

theorem Memory.read_write_same (m : Memory) (h : m.wf) (a : Nat) (v : Byte) :
    Memory.read (m.write a v) a = v := by
  simp [Memory.read_write m h]

theorem Memory.read_write_other (m : Memory) (h : m.wf) {a b : Nat} (v : Byte) (hb : b ≠ a) :
    Memory.read (m.write a v) b = Memory.read m b := by
  simp [Memory.read_write m h, hb]

/-- A write lists no offset but the written one and those listed before. -/
theorem Memory.mem_write {m : Memory} {a : Nat} {v : Byte} {c : Host.Cell} (h : c ∈ m.write a v) :
    c = (a, v) ∨ c ∈ m := by
  induction m with
  | nil =>
    unfold Memory.write at h
    split at h <;> simp_all
  | cons d m ih =>
    obtain ⟨k, w⟩ := d
    unfold Memory.write at h
    split at h
    · split at h <;> simp_all
    · split at h
      · split at h
        · exact .inr (by simp [h])
        · rcases List.mem_cons.1 h with rfl | h
          · exact .inl rfl
          · exact .inr (by simp [h])
      · rcases List.mem_cons.1 h with rfl | h
        · exact .inr (by simp)
        · exact (ih h).imp_right fun h => by simp [h]

theorem Memory.wf_write (m : Memory) (h : m.wf) (a : Nat) (v : Byte) : (m.write a v).wf := by
  induction m with
  | nil =>
    by_cases hv : v = unlistedByte
    · simpa only [Memory.write, hv, if_true] using h
    · simpa only [Memory.write, hv, if_false] using
        Memory.wf_cons_of (k := a) (m := []) (fun _ hc => by cases hc) hv Memory.wf_nil
  | cons c m ih =>
    obtain ⟨k, w⟩ := c
    obtain ⟨hk, hw, hm⟩ := Memory.wf_cons h
    unfold Memory.write
    by_cases h1 : a < k
    · by_cases hv : v = unlistedByte
      · simpa only [h1, hv, if_true] using h
      · simp only [h1, hv, if_true, if_false]
        refine Memory.wf_cons_of (fun c hc => ?_) hv h
        rcases List.mem_cons.1 hc with rfl | hc
        · exact h1
        · exact h1.trans (hk c hc)
    · by_cases h2 : a = k
      · subst h2
        by_cases hv : v = unlistedByte
        · simpa only [lt_irrefl, hv, if_true, if_false] using hm
        · simpa only [lt_irrefl, hv, if_true, if_false] using Memory.wf_cons_of hk hv hm
      · simp only [h1, h2, if_false]
        refine Memory.wf_cons_of (fun c hc => ?_) hw (ih hm)
        rcases Memory.mem_write hc with rfl | hc
        · simp; omega
        · exact hk c hc

theorem Memory.wf_cleared : Memory.cleared.wf := Memory.wf_nil

theorem Memory.wf_writeBytes (bs : Bytes) (m : Memory) (h : m.wf) (a : Nat) : (m.writeBytes a bs).wf := by
  induction bs generalizing m a with
  | nil => exact h
  | cons b bs ih => exact ih _ (Memory.wf_write m h a b) _

theorem Memory.read_writeBytes (bs : Bytes) (m : Memory) (h : m.wf) (a b : Nat) :
    Memory.read (m.writeBytes a bs) b
      = if a ≤ b ∧ b < a + bs.length then bs.getD (b - a) 0 else Memory.read m b := by
  induction bs generalizing m a with
  | nil => simp [Memory.writeBytes]
  | cons c bs ih =>
    rw [Memory.writeBytes, ih _ (Memory.wf_write m h a c), Memory.read_write m h]
    simp only [List.length_cons]
    by_cases hb : b = a
    · subst hb; simp
    · by_cases h1 : a + 1 ≤ b ∧ b < a + 1 + bs.length
      · have h2 : a ≤ b ∧ b < a + (bs.length + 1) := by omega
        have h3 : b - a = (b - (a + 1)) + 1 := by omega
        simp [h1, h2, h3]
      · have h2 : ¬ (a ≤ b ∧ b < a + (bs.length + 1)) := by omega
        rw [if_neg h1, if_neg h2, if_neg hb]

@[simp] theorem Memory.slice_length (m : Memory) (n : Nat) : (m.slice n).length = n := by simp [Memory.slice]

theorem Memory.slice_congr {m m' : Memory} {n : Nat} (h : ∀ a < n, Memory.read m a = Memory.read m' a) :
    m.slice n = m'.slice n := by
  simp only [Memory.slice]
  exact List.map_congr_left fun a ha => h a (List.mem_range.1 ha)

/-- The captured bytes are the chunk the capture stored. -/
theorem Memory.slice_writeBytes (m : Memory) (h : m.wf) (c : Bytes) : (m.writeBytes 0 c).slice c.length = c := by
  refine List.ext_getElem (by simp) fun i h1 h2 => ?_
  simp [Memory.slice, Memory.read_writeBytes c m h, h2]

/-- Two canonical memories that read alike are equal. -/
theorem Memory.ext_read {m m' : Memory} (h : m.wf) (h' : m'.wf)
    (hr : ∀ a, Memory.read m a = Memory.read m' a) : m = m' := by
  induction m generalizing m' with
  | nil =>
    cases m' with
    | nil => rfl
    | cons c m' =>
      obtain ⟨k, w⟩ := c
      have := hr k
      simp [Memory.read_cons] at this
      exact absurd this.symm (Memory.wf_cons h').2.1
  | cons c m ih =>
    obtain ⟨k, w⟩ := c
    obtain ⟨hk, hw, hm⟩ := Memory.wf_cons h
    cases m' with
    | nil =>
      have := hr k
      simp [Memory.read_cons] at this
      exact absurd this hw
    | cons c' m' =>
      obtain ⟨k', w'⟩ := c'
      obtain ⟨hk', hw', hm'⟩ := Memory.wf_cons h'
      have key : k = k' := by
        rcases lt_trichotomy k k' with hlt | heq | hgt
        · have := hr k
          rw [Memory.read_cons, if_pos rfl, Memory.read_of_lt] at this
          · exact absurd this hw
          · intro c hc
            rcases List.mem_cons.1 hc with rfl | hc
            · exact hlt
            · exact hlt.trans (hk' c hc)
        · exact heq
        · have := hr k'
          rw [Memory.read_cons k' w', if_pos rfl, Memory.read_of_lt] at this
          · exact absurd this.symm hw'
          · intro c hc
            rcases List.mem_cons.1 hc with rfl | hc
            · exact hgt
            · exact hgt.trans (hk c hc)
      subst key
      have hww : w = w' := by simpa [Memory.read_cons] using hr k
      subst hww
      congr 1
      refine ih hm hm' fun a => ?_
      by_cases ha : a = k
      · subst ha; rw [Memory.read_of_lt hk, Memory.read_of_lt hk']
      · simpa [Memory.read_cons, ha] using hr a

end Sys2Proof.Machine
end

