-- ==== Sys2Proof/Laws/State.lean ====
section
/-! SUPPORT. What each named update does to each field of the state, one lemma per field per update. -/

namespace Sys2Proof.Machine

/-! ## `State.returns` -/

@[simp] theorem State.returns_par (s : State) (k : Kind) (v : Value) : (s.returns k v).par = s.par := rfl
@[simp] theorem State.returns_session (s : State) (k : Kind) (v : Value) : (s.returns k v).session = s.session := rfl
@[simp] theorem State.returns_txf (s : State) (k : Kind) (v : Value) : (s.returns k v).txf = s.txf := rfl
@[simp] theorem State.returns_rbuf (s : State) (k : Kind) (v : Value) : (s.returns k v).rbuf = s.rbuf := rfl
@[simp] theorem State.returns_rlen (s : State) (k : Kind) (v : Value) : (s.returns k v).rlen = s.rlen := rfl
@[simp] theorem State.returns_res (s : State) (k : Kind) (v : Value) : (s.returns k v).res = s.res := rfl
@[simp] theorem State.returns_ph (s : State) (k : Kind) (v : Value) : (s.returns k v).ph = s.ph := rfl
@[simp] theorem State.returns_built (s : State) (k : Kind) (v : Value) : (s.returns k v).built = s.built := rfl
@[simp] theorem State.returns_ret (s : State) (k : Kind) (v : Value) : (s.returns k v).ret = some ⟨k, v⟩ := rfl
@[simp] theorem State.returns_obs (s : State) (k : Kind) (v : Value) : (s.returns k v).obs = s.obs := rfl
@[simp] theorem State.returns_verdicts (s : State) (k : Kind) (v : Value) : (s.returns k v).verdicts = s.verdicts := rfl
@[simp] theorem State.returns_link (s : State) (k : Kind) (v : Value) : (s.returns k v).link = s.link := rfl
@[simp] theorem State.returns_draws (s : State) (k : Kind) (v : Value) : (s.returns k v).draws = s.draws := rfl
@[simp] theorem State.returns_inputs (s : State) (k : Kind) (v : Value) : (s.returns k v).inputs = s.inputs := rfl
@[simp] theorem State.returns_captured (s : State) (k : Kind) (v : Value) : (s.returns k v).captured = s.captured := rfl

/-! ## `State.emit` -/

@[simp] theorem State.emit_par (s : State) (e : Event) : (s.emit e).par = s.par := rfl
@[simp] theorem State.emit_session (s : State) (e : Event) : (s.emit e).session = s.session := rfl
@[simp] theorem State.emit_txf (s : State) (e : Event) : (s.emit e).txf = s.txf := rfl
@[simp] theorem State.emit_rbuf (s : State) (e : Event) : (s.emit e).rbuf = s.rbuf := rfl
@[simp] theorem State.emit_rlen (s : State) (e : Event) : (s.emit e).rlen = s.rlen := rfl
@[simp] theorem State.emit_res (s : State) (e : Event) : (s.emit e).res = s.res := rfl
@[simp] theorem State.emit_ph (s : State) (e : Event) : (s.emit e).ph = s.ph := rfl
@[simp] theorem State.emit_built (s : State) (e : Event) : (s.emit e).built = s.built := rfl
@[simp] theorem State.emit_ret (s : State) (e : Event) : (s.emit e).ret = s.ret := rfl
@[simp] theorem State.emit_obs (s : State) (e : Event) : (s.emit e).obs = s.obs ++ [e] := rfl
@[simp] theorem State.emit_verdicts (s : State) (e : Event) : (s.emit e).verdicts = s.verdicts := rfl
@[simp] theorem State.emit_link (s : State) (e : Event) : (s.emit e).link = s.link := rfl
@[simp] theorem State.emit_draws (s : State) (e : Event) : (s.emit e).draws = s.draws := rfl
@[simp] theorem State.emit_inputs (s : State) (e : Event) : (s.emit e).inputs = s.inputs := rfl
@[simp] theorem State.emit_captured (s : State) (e : Event) : (s.emit e).captured = s.captured := rfl

/-! ## `State.emitTrace` -/

@[simp] theorem State.emitTrace_par (s : State) (e : TraceEvent) : (s.emitTrace e).par = s.par := rfl
@[simp] theorem State.emitTrace_session (s : State) (e : TraceEvent) : (s.emitTrace e).session = s.session := rfl
@[simp] theorem State.emitTrace_txf (s : State) (e : TraceEvent) : (s.emitTrace e).txf = s.txf := rfl
@[simp] theorem State.emitTrace_rbuf (s : State) (e : TraceEvent) : (s.emitTrace e).rbuf = s.rbuf := rfl
@[simp] theorem State.emitTrace_rlen (s : State) (e : TraceEvent) : (s.emitTrace e).rlen = s.rlen := rfl
@[simp] theorem State.emitTrace_res (s : State) (e : TraceEvent) : (s.emitTrace e).res = s.res := rfl
@[simp] theorem State.emitTrace_ph (s : State) (e : TraceEvent) : (s.emitTrace e).ph = s.ph := rfl
@[simp] theorem State.emitTrace_built (s : State) (e : TraceEvent) : (s.emitTrace e).built = s.built := rfl
@[simp] theorem State.emitTrace_ret (s : State) (e : TraceEvent) : (s.emitTrace e).ret = s.ret := rfl
@[simp] theorem State.emitTrace_obs (s : State) (e : TraceEvent) : (s.emitTrace e).obs = s.obs ++ [.trace e] := rfl
@[simp] theorem State.emitTrace_verdicts (s : State) (e : TraceEvent) : (s.emitTrace e).verdicts = s.verdicts := rfl
@[simp] theorem State.emitTrace_link (s : State) (e : TraceEvent) : (s.emitTrace e).link = s.link := rfl
@[simp] theorem State.emitTrace_draws (s : State) (e : TraceEvent) : (s.emitTrace e).draws = s.draws := rfl
@[simp] theorem State.emitTrace_inputs (s : State) (e : TraceEvent) : (s.emitTrace e).inputs = s.inputs := rfl
@[simp] theorem State.emitTrace_captured (s : State) (e : TraceEvent) : (s.emitTrace e).captured = s.captured := rfl

/-! ## `State.fail` -/

@[simp] theorem State.fail_par (s : State) (k : FailKind) : (s.fail k).par = s.par := rfl
@[simp] theorem State.fail_session (s : State) (k : FailKind) : (s.fail k).session = s.session := rfl
@[simp] theorem State.fail_txf (s : State) (k : FailKind) : (s.fail k).txf = s.txf := rfl
@[simp] theorem State.fail_rbuf (s : State) (k : FailKind) : (s.fail k).rbuf = s.rbuf := rfl
@[simp] theorem State.fail_rlen (s : State) (k : FailKind) : (s.fail k).rlen = s.rlen := rfl
@[simp] theorem State.fail_res (s : State) (k : FailKind) : (s.fail k).res = some (.fail k) := rfl
@[simp] theorem State.fail_ph (s : State) (k : FailKind) : (s.fail k).ph = .idle := rfl
@[simp] theorem State.fail_built (s : State) (k : FailKind) : (s.fail k).built = s.built := rfl
@[simp] theorem State.fail_ret (s : State) (k : FailKind) : (s.fail k).ret = some ⟨.fail k, .bytes []⟩ := rfl
@[simp] theorem State.fail_obs (s : State) (k : FailKind) : (s.fail k).obs = s.obs := rfl
@[simp] theorem State.fail_verdicts (s : State) (k : FailKind) : (s.fail k).verdicts = s.verdicts := rfl
@[simp] theorem State.fail_link (s : State) (k : FailKind) : (s.fail k).link = s.link := rfl
@[simp] theorem State.fail_draws (s : State) (k : FailKind) : (s.fail k).draws = s.draws := rfl
@[simp] theorem State.fail_inputs (s : State) (k : FailKind) : (s.fail k).inputs = s.inputs := rfl
@[simp] theorem State.fail_captured (s : State) (k : FailKind) : (s.fail k).captured = s.captured := rfl

/-! ## `State.succeed` -/

@[simp] theorem State.succeed_par (s : State) : (s.succeed).par = s.par := rfl
@[simp] theorem State.succeed_session (s : State) : (s.succeed).session = s.session := rfl
@[simp] theorem State.succeed_txf (s : State) : (s.succeed).txf = s.txf := rfl
@[simp] theorem State.succeed_rbuf (s : State) : (s.succeed).rbuf = s.rbuf := rfl
@[simp] theorem State.succeed_rlen (s : State) : (s.succeed).rlen = s.rlen := rfl
@[simp] theorem State.succeed_res (s : State) : (s.succeed).res = some (.ok s.captured) := rfl
@[simp] theorem State.succeed_ph (s : State) : (s.succeed).ph = .idle := rfl
@[simp] theorem State.succeed_built (s : State) : (s.succeed).built = s.built := rfl
@[simp] theorem State.succeed_ret (s : State) : (s.succeed).ret = some ⟨.ok, .bytes s.captured⟩ := rfl
@[simp] theorem State.succeed_obs (s : State) : (s.succeed).obs = s.obs := rfl
@[simp] theorem State.succeed_verdicts (s : State) : (s.succeed).verdicts = s.verdicts := rfl
@[simp] theorem State.succeed_link (s : State) : (s.succeed).link = s.link := rfl
@[simp] theorem State.succeed_draws (s : State) : (s.succeed).draws = s.draws := rfl
@[simp] theorem State.succeed_inputs (s : State) : (s.succeed).inputs = s.inputs := rfl
@[simp] theorem State.succeed_captured (s : State) : (s.succeed).captured = s.captured := rfl

/-! ## `State.linkWrite` -/

@[simp] theorem State.linkWrite_par (s : State) (f : Frame8) : (s.linkWrite f).par = s.par := rfl
@[simp] theorem State.linkWrite_session (s : State) (f : Frame8) : (s.linkWrite f).session = s.session := rfl
@[simp] theorem State.linkWrite_txf (s : State) (f : Frame8) : (s.linkWrite f).txf = s.txf := rfl
@[simp] theorem State.linkWrite_rbuf (s : State) (f : Frame8) : (s.linkWrite f).rbuf = s.rbuf := rfl
@[simp] theorem State.linkWrite_rlen (s : State) (f : Frame8) : (s.linkWrite f).rlen = s.rlen := rfl
@[simp] theorem State.linkWrite_res (s : State) (f : Frame8) : (s.linkWrite f).res = s.res := rfl
@[simp] theorem State.linkWrite_ph (s : State) (f : Frame8) : (s.linkWrite f).ph = s.ph := rfl
@[simp] theorem State.linkWrite_built (s : State) (f : Frame8) : (s.linkWrite f).built = s.built := rfl
@[simp] theorem State.linkWrite_ret (s : State) (f : Frame8) : (s.linkWrite f).ret = s.ret := rfl
@[simp] theorem State.linkWrite_obs (s : State) (f : Frame8) : (s.linkWrite f).obs = s.obs ++ [.linkWrite (frameBytes f)] := rfl
@[simp] theorem State.linkWrite_verdicts (s : State) (f : Frame8) : (s.linkWrite f).verdicts = s.verdicts := rfl
@[simp] theorem State.linkWrite_link (s : State) (f : Frame8) : (s.linkWrite f).link = s.link := rfl
@[simp] theorem State.linkWrite_draws (s : State) (f : Frame8) : (s.linkWrite f).draws = s.draws := rfl
@[simp] theorem State.linkWrite_inputs (s : State) (f : Frame8) : (s.linkWrite f).inputs = s.inputs := rfl
@[simp] theorem State.linkWrite_captured (s : State) (f : Frame8) : (s.linkWrite f).captured = s.captured := rfl

/-! ## `State.linkDeliver` -/

@[simp] theorem State.linkDeliver_par (s : State) (c : Bytes) : (s.linkDeliver c).par = s.par := rfl
@[simp] theorem State.linkDeliver_session (s : State) (c : Bytes) : (s.linkDeliver c).session = s.session := rfl
@[simp] theorem State.linkDeliver_txf (s : State) (c : Bytes) : (s.linkDeliver c).txf = s.txf := rfl
@[simp] theorem State.linkDeliver_rbuf (s : State) (c : Bytes) : (s.linkDeliver c).rbuf = s.rbuf := rfl
@[simp] theorem State.linkDeliver_rlen (s : State) (c : Bytes) : (s.linkDeliver c).rlen = s.rlen := rfl
@[simp] theorem State.linkDeliver_res (s : State) (c : Bytes) : (s.linkDeliver c).res = s.res := rfl
@[simp] theorem State.linkDeliver_ph (s : State) (c : Bytes) : (s.linkDeliver c).ph = s.ph := rfl
@[simp] theorem State.linkDeliver_built (s : State) (c : Bytes) : (s.linkDeliver c).built = s.built := rfl
@[simp] theorem State.linkDeliver_ret (s : State) (c : Bytes) : (s.linkDeliver c).ret = s.ret := rfl
@[simp] theorem State.linkDeliver_obs (s : State) (c : Bytes) : (s.linkDeliver c).obs = s.obs := rfl
@[simp] theorem State.linkDeliver_verdicts (s : State) (c : Bytes) : (s.linkDeliver c).verdicts = s.verdicts := rfl
@[simp] theorem State.linkDeliver_link (s : State) (c : Bytes) : (s.linkDeliver c).link = s.link ++ [c] := rfl
@[simp] theorem State.linkDeliver_draws (s : State) (c : Bytes) : (s.linkDeliver c).draws = s.draws := rfl
@[simp] theorem State.linkDeliver_inputs (s : State) (c : Bytes) : (s.linkDeliver c).inputs = s.inputs := rfl
@[simp] theorem State.linkDeliver_captured (s : State) (c : Bytes) : (s.linkDeliver c).captured = s.captured := rfl

/-! ## `State.linkCapture` -/

@[simp] theorem State.linkCapture_par (s : State) (n : Nat) : (s.linkCapture n).par = s.par := rfl
@[simp] theorem State.linkCapture_session (s : State) (n : Nat) : (s.linkCapture n).session = s.session := rfl
@[simp] theorem State.linkCapture_txf (s : State) (n : Nat) : (s.linkCapture n).txf = s.txf := rfl
@[simp] theorem State.linkCapture_rbuf (s : State) (n : Nat) : (s.linkCapture n).rbuf = s.rbuf := rfl
@[simp] theorem State.linkCapture_rlen (s : State) (n : Nat) : (s.linkCapture n).rlen = s.rlen := rfl
@[simp] theorem State.linkCapture_res (s : State) (n : Nat) : (s.linkCapture n).res = s.res := rfl
@[simp] theorem State.linkCapture_ph (s : State) (n : Nat) : (s.linkCapture n).ph = s.ph := rfl
@[simp] theorem State.linkCapture_built (s : State) (n : Nat) : (s.linkCapture n).built = s.built := rfl
@[simp] theorem State.linkCapture_ret (s : State) (n : Nat) : (s.linkCapture n).ret = s.ret := rfl
@[simp] theorem State.linkCapture_obs (s : State) (n : Nat) : (s.linkCapture n).obs = s.obs ++ [.linkCapture (s.captureAnswer n)] := rfl
@[simp] theorem State.linkCapture_verdicts (s : State) (n : Nat) : (s.linkCapture n).verdicts = s.verdicts := rfl
@[simp] theorem State.linkCapture_link (s : State) (n : Nat) : (s.linkCapture n).link = s.linkRest n := rfl
@[simp] theorem State.linkCapture_draws (s : State) (n : Nat) : (s.linkCapture n).draws = s.draws + 1 := rfl
@[simp] theorem State.linkCapture_inputs (s : State) (n : Nat) : (s.linkCapture n).inputs = s.inputs := rfl
@[simp] theorem State.linkCapture_captured (s : State) (n : Nat) : (s.linkCapture n).captured = s.captured := rfl

/-! ## `State.judge` -/

@[simp] theorem State.judge_par (s : State) (r : Bytes) (k : Kind) : (s.judge r k).par = s.par := rfl
@[simp] theorem State.judge_session (s : State) (r : Bytes) (k : Kind) : (s.judge r k).session = s.session := rfl
@[simp] theorem State.judge_txf (s : State) (r : Bytes) (k : Kind) : (s.judge r k).txf = s.txf := rfl
@[simp] theorem State.judge_rbuf (s : State) (r : Bytes) (k : Kind) : (s.judge r k).rbuf = s.rbuf := rfl
@[simp] theorem State.judge_rlen (s : State) (r : Bytes) (k : Kind) : (s.judge r k).rlen = s.rlen := rfl
@[simp] theorem State.judge_res (s : State) (r : Bytes) (k : Kind) : (s.judge r k).res = s.res := rfl
@[simp] theorem State.judge_ph (s : State) (r : Bytes) (k : Kind) : (s.judge r k).ph = s.ph := rfl
@[simp] theorem State.judge_built (s : State) (r : Bytes) (k : Kind) : (s.judge r k).built = s.built := rfl
@[simp] theorem State.judge_ret (s : State) (r : Bytes) (k : Kind) : (s.judge r k).ret = s.ret := rfl
@[simp] theorem State.judge_obs (s : State) (r : Bytes) (k : Kind) : (s.judge r k).obs = s.obs := rfl
@[simp] theorem State.judge_verdicts (s : State) (r : Bytes) (k : Kind) : (s.judge r k).verdicts = noteVerdict r k s.verdicts := rfl
@[simp] theorem State.judge_link (s : State) (r : Bytes) (k : Kind) : (s.judge r k).link = s.link := rfl
@[simp] theorem State.judge_draws (s : State) (r : Bytes) (k : Kind) : (s.judge r k).draws = s.draws := rfl
@[simp] theorem State.judge_inputs (s : State) (r : Bytes) (k : Kind) : (s.judge r k).inputs = s.inputs := rfl
@[simp] theorem State.judge_captured (s : State) (r : Bytes) (k : Kind) : (s.judge r k).captured = s.captured := rfl

/-! ## `State.sendFrame` -/

@[simp] theorem State.sendFrame_par (s : State) (f : Frame8) : (s.sendFrame f).par = s.par := rfl
@[simp] theorem State.sendFrame_session (s : State) (f : Frame8) : (s.sendFrame f).session = s.session := rfl
@[simp] theorem State.sendFrame_txf (s : State) (f : Frame8) : (s.sendFrame f).txf = some f := rfl
@[simp] theorem State.sendFrame_rbuf (s : State) (f : Frame8) : (s.sendFrame f).rbuf = s.rbuf := rfl
@[simp] theorem State.sendFrame_rlen (s : State) (f : Frame8) : (s.sendFrame f).rlen = s.rlen := rfl
@[simp] theorem State.sendFrame_res (s : State) (f : Frame8) : (s.sendFrame f).res = s.res := rfl
@[simp] theorem State.sendFrame_ph (s : State) (f : Frame8) : (s.sendFrame f).ph = .t2 := rfl
@[simp] theorem State.sendFrame_built (s : State) (f : Frame8) : (s.sendFrame f).built = none := rfl
@[simp] theorem State.sendFrame_ret (s : State) (f : Frame8) : (s.sendFrame f).ret = s.ret := rfl
@[simp] theorem State.sendFrame_obs (s : State) (f : Frame8) : (s.sendFrame f).obs = s.obs ++ [.linkWrite (frameBytes f), .trace (.bytesSent (frameBytes f))] := by simp [State.sendFrame, State.emitTrace, State.linkWrite, State.emit]
@[simp] theorem State.sendFrame_verdicts (s : State) (f : Frame8) : (s.sendFrame f).verdicts = s.verdicts := rfl
@[simp] theorem State.sendFrame_link (s : State) (f : Frame8) : (s.sendFrame f).link = s.link := rfl
@[simp] theorem State.sendFrame_draws (s : State) (f : Frame8) : (s.sendFrame f).draws = s.draws := rfl
@[simp] theorem State.sendFrame_inputs (s : State) (f : Frame8) : (s.sendFrame f).inputs = s.inputs := rfl
@[simp] theorem State.sendFrame_captured (s : State) (f : Frame8) : (s.sendFrame f).captured = s.captured := rfl

/-! ## `State.clearBuffer` -/

@[simp] theorem State.clearBuffer_par (s : State) : (s.clearBuffer).par = s.par := rfl
@[simp] theorem State.clearBuffer_session (s : State) : (s.clearBuffer).session = s.session := rfl
@[simp] theorem State.clearBuffer_txf (s : State) : (s.clearBuffer).txf = s.txf := rfl
@[simp] theorem State.clearBuffer_rbuf (s : State) : (s.clearBuffer).rbuf = Memory.cleared := rfl
@[simp] theorem State.clearBuffer_rlen (s : State) : (s.clearBuffer).rlen = 0 := rfl
@[simp] theorem State.clearBuffer_res (s : State) : (s.clearBuffer).res = s.res := rfl
@[simp] theorem State.clearBuffer_ph (s : State) : (s.clearBuffer).ph = .t3 := rfl
@[simp] theorem State.clearBuffer_built (s : State) : (s.clearBuffer).built = s.built := rfl
@[simp] theorem State.clearBuffer_ret (s : State) : (s.clearBuffer).ret = s.ret := rfl
@[simp] theorem State.clearBuffer_obs (s : State) : (s.clearBuffer).obs = s.obs := rfl
@[simp] theorem State.clearBuffer_verdicts (s : State) : (s.clearBuffer).verdicts = s.verdicts := rfl
@[simp] theorem State.clearBuffer_link (s : State) : (s.clearBuffer).link = s.link := rfl
@[simp] theorem State.clearBuffer_draws (s : State) : (s.clearBuffer).draws = s.draws := rfl
@[simp] theorem State.clearBuffer_inputs (s : State) : (s.clearBuffer).inputs = s.inputs := rfl

/-! ## `State.captureChunk` -/

@[simp] theorem State.captureChunk_par (s : State) : (s.captureChunk).par = s.par := rfl
@[simp] theorem State.captureChunk_session (s : State) : (s.captureChunk).session = s.session := rfl
@[simp] theorem State.captureChunk_txf (s : State) : (s.captureChunk).txf = s.txf := rfl
@[simp] theorem State.captureChunk_rbuf (s : State) : (s.captureChunk).rbuf = Memory.writeBytes s.rbuf 0 (s.captureAnswer s.par.cap) := rfl
@[simp] theorem State.captureChunk_rlen (s : State) : (s.captureChunk).rlen = (s.captureAnswer s.par.cap).length := rfl
@[simp] theorem State.captureChunk_res (s : State) : (s.captureChunk).res = s.res := rfl
@[simp] theorem State.captureChunk_ph (s : State) : (s.captureChunk).ph = .t4 := rfl
@[simp] theorem State.captureChunk_built (s : State) : (s.captureChunk).built = s.built := rfl
@[simp] theorem State.captureChunk_ret (s : State) : (s.captureChunk).ret = s.ret := rfl
@[simp] theorem State.captureChunk_obs (s : State) : (s.captureChunk).obs = s.obs ++ [.linkCapture (s.captureAnswer s.par.cap), .trace (.bytesReceived (s.captureAnswer s.par.cap))] := by simp [State.captureChunk, State.emitTrace, State.linkCapture, State.emit, State.captureAnswer]
@[simp] theorem State.captureChunk_verdicts (s : State) : (s.captureChunk).verdicts = s.verdicts := rfl
@[simp] theorem State.captureChunk_link (s : State) : (s.captureChunk).link = s.linkRest s.par.cap := rfl
@[simp] theorem State.captureChunk_draws (s : State) : (s.captureChunk).draws = s.draws + 1 := rfl
@[simp] theorem State.captureChunk_inputs (s : State) : (s.captureChunk).inputs = s.inputs := rfl

end Sys2Proof.Machine
end

