-- ==== Sys2Proof/Laws/Ops.lean ====
section
/-! SUPPORT. The shared operations: what `inSession`, `asHost` and `andThen` answer, what a capture takes from the link, what a verdict changes. -/

namespace Sys2Proof.Machine

theorem inSession_of_active {s : State} (h : s.session = .active) (body : State → Out) : inSession s body = body s := by
  simp [inSession, h]

theorem inSession_of_ended {s : State} (h : s.session = .ended) (body : State → Out) :
    inSession s body = .refused .sessionEnded := by
  simp [inSession, h]

theorem inSession_next {s t : State} {body : State → Out} (h : inSession s body = .next t) :
    s.session = .active ∧ body s = .next t := by
  unfold inSession at h
  split at h
  · exact ⟨‹_›, h⟩
  · cases h

theorem asHost_of_ready {s : State} (h : s.Ready) (body : State → Out) : asHost s body = body s := by
  simp [asHost, inSession, h.1, h.2]

theorem asHost_of_ended {s : State} (h : s.session = .ended) (body : State → Out) :
    asHost s body = .refused .sessionEnded := inSession_of_ended h _

theorem asHost_of_busy {s : State} (h : s.session = .active) (hp : s.ph ≠ .idle) (body : State → Out) :
    asHost s body = .refused .overlappingCall := by
  simp [asHost, inSession, h, hp]

/-- A host operation that answers a next state was begun in a ready state. -/
theorem asHost_next {s t : State} {body : State → Out} (h : asHost s body = .next t) :
    s.Ready ∧ body s = .next t := by
  obtain ⟨ha, h⟩ := inSession_next h
  split at h
  · exact ⟨⟨ha, ‹_›⟩, h⟩
  · cases h

@[simp] theorem andThen_next (s : State) (f : State → Out) : andThen (.next s) f = f s := rfl
@[simp] theorem andThen_refused (r : Refusal) (f : State → Out) : andThen (.refused r) f = .refused r := rfl

theorem andThen_eq_next {o : Out} {f : State → Out} {t : State} (h : andThen o f = .next t) :
    ∃ u, o = .next u ∧ f u = .next t := by
  cases o with
  | next u => exact ⟨u, rfl, h⟩
  | fault r => exact r.casesOn
  | refused r => cases h

/-! ## The link -/

theorem takenAndLeft_perm (keep : Nat → Bool) (i room : Nat) (c : Bytes) :
    ((takenAndLeft keep i room c).1 ++ (takenAndLeft keep i room c).2).Perm c := by
  induction c generalizing i room with
  | nil => exact .nil
  | cons b c ih =>
    rw [takenAndLeft]
    split
    · exact (ih _ _).cons b
    · exact List.perm_middle.trans ((ih _ _).cons b)

theorem takenAndLeft_sublist (keep : Nat → Bool) (i room : Nat) (c : Bytes) :
    (takenAndLeft keep i room c).1.Sublist c ∧ (takenAndLeft keep i room c).2.Sublist c := by
  induction c generalizing i room with
  | nil => exact ⟨.slnil, .slnil⟩
  | cons b c ih =>
    rw [takenAndLeft]
    split
    · exact ⟨(ih _ _).1.cons_cons b, (ih _ _).2.cons b⟩
    · exact ⟨(ih _ _).1.cons b, (ih _ _).2.cons_cons b⟩

theorem takenAndLeft_length (keep : Nat → Bool) (i room : Nat) (c : Bytes) :
    (takenAndLeft keep i room c).1.length ≤ room := by
  induction c generalizing i room with
  | nil => exact Nat.zero_le _
  | cons b c ih =>
    rw [takenAndLeft]
    split
    · rename_i h
      have := ih (i + 1) (room - 1)
      simp only [List.length_cons]
      omega
    · exact ih _ _

/-- Everything a read of a long arrival does: it takes some of its bytes, at most `max` and not none, and leaves
the others. -/
theorem longArrival_spec (max n : Nat) (c : Bytes) :
    ((longArrival max n c).1 ++ (longArrival max n c).2).Perm c ∧ (longArrival max n c).1.Sublist c ∧
      (longArrival max n c).2.Sublist c ∧ (longArrival max n c).1.length ≤ max ∧
      (0 < max → c ≠ [] → (longArrival max n c).1 ≠ []) := by
  unfold longArrival
  dsimp only
  split
  · refine ⟨by simp, List.take_sublist _ _, List.drop_sublist _ _, by simp, fun hm hc => ?_⟩
    simp only [ne_eq, List.take_eq_nil_iff]
    exact fun h => h.elim (by omega) hc
  · rename_i h
    exact ⟨takenAndLeft_perm _ _ _ _, (takenAndLeft_sublist _ _ _ _).1, (takenAndLeft_sublist _ _ _ _).2,
      takenAndLeft_length _ _ _ _, fun _ _ => h⟩

/-- The oracle's answer has at most `max` bytes (43_capture.md R171). -/
theorem captureAnswer_length (s : State) (max : Nat) : (s.captureAnswer max).length ≤ max := by
  unfold State.captureAnswer
  split
  · exact List.length_take_le _ _
  · split
    · assumption
    · exact (longArrival_spec _ _ _).2.2.2.1

/-! ## Verdicts on responses -/

theorem lastVerdict_filter {r x : Bytes} (h : x ≠ r) (vs : List Verdict) :
    lastVerdict x (vs.filter (·.response ≠ r)) = lastVerdict x vs := by
  induction vs with
  | nil => rfl
  | cons v vs ih =>
    by_cases hv : v.response = r
    · have hx : ¬ v.response = x := fun e => h (e.symm.trans hv)
      rw [List.filter_cons_of_neg (by simp [hv]), ih, lastVerdict, if_neg hx]
    · rw [List.filter_cons_of_pos (by simp [hv]), lastVerdict, lastVerdict, ih]

/-- What a verdict changes: the last verdict on its own response. -/
theorem lastVerdict_noteVerdict (r x : Bytes) (k : Kind) (vs : List Verdict) :
    lastVerdict x (noteVerdict r k vs) = if x = r then some k else lastVerdict x vs := by
  by_cases h : x = r
  · simp [noteVerdict, lastVerdict, h]
  · simp only [noteVerdict, lastVerdict, if_neg (Ne.symm h), if_neg h, lastVerdict_filter h]

theorem mem_noteVerdict {r : Bytes} {k : Kind} {v : Verdict} {vs : List Verdict} :
    v ∈ noteVerdict r k vs ↔ v = ⟨r, k⟩ ∨ (v ∈ vs ∧ v.response ≠ r) := by
  simp [noteVerdict]

theorem nodup_noteVerdict {vs : List Verdict} (h : (vs.map Verdict.response).Nodup) (r : Bytes) (k : Kind) :
    ((noteVerdict r k vs).map Verdict.response).Nodup := by
  rw [noteVerdict, List.map_cons, List.nodup_cons]
  exact ⟨by simp, h.sublist (List.filter_sublist.map _)⟩

/-- Only the verdicts and the response decide. -/
theorem accepts_congr {s t : State} (h : s.verdicts = t.verdicts) (r : Bytes) : s.accepts r = t.accepts r := by
  simp only [State.accepts, h]

theorem accepts_iff (s : State) (r : Bytes) : s.accepts r = true ↔ s.MayExtract r := by
  unfold State.accepts
  split <;> rename_i h <;> simp [State.MayExtract, h]

end Sys2Proof.Machine
end

