-- ==== Sys2Proof/Laws/Transaction.lean ====
section
/-! SUPPORT. The transaction: what T1 answers, what each later step answers, and the whole cycle as one update. -/

namespace Sys2Proof.Machine

/-- T1 lets the request pass: the builder makes it, and a read asks for at most `MAX_COUNT` (44_transaction.md R190, R191). -/
abbrev Admitted (p : Params) (fc : Byte) (val : U16) : Prop :=
  Buildable fc val ∧ ¬ (isReadCode fc = true ∧ val.toNat > maxCount p)

theorem startTransact_of_not {s : State} {fc : Byte} {val : U16} (h : ¬ Admitted s.par fc val) (addr : U16) :
    startTransact fc addr val s = s.fail .invalidArgument := by
  unfold startTransact
  by_cases hc : isReadCode fc = true ∧ val.toNat > maxCount s.par
  · simp only [hc]; rfl
  · have hb : ¬ Buildable fc val := fun hb => h ⟨hb, hc⟩
    simp only [hc, if_false, buildRequest_of_not hb]; rfl

theorem startTransact_of_admitted {s : State} {fc : Byte} {val : U16} (h : Admitted s.par fc val) (addr : U16) :
    startTransact fc addr val s =
      { s with ph := .t1, built := some (reqFrame fc addr val),
               obs := s.obs ++ [.trace (.requestBuilt (frameBytes (reqFrame fc addr val)))] } := by
  unfold startTransact
  simp only [h.2, if_false, buildRequest_of_buildable h.1]
  rfl

theorem sendable_reqFrame {p : Params} {fc : Byte} {val : U16} (h : Admitted p fc val) (addr : U16) :
    Sendable p (reqFrame fc addr val) :=
  ⟨isBuilt_reqFrame h.1 addr, fun hr => by
    simp only [frameVal_reqFrame]
    exact Nat.not_lt.1 fun hlt => h.2 ⟨hr, hlt⟩⟩

theorem execSend_of_t1 {s : State} {f : Frame8} (ha : s.session = .active) (hp : s.ph = .t1)
    (hb : s.built = some f) : execSend s = .next (s.sendFrame f) := by
  simp [execSend, inSession, ha, hp, hb]

theorem execClear_of_t2 {s : State} (ha : s.session = .active) (hp : s.ph = .t2) :
    execClear s = .next s.clearBuffer := by
  simp [execClear, inSession, ha, hp]

theorem execCapture_of_t3 {s : State} (ha : s.session = .active) (hp : s.ph = .t3) :
    execCapture s = .next s.captureChunk := by
  simp [execCapture, inSession, ha, hp]

theorem expectStep_of_built {s : State} {f : Frame8} (ht : s.txf = some f) (hf : isBuilt f = true) :
    expectStep s = .next { s with ph := .t5 } := by
  have h : (expectedLength f).isSome = true := by rw [expectedLength_isSome, hf]
  obtain ⟨E, hE⟩ := Option.isSome_iff_exists.1 h
  simp [expectStep, ht, hE]

theorem validateStep_of_ok {s : State} {f : Frame8} {r : Bytes} (ht : s.txf = some f)
    (hv : validateResponse f s.captured = some (.ok r)) :
    validateStep s = .next (({ s with ph := .t6 }.judge s.captured .ok).emitTrace (.validationResult .ok)) := by
  simp [validateStep, ht, hv, Result.kind, State.judge]

theorem validateStep_of_fail {s : State} {f : Frame8} {k : FailKind} (ht : s.txf = some f)
    (hv : validateResponse f s.captured = some (.fail k)) :
    validateStep s =
      .next ((({ s with ph := .t6 }.judge s.captured (.fail k)).emitTrace (.validationResult (.fail k))).fail k) := by
  simp [validateStep, ht, hv, Result.kind, State.judge]

theorem advance_t1 {s : State} (h : s.ph = .t1) : advance s = execSend s := by simp [advance, h]
theorem advance_t2 {s : State} (h : s.ph = .t2) : advance s = execClear s := by simp [advance, h]
theorem advance_t3 {s : State} (h : s.ph = .t3) : advance s = execCapture s := by simp [advance, h]
theorem advance_t4 {s : State} (h : s.ph = .t4) : advance s = expectStep s := by simp [advance, h]
theorem advance_t5 {s : State} (h : s.ph = .t5) : advance s = validateStep s := by simp [advance, h]
theorem advance_t6 {s : State} (h : s.ph = .t6) : advance s = .next s.succeed := by simp [advance, h, finishStep]
theorem advance_t7 {s : State} (h : s.ph = .t7) : advance s = .next s.succeed := by simp [advance, h, finishStep]

theorem runToIdle_of_idle {s : State} (h : s.ph = .idle) (n : Nat) : runToIdle n s = .next s := by
  cases n <;> simp [runToIdle, h]

theorem runToIdle_succ {s t : State} (h : s.ph ≠ .idle) (ha : advance s = .next t) (n : Nat) :
    runToIdle (n + 1) s = runToIdle n t := by
  simp [runToIdle, h, ha]

theorem transaction_of_not {s : State} {fc : Byte} {val : U16} (h : ¬ Admitted s.par fc val) (addr : U16) :
    transaction fc addr val s = .next (s.fail .invalidArgument) := by
  rw [transaction, startTransact_of_not h, runToIdle_of_idle (by simp)]

/-- T5, T6 and T7 from the state that T4 leaves: the outcome is the validator's verdict on the capture. -/
theorem runToIdle_of_t4 {u : State} {f : Frame8} {o : Result} (hp : u.ph = .t4) (ht : u.txf = some f)
    (hv : validateResponse f u.captured = some o) :
    runToIdle 3 u = .next { u with ph := .idle, res := some o, ret := some ⟨o.kind, .bytes o.value⟩,
                                   obs := u.obs ++ [.trace (.validationResult o.kind)],
                                   verdicts := noteVerdict u.captured o.kind u.verdicts } := by
  have hf : isBuilt f = true := by rw [← validateResponse_isSome f u.captured, hv]; rfl
  rw [runToIdle_succ (s := u) (by simp [hp]) ((advance_t4 hp).trans (expectStep_of_built ht hf))]
  cases o with
  | fail k =>
    rw [runToIdle_succ (by simp) ((advance_t5 (by rfl)).trans (validateStep_of_fail (f := f) (k := k) (by exact ht)
      (by exact hv))), runToIdle_of_idle (by simp)]
    rfl
  | ok r =>
    rw [runToIdle_succ (by simp) ((advance_t5 (by rfl)).trans (validateStep_of_ok (f := f) (r := r) (by exact ht)
      (by exact hv))), runToIdle_succ (by simp) (advance_t6 (by simp)), runToIdle_of_idle (by simp)]
    obtain rfl := validateResponse_ok hv
    rfl

/-- From a cleared buffer, the captured bytes are the oracle's answer. -/
theorem captureChunk_captured {u : State} (h : u.rbuf = Memory.cleared) :
    u.captureChunk.captured = u.captureAnswer u.par.cap := by
  unfold State.captured
  simp only [State.captureChunk_rbuf, State.captureChunk_rlen, h]
  exact Memory.slice_writeBytes Memory.cleared Memory.wf_cleared _

/-- Everything a transaction that passes T1 does (44_transaction.md R190). -/
theorem transaction_of_admitted {s : State} {fc : Byte} {val : U16} (hs : s.session = .active)
    (h : Admitted s.par fc val) (addr : U16) :
    ∃ o, validateResponse (reqFrame fc addr val) (s.captureAnswer s.par.cap) = some o ∧
      transaction fc addr val s =
        .next (s.afterCycle (reqFrame fc addr val) (s.captureAnswer s.par.cap) o) := by
  have hsome : (validateResponse (reqFrame fc addr val) (s.captureAnswer s.par.cap)).isSome = true := by
    rw [validateResponse_isSome, isBuilt_reqFrame h.1]
  obtain ⟨o, ho⟩ := Option.isSome_iff_exists.1 hsome
  refine ⟨o, ho, ?_⟩
  rw [transaction, startTransact_of_admitted h]
  rw [runToIdle_succ (t := State.sendFrame _ (reqFrame fc addr val)) (by simp)
    ((advance_t1 (by rfl)).trans (execSend_of_t1 (by exact hs) (by rfl) (by rfl)))]
  rw [runToIdle_succ (by simp) ((advance_t2 (by simp)).trans (execClear_of_t2 (by simpa using hs) (by simp)))]
  rw [runToIdle_succ (by simp) ((advance_t3 (by simp)).trans (execCapture_of_t3 (by simpa using hs) (by simp)))]
  rw [runToIdle_of_t4 (f := reqFrame fc addr val) (o := o) (by simp) (by simp)]
  · rw [captureChunk_captured (by simp)]
    simp [State.afterCycle, State.emitTrace, State.emit, State.captureChunk, State.clearBuffer, State.sendFrame,
      State.linkCapture, State.linkWrite, State.captureAnswer, State.linkRest]
  · rw [captureChunk_captured (by simp), ← ho]
    rfl

end Sys2Proof.Machine
end

