-- ==== Sys2Proof/Laws/Exec.lean ====
section
/-! SUPPORT. Everything an instruction can do: one case for each shape of next state, and what each recipe answers. -/

namespace Sys2Proof.Machine

/-- How a transaction that began in `s` ends: T1 refused it, or one cycle ran (44_transaction.md R190). -/
inductive Cycle (s : State) : State → Prop where
  | refusedLocally : Cycle s (s.fail .invalidArgument)
  | ran (f : Frame8) (o : Result) (hs : Sendable s.par f)
      (hv : validateResponse f (s.captureAnswer s.par.cap) = some o) :
      Cycle s (s.afterCycle f (s.captureAnswer s.par.cap) o)

theorem transaction_cycle {s : State} (hs : s.session = .active) (fc : Byte) (addr val : U16) :
    ∃ t, transaction fc addr val s = .next t ∧ Cycle s t := by
  by_cases h : Admitted s.par fc val
  · obtain ⟨o, ho, ht⟩ := transaction_of_admitted hs h addr
    exact ⟨_, ht, .ran _ o (sendable_reqFrame h addr) ho⟩
  · exact ⟨_, transaction_of_not h addr, .refusedLocally⟩

theorem Cycle.res_isSome {s t : State} (h : Cycle s t) : ∃ o, t.res = some o := by
  cases h with
  | refusedLocally => exact ⟨_, rfl⟩
  | ran f o hs hv => exact ⟨o, rfl⟩

/-- The shapes of a next state that the instruction `i` may answer, by its class. -/
inductive Effect (s : State) (i : Instr) : InstrClass → State → Prop where
  /-- A pure operation returns a value; the builder also records its frame. -/
  | returned (hr : s.Ready) (k : Kind) (v : Value) : Effect s i .pure (s.returns k v)
  /-- VALIDATE also has its verdict noted. -/
  | validated (hr : s.Ready) (f : Frame8) (r : Bytes) (o : Result) (hi : i = .validate f r)
      (hv : validateResponse f r = some o) : Effect s i .pure ((s.judge r o.kind).returns o.kind (.bytes o.value))
  | built (hr : s.Ready) (f : Frame8) (v : Value) :
      Effect s i .pure ((s.emitTrace (.requestBuilt (frameBytes f))).returns .ok v)
  /-- A set recipe rejects its value before the transaction. -/
  | rejected (hr : s.Ready) : Effect s i .transacting (s.returns (.fail .invalidArgument) .unit)
  /-- A transaction ran, and the operation hands its outcome to the host. -/
  | transacted (hr : s.Ready) (u : State) (hc : Cycle s u) (o : Result) (ho : u.res = some o) (v : Value) :
      Effect s i .transacting (u.returns o.kind v)
  /-- The steps T2, T3 and T4 named as instructions. -/
  | sent (ha : s.session = .active) (hp : s.ph = .t1) (f : Frame8) (hb : s.built = some f) :
      Effect s i .transactionStep (s.sendFrame f)
  | cleared (ha : s.session = .active) (hp : s.ph = .t2) : Effect s i .transactionStep s.clearBuffer
  | captured (ha : s.session = .active) (hp : s.ph = .t3) : Effect s i .transactionStep s.captureChunk
  /-- The link delivers. -/
  | delivered (ha : s.session = .active) (c : Bytes) : Effect s i .linkDelivery (s.linkDeliver c)

theorem Cycle.returns_res {s u : State} (hc : Cycle s u) {o : Result} (ho : u.res = some o) :
    u.returns o.kind (.bytes o.value) = u := by
  cases hc with
  | refusedLocally => cases ho; rfl
  | ran f o' hs hv => cases ho; rfl

theorem effect_transaction {i : Instr} {s t : State} (hr : s.Ready) {fc : Byte} {addr val : U16}
    (h : transaction fc addr val s = .next t) : Effect s i .transacting t := by
  obtain ⟨u, hu, hc⟩ := transaction_cycle hr.1 fc addr val
  obtain rfl : u = t := by rw [hu] at h; cases h; rfl
  obtain ⟨o, ho⟩ := hc.res_isSome
  rw [← hc.returns_res ho]
  exact .transacted hr u hc o ho _

theorem effect_getRecipe {i : Instr} {a : Attribute} {dec : Bytes → Option Value} {zero : Value} {s t : State}
    (h : getRecipe a dec zero s = .next t) : Effect s i .transacting t := by
  obtain ⟨hr, h⟩ := asHost_next h
  obtain ⟨u, hu, h⟩ := andThen_eq_next h
  obtain ⟨u', hu', hc⟩ := transaction_cycle hr.1 (attrGetCode a) (regAddrOf s.par a) (attrWords a)
  obtain rfl : u' = u := by rw [hu] at hu'; cases hu'; rfl
  obtain ⟨o, ho⟩ := hc.res_isSome
  rw [ho] at h
  cases o with
  | ok r =>
    simp only at h
    split at h
    · cases h; exact .transacted hr u' hc _ ho _
    · cases h
  | fail k => cases h; exact .transacted hr u' hc _ ho _

theorem effect_setRecipe {i : Instr} {a : Attribute} {valid : U16 → Bool} {v : U16} {s t : State}
    (h : setRecipe a valid v s = .next t) : Effect s i .transacting t := by
  obtain ⟨hr, h⟩ := asHost_next h
  split at h
  · cases h; exact .rejected hr
  · obtain ⟨u, hu, h⟩ := andThen_eq_next h
    obtain ⟨u', hu', hc⟩ := transaction_cycle hr.1 Config.fcWriteSr (regAddrOf s.par a) v
    obtain rfl : u' = u := by rw [hu] at hu'; cases hu'; rfl
    obtain ⟨o, ho⟩ := hc.res_isSome
    rw [ho] at h
    cases h
    exact .transacted hr u' hc _ ho _

theorem effect_returnBuilt {i : Instr} {s t : State} (hr : s.Ready) {fc : Byte} {addr val : U16}
    (h : returnBuilt fc addr val s = .next t) : Effect s i .pure t := by
  unfold returnBuilt at h
  split at h
  · cases h; exact .built hr _ _
  · cases h; exact .returned hr _ _

theorem effect_buildRow {i : Instr} {s t : State} {fc : Byte} {addr val crc : U16}
    (h : buildRow fc addr val crc s = .next t) : Effect s i .pure t := by
  obtain ⟨hr, h⟩ := asHost_next h
  split at h
  · split at h
    · exact effect_returnBuilt hr h
    · cases h
  · exact effect_returnBuilt hr h

theorem effect_returns {i : Instr} {s t : State} {k : Kind} {v : Value}
    (h : asHost s (fun s => .next (s.returns k v)) = .next t) : Effect s i .pure t := by
  obtain ⟨hr, h⟩ := asHost_next h
  cases h
  exact .returned hr _ _

theorem effect_expectedLen {i : Instr} {f : Frame8} {s t : State} (h : execExpectedLen f s = .next t) : Effect s i .pure t := by
  obtain ⟨hr, h⟩ := asHost_next h
  split at h
  · cases h; exact .returned hr _ _
  · cases h

theorem effect_validate {f : Frame8} {r : Bytes} {s t : State} (h : execValidate f r s = .next t) :
    Effect s (.validate f r) .pure t := by
  obtain ⟨hr, h⟩ := asHost_next h
  split at h
  · cases h; exact .validated hr f r _ rfl (by assumption)
  · cases h

theorem effect_extraction {i : Instr} {r : Bytes} {v : Option Value} {s t : State} (h : extraction r v s = .next t) :
    Effect s i .pure t := by
  obtain ⟨hr, h⟩ := asHost_next h
  split at h
  · cases h
  · split at h
    · cases h; exact .returned hr _ _
    · cases h

theorem effect_deliver {i : Instr} {c : Bytes} {s t : State} (h : deliverResponse c s = .next t) : Effect s i .linkDelivery t := by
  obtain ⟨ha, h⟩ := inSession_next h
  cases h
  exact .delivered ha c

theorem effect_send {i : Instr} {s t : State} (h : execSend s = .next t) : Effect s i .transactionStep t := by
  obtain ⟨ha, h⟩ := inSession_next h
  split at h
  · cases h; exact .sent ha (by assumption) _ (by assumption)
  · cases h

theorem effect_clear {i : Instr} {s t : State} (h : execClear s = .next t) : Effect s i .transactionStep t := by
  obtain ⟨ha, h⟩ := inSession_next h
  split at h
  · cases h; exact .cleared ha (by assumption)
  · cases h

theorem effect_capture {i : Instr} {s t : State} (h : execCapture s = .next t) : Effect s i .transactionStep t := by
  obtain ⟨ha, h⟩ := inSession_next h
  split at h
  · cases h; exact .captured ha (by assumption)
  · cases h

/-- An instruction that answers a next state has one of the effects of its class. -/
theorem exec_effect {i : Instr} {s t : State} (h : exec i s = .next t) : Effect s i i.cls t := by
  cases i with
  | reqReadHr a v c => exact effect_buildRow (fc := Config.fcReadHr) h
  | reqReadIr a v c => exact effect_buildRow (fc := Config.fcReadIr) h
  | reqWriteSr a v c => exact effect_buildRow (fc := Config.fcWriteSr) h
  | rresp fc p => exact effect_deliver h
  | wresp a v => exact effect_deliver h
  | crc16 bs => exact effect_returns h
  | crcAppend bs => exact effect_returns h
  | build fc a v => obtain ⟨hr, h⟩ := asHost_next h; exact effect_returnBuilt hr h
  | expectedLen f => exact effect_expectedLen h
  | validate f r => exact effect_validate h
  | extractU16 r off => exact effect_extraction h
  | extractU32 r off => exact effect_extraction h
  | extractBytes r off k => exact effect_extraction h
  | transact fc a v => obtain ⟨hr, h⟩ := asHost_next h; exact effect_transaction hr h
  | crcByte c b => exact effect_returns h
  | send => exact effect_send h
  | clear => exact effect_clear h
  | capture => exact effect_capture h
  | readHr a c => obtain ⟨hr, h⟩ := asHost_next h; exact effect_transaction hr h
  | readIr a c => obtain ⟨hr, h⟩ := asHost_next h; exact effect_transaction hr h
  | writeHr a v => obtain ⟨hr, h⟩ := asHost_next h; exact effect_transaction hr h
  | getSerialNumber => exact effect_getRecipe h
  | getSoftwareVersion => exact effect_getRecipe h
  | getCo2 => exact effect_getRecipe h
  | getTemperature => exact effect_getRecipe h
  | getAbcPeriod => exact effect_getRecipe h
  | setAbcPeriod v => exact effect_setRecipe h
  | setUserConcentration v => exact effect_setRecipe h
  | getUserConcentration => exact effect_getRecipe h
  | getUserAck => exact effect_getRecipe h
  | setUserAck v => exact effect_setRecipe h
  | setSpecialCommand v => exact effect_setRecipe h
  | getMeterStatus => exact effect_getRecipe h
  | getOutputStatus => exact effect_getRecipe h
  | getPwmOutput => exact effect_getRecipe h
  | getSensorTypeId => exact effect_getRecipe h
  | getSensorId => exact effect_getRecipe h
  | getMemoryMapVersion => exact effect_getRecipe h

/-! ## Extractions -/

/-- Everything an extraction can do in a ready state: it is refused past the end, refused from a response that a host
may not extract from, and otherwise returns its value. -/
theorem extraction_of_ready {s : State} (hr : s.Ready) (r : Bytes) (v : Option Value) :
    (v = none → extraction r v s = .refused .extractPastEnd) ∧
    (∀ x, v = some x → s.MayExtract r → extraction r v s = .next (s.returns .ok x)) ∧
    ∀ x, v = some x → ¬ s.MayExtract r → extraction r v s = .refused .responseNotAccepted := by
  rw [extraction, asHost_of_ready hr]
  refine ⟨?_, ?_, ?_⟩
  · rintro rfl
    rfl
  · rintro x rfl h
    exact if_pos ((accepts_iff s r).2 h)
  · rintro x rfl h
    exact if_neg fun ha => h ((accepts_iff s r).1 ha)

/-! ## The recipes -/

/-- A get recipe completes in every ready state where its decoder reads every accepted response: the state is
the transaction's, with the decoded value or the zero beside the kind (45_register_ops.md R211, R213). -/
theorem getRecipe_of_ready {s : State} (hr : s.Ready) (a : Attribute) {dec : Bytes → Option Value} (zero : Value)
    (hdec : ∀ f r, validateResponse f r = some (.ok r) →
      f = reqFrame (attrGetCode a) (regAddrOf s.par a) (attrWords a) → (dec r).isSome = true) :
    ∃ u t, transaction (attrGetCode a) (regAddrOf s.par a) (attrWords a) s = .next u ∧
      getRecipe a dec zero s = .next t ∧
      (∀ k, u.res = some (.fail k) → t = u.returns (.fail k) zero) ∧
      ∀ r, u.res = some (.ok r) → ∃ v, dec r = some v ∧ t = u.returns .ok v := by
  have hw : ∀ u, transaction (attrGetCode a) (regAddrOf s.par a) (attrWords a) s = .next u →
      getRecipe a dec zero s = match u.res with
        | some (.ok r) => (match dec r with | some v => .next (u.returns .ok v) | none => .refused .extractPastEnd)
        | some (.fail k) => .next (u.returns (.fail k) zero)
        | none => .next u := by
    intro u hu
    rw [getRecipe, asHost_of_ready hr, hu, andThen_next]
    all_goals rfl
  have fin : ∀ u o, transaction (attrGetCode a) (regAddrOf s.par a) (attrWords a) s = .next u → u.res = some o →
      (∀ r, o = .ok r → (dec r).isSome = true) → ∃ u t,
        transaction (attrGetCode a) (regAddrOf s.par a) (attrWords a) s = .next u ∧
        getRecipe a dec zero s = .next t ∧ (∀ k, u.res = some (.fail k) → t = u.returns (.fail k) zero) ∧
        ∀ r, u.res = some (.ok r) → ∃ v, dec r = some v ∧ t = u.returns .ok v := by
    intro u o hu ho hd
    have hg := hw u hu
    rw [ho] at hg
    cases o with
    | fail k =>
      refine ⟨u, u.returns (.fail k) zero, hu, hg, fun k' hk' => ?_, fun r hr' => ?_⟩
      · rw [ho] at hk'; cases hk'; rfl
      · rw [ho] at hr'; cases hr'
    | ok r =>
      obtain ⟨v, hv⟩ := Option.isSome_iff_exists.1 (hd r rfl)
      simp only [hv] at hg
      refine ⟨u, u.returns .ok v, hu, hg, fun k' hk' => ?_, fun r' hr' => ?_⟩
      · rw [ho] at hk'; cases hk'
      · rw [ho] at hr'; cases hr'; exact ⟨v, hv, rfl⟩
  by_cases h : Admitted s.par (attrGetCode a) (attrWords a)
  · obtain ⟨o, ho, ht⟩ := transaction_of_admitted hr.1 h (regAddrOf s.par a)
    refine fin _ o ht rfl fun r hro => ?_
    subst hro
    obtain rfl := validateResponse_ok ho
    exact hdec _ _ ho rfl
  · exact fin _ (.fail .invalidArgument) (transaction_of_not h (regAddrOf s.par a)) rfl fun r hro => by cases hro

/-- A set recipe whose value is in range completes in every ready state with the transaction's kind (R212). -/
theorem setRecipe_of_valid {s : State} (hr : s.Ready) (a : Attribute) {valid : U16 → Bool} {v : U16}
    (hv : valid v = true) :
    ∃ u o, transaction Config.fcWriteSr (regAddrOf s.par a) v s = .next u ∧ u.res = some o ∧
      setRecipe a valid v s = .next (u.returns o.kind .unit) := by
  obtain ⟨u, hu, hc⟩ := transaction_cycle hr.1 Config.fcWriteSr (regAddrOf s.par a) v
  obtain ⟨o, ho⟩ := hc.res_isSome
  refine ⟨u, o, hu, ho, ?_⟩
  rw [setRecipe, asHost_of_ready hr]
  simp [hv, hu, ho]

/-- A set recipe whose value is out of range runs no transaction (R212). -/
theorem setRecipe_of_invalid {s : State} (hr : s.Ready) (a : Attribute) {valid : U16 → Bool} {v : U16}
    (hv : valid v = false) : setRecipe a valid v s = .next (s.returns (.fail .invalidArgument) .unit) := by
  rw [setRecipe, asHost_of_ready hr]
  simp [hv]

end Sys2Proof.Machine
end

