-- ==== Sys2Proof/Laws/PerInstr.lean ====
section
/-! SUPPORT. A statement about the syntax of every instruction, one lemma for each constructor. -/

namespace Sys2Proof.Laws.EncodingHead

/-- The rows that are request frames (30_encoding.md R70). -/
def isRequestRow : Instr → Bool
  | .reqReadHr _ _ _ | .reqReadIr _ _ _ | .reqWriteSr _ _ _ => true
  | _ => false

/-- An instruction's encoding starts with the device byte 0xFE exactly for the request rows, so a written
operation is never taken for a frame (30_encoding.md R61, R76; log 2). -/
def Statement (i : Instr) : Prop := (encode i).head? = some Config.devAddr ↔ isRequestRow i = true

theorem of_head {i : Instr} {b : Byte} (h : (encode i).head? = some b) (hb : b ≠ Config.devAddr)
    (hr : isRequestRow i = false) : Statement i := by
  simp [Statement, h, hr, hb]

theorem of_frame {i : Instr} (h : (encode i).head? = some Config.devAddr) (hr : isRequestRow i = true) : Statement i := by
  simp [Statement, h, hr]

theorem reqReadHr (addr val crc : U16) : Statement (.reqReadHr addr val crc) := of_frame rfl rfl
theorem reqReadIr (addr val crc : U16) : Statement (.reqReadIr addr val crc) := of_frame rfl rfl
theorem reqWriteSr (addr val crc : U16) : Statement (.reqWriteSr addr val crc) := of_frame rfl rfl
theorem rresp (fc : Byte) (payload : Bytes) : Statement (.rresp fc payload) := of_head rfl (by decide) rfl
theorem wresp (addr val : U16) : Statement (.wresp addr val) := of_head rfl (by decide) rfl
theorem crc16 (s : Bytes) : Statement (.crc16 s) := of_head rfl (by decide) rfl
theorem crcAppend (s : Bytes) : Statement (.crcAppend s) := of_head rfl (by decide) rfl
theorem build (fc : Byte) (addr val : U16) : Statement (.build fc addr val) := of_head rfl (by decide) rfl
theorem expectedLen (f : Frame8) : Statement (.expectedLen f) := of_head rfl (by decide) rfl
theorem validate (f : Frame8) (r : Bytes) : Statement (.validate f r) := of_head rfl (by decide) rfl
theorem extractU16 (r : Bytes) (off : Nat) : Statement (.extractU16 r off) := of_head rfl (by decide) rfl
theorem extractU32 (r : Bytes) (off : Nat) : Statement (.extractU32 r off) := of_head rfl (by decide) rfl
theorem extractBytes (r : Bytes) (off k : Nat) : Statement (.extractBytes r off k) := of_head rfl (by decide) rfl
theorem transact (fc : Byte) (addr val : U16) : Statement (.transact fc addr val) := of_head rfl (by decide) rfl
theorem crcByte (c : U16) (b : Byte) : Statement (.crcByte c b) := of_head rfl (by decide) rfl
theorem send : Statement .send := of_head rfl (by decide) rfl
theorem clear : Statement .clear := of_head rfl (by decide) rfl
theorem capture : Statement .capture := of_head rfl (by decide) rfl
theorem readHr (addr count : U16) : Statement (.readHr addr count) := of_head rfl (by decide) rfl
theorem readIr (addr count : U16) : Statement (.readIr addr count) := of_head rfl (by decide) rfl
theorem writeHr (addr value : U16) : Statement (.writeHr addr value) := of_head rfl (by decide) rfl
theorem getSerialNumber : Statement .getSerialNumber := of_head rfl (by decide) rfl
theorem getSoftwareVersion : Statement .getSoftwareVersion := of_head rfl (by decide) rfl
theorem getCo2 : Statement .getCo2 := of_head rfl (by decide) rfl
theorem getTemperature : Statement .getTemperature := of_head rfl (by decide) rfl
theorem getAbcPeriod : Statement .getAbcPeriod := of_head rfl (by decide) rfl
theorem setAbcPeriod (v : U16) : Statement (.setAbcPeriod v) := of_head rfl (by decide) rfl
theorem setUserConcentration (v : U16) : Statement (.setUserConcentration v) := of_head rfl (by decide) rfl
theorem getUserConcentration : Statement .getUserConcentration := of_head rfl (by decide) rfl
theorem getUserAck : Statement .getUserAck := of_head rfl (by decide) rfl
theorem setUserAck (v : U16) : Statement (.setUserAck v) := of_head rfl (by decide) rfl
theorem setSpecialCommand (v : U16) : Statement (.setSpecialCommand v) := of_head rfl (by decide) rfl
theorem getMeterStatus : Statement .getMeterStatus := of_head rfl (by decide) rfl
theorem getOutputStatus : Statement .getOutputStatus := of_head rfl (by decide) rfl
theorem getPwmOutput : Statement .getPwmOutput := of_head rfl (by decide) rfl
theorem getSensorTypeId : Statement .getSensorTypeId := of_head rfl (by decide) rfl
theorem getSensorId : Statement .getSensorId := of_head rfl (by decide) rfl
theorem getMemoryMapVersion : Statement .getMemoryMapVersion := of_head rfl (by decide) rfl

end Sys2Proof.Laws.EncodingHead
end

