-- ==== Sys2Proof/Laws/Step.lean ====
section
/-! SUPPORT. Everything a step can do: it takes an input line, or it carries on the transaction in progress. -/

namespace Sys2Proof.Machine

/-- Taking the line writes only the input and the link. -/
theorem afterFetch_eq (s : State) : ∃ inputs link, s.afterFetch = { s with inputs := inputs, link := link } := by
  unfold State.afterFetch
  split
  · exact ⟨_, _, rfl⟩
  · split
    · exact ⟨_, _, rfl⟩
    · split <;> exact ⟨_, _, rfl⟩

/-- What a step that answers a next state has done. -/
theorem step_cases {s t : State} (h : step s = .next t) :
    (s.ph = .idle ∧ (t = s ∨ t = s.afterFetch ∨ (∃ c, t = s.afterFetch.linkDeliver c) ∨
      ∃ i, exec i s.afterFetch = .next t)) ∨
    (s.ph ≠ .idle ∧ s.session = .active ∧ advance s = .next t) := by
  unfold step at h
  split at h
  case h_1 hp =>
    left
    refine ⟨hp, ?_⟩
    split at h
    · cases h; exact .inl rfl
    · unfold runLine at h
      split at h
      · cases h
      · cases h; exact .inr (.inl rfl)
      · unfold deliverResponse at h
        obtain ⟨-, h⟩ := inSession_next h
        cases h
        exact .inr (.inr (.inl ⟨_, rfl⟩))
      · split at h
        · exact .inr (.inr (.inr ⟨_, h⟩))
        · cases h
  all_goals
    right
    obtain ⟨ha, h⟩ := inSession_next h
    exact ⟨by simp_all, ha, h⟩

/-- The steps of a transaction, as updates (44_transaction.md R190). -/
inductive Advance (s : State) : State → Prop where
  | idle (hp : s.ph = .idle) : Advance s s
  | sent (ha : s.session = .active) (hp : s.ph = .t1) (f : Frame8) (hb : s.built = some f) :
      Advance s (s.sendFrame f)
  | cleared (ha : s.session = .active) (hp : s.ph = .t2) : Advance s s.clearBuffer
  | captured (ha : s.session = .active) (hp : s.ph = .t3) : Advance s s.captureChunk
  | expected (hp : s.ph = .t4) (f : Frame8) (hf : s.txf = some f) (hb : isBuilt f = true) :
      Advance s { s with ph := .t5 }
  | accepted (hp : s.ph = .t5) (f : Frame8) (hf : s.txf = some f)
      (hv : validateResponse f s.captured = some (.ok s.captured)) :
      Advance s (({ s with ph := .t6 }.judge s.captured .ok).emitTrace (.validationResult .ok))
  | rejected (hp : s.ph = .t5) (f : Frame8) (hf : s.txf = some f) (k : FailKind)
      (hv : validateResponse f s.captured = some (.fail k)) :
      Advance s ((({ s with ph := .t6 }.judge s.captured (.fail k)).emitTrace (.validationResult (.fail k))).fail k)
  | finished (hp : s.ph = .t6 ∨ s.ph = .t7) : Advance s s.succeed

theorem advance_cases {s t : State} (h : advance s = .next t) : Advance s t := by
  unfold advance at h
  split at h
  · cases h; exact .idle (by assumption)
  · have he := effect_send (i := .send) h
    cases he <;> [exact .sent (by assumption) (by assumption) _ (by assumption); simp_all; simp_all]
  · have he := effect_clear (i := .clear) h
    cases he <;> [simp_all; exact .cleared (by assumption) (by assumption); simp_all]
  · have he := effect_capture (i := .capture) h
    cases he <;> [simp_all; simp_all; exact .captured (by assumption) (by assumption)]
  · unfold expectStep at h
    split at h
    · rename_i E hE
      cases h
      obtain ⟨f, hf, hE⟩ := Option.bind_eq_some_iff.1 hE
      exact .expected (by assumption) f hf (by rw [← expectedLength_isSome, hE]; rfl)
    · cases h
  · unfold validateStep at h
    split at h
    · cases h
    · rename_i v hv
      obtain ⟨f, hf, hv⟩ := Option.bind_eq_some_iff.1 hv
      cases v with
      | ok r =>
        cases h
        obtain rfl := validateResponse_ok hv
        exact .accepted (by assumption) f hf hv
      | fail k => cases h; exact .rejected (by assumption) f hf k hv
  · cases h; exact .finished (.inl (by assumption))
  · cases h; exact .finished (.inr (by assumption))

end Sys2Proof.Machine
end

