-- ==== Sys2Proof/Tests/Slice0.lean ====
section
/-! SUPPORT. The model's own tests: ill-formed terms refused, words decoded, single steps, a witness for the hypotheses of every statement. -/

set_option Elab.async false

namespace Sys2Proof.Tests

open Sys2Proof Sys2Proof.Machine

/-! ## Helpers -/

/-- The parameters of 95_test_vectors.md: CAP = 20, and its example addresses. -/
def tp : Params :=
  { cap := 20
    timeoutS := 1
    regAddr :=
      { meter := 0x0000, output := 0x0001, co2 := 0x0003, pwm := 0x0015, typeId := 0x000A, mmapVer := 0x001B,
        fwVer := 0x001C, sensId := 0x000A, serial := 0x000A, abc := 0x001F, ack := 0x0000, special := 0x0001,
        conc := 0x0020 } }

/-- The reset state with those parameters, the link's next answer being `c`. -/
def t0 (c : Bytes) : State := { State.resetWith tp with link := [c] }

/-- The next state, where there is one. -/
def nextOf : Out → Option State
  | .next t => some t
  | .fault r => nomatch r
  | .refused _ => none

/-- The refusal, where there is one. -/
def refusalOf : Out → Option Refusal
  | .refused r => some r
  | _ => none

/-- What the operation returns to the host. -/
def retOf (o : Out) : Option Ret := (nextOf o).bind State.ret

/-- The registers `txf`, `rlen`, the captured bytes and `res`, after an operation. -/
def regsOf (o : Out) : Option (Option Frame8 × Nat × Bytes × Option Result) :=
  (nextOf o).map fun t => (t.txf, t.rlen, t.captured, t.res)

/-- The decoded instruction, where there is one. -/
def decoded (bs : Bytes) : Option Instr :=
  match decode bs with
  | .ok i => some i
  | .error _ => none

/-- The decoder's reason, where it refuses. -/
def whyNot (bs : Bytes) : Option DecodeError :=
  match decode bs with
  | .ok _ => none
  | .error e => some e

/-- FE 04 00 04 00 01 64 04, the temperature request (V3). -/
def reqTemp : Frame8 := ⟨0xFE, 0x04, 0x00, 0x04, 0x00, 0x01, 0x64, 0x04⟩
/-- FE 06 00 1F 12 C0 A0 F3 (V11). -/
def reqWrite : Frame8 := ⟨0xFE, 0x06, 0x00, 0x1F, 0x12, 0xC0, 0xA0, 0xF3⟩
/-- FE 04 02 30 D4 B9 7B (V12). -/
def respTemp : Bytes := [0xFE, 0x04, 0x02, 0x30, 0xD4, 0xB9, 0x7B]
/-- FE 04 04 00 01 E2 40 EC 1B (V12). -/
def respLong : Bytes := [0xFE, 0x04, 0x04, 0x00, 0x01, 0xE2, 0x40, 0xEC, 0x1B]
/-- FE 04 0A 41 42 43 31 32 00 00 00 00 00 9E C5 (V13). -/
def respSerial : Bytes := [0xFE, 0x04, 0x0A, 0x41, 0x42, 0x43, 0x31, 0x32, 0x00, 0x00, 0x00, 0x00, 0x00, 0x9E, 0xC5]
/-- FE 06 00 1F 12 C0 A0 F3 as bytes. -/
def echoWrite : Bytes := [0xFE, 0x06, 0x00, 0x1F, 0x12, 0xC0, 0xA0, 0xF3]

/-! ## WellFormed: each check refuses an ill-formed term (30_encoding.md R62, R64, R65) -/

theorem test_wf_reqReadHr_crc : (Instr.reqReadHr 0x0000 0x0001 0x0590).wf = true ∧
    (Instr.reqReadHr 0x0000 0x0001 0x0591).wf = false := by decide +kernel
theorem test_wf_reqReadHr_count : (Instr.reqReadHr 0 0 (crc16 (reqBody 0x03 0 0))).wf = false := by decide +kernel
theorem test_wf_reqReadIr_crc : (Instr.reqReadIr 0x0004 0x0001 0x0464).wf = true ∧
    (Instr.reqReadIr 0x0004 0x0001 0x6404).wf = false := by decide +kernel
theorem test_wf_reqReadIr_count : (Instr.reqReadIr 4 0 (crc16 (reqBody 0x04 4 0))).wf = false := by decide +kernel
theorem test_wf_reqWriteSr_crc : (Instr.reqWriteSr 0x001F 0x0000 0x03AC).wf = true ∧
    (Instr.reqWriteSr 0x001F 0x0000 0x03AD).wf = false := by decide +kernel
theorem test_wf_rresp : (Instr.rresp 0x04 [0x30, 0xD4]).wf = true ∧ (Instr.rresp 0x06 [0x30, 0xD4]).wf = false ∧
    (Instr.rresp 0x04 [0x30]).wf = false ∧ (Instr.rresp 0x03 (List.replicate 256 0)).wf = false := by decide +kernel

/-! ## Decode: words and lines written out from the spec's encodings (R61, R65, R66, R71, R76, R77) -/

theorem test_decode_frames :
    decoded [0xFE, 0x03, 0x00, 0x1F, 0x00, 0x01, 0xA1, 0xC3] = some (.reqReadHr 0x001F 0x0001 0xC3A1) ∧
    decoded [0xFE, 0x04, 0x00, 0x04, 0x00, 0x01, 0x64, 0x04] = some (.reqReadIr 0x0004 0x0001 0x0464) ∧
    decoded [0xFE, 0x06, 0x12, 0x34, 0xAB, 0xCD, 0x67, 0xD6] = some (.reqWriteSr 0x1234 0xABCD 0xD667) ∧
    decoded (ascii "FE 06 12 34 AB CD 67 D6".toList) = some (.reqWriteSr 0x1234 0xABCD 0xD667) := by decide +kernel

theorem test_decode_frames_refused :
    whyNot [0xFE, 0x05, 0x00, 0x00, 0xFF, 0x00, 0x98, 0x35] = some .frameFunctionCode ∧
    whyNot [0xFE, 0x04, 0x00, 0x04, 0x00, 0x01] = some .frameLength ∧
    whyNot (ascii "01 04 00 04 00 01 64 04".toList) = some .frameDevice := by decide +kernel

theorem test_decode_responses :
    decoded (ascii "LINK <- FE 04 02 30 D4 B9 7B".toList) = some (.rresp 0x04 [0x30, 0xD4]) ∧
    decoded (ascii "LINK <- FE 06 00 1F 12 C0 A0 F3".toList) = some (.wresp 0x001F 0x12C0) ∧
    whyNot (ascii "LINK <- FE 04 02 31 D4 B9 7B".toList) = some .notAResponse := by decide +kernel

theorem test_decode_crc :
    decoded (ascii "CRC16 [FE 04 00 04 00 01]".toList) = some (.crc16 [0xFE, 0x04, 0x00, 0x04, 0x00, 0x01]) ∧
    decoded (ascii "CRC_APPEND []".toList) = some (.crcAppend []) ∧
    decoded (ascii "CRC_BYTE 0xFFFF, 254".toList) = some (.crcByte 0xFFFF 0xFE) := by decide +kernel

theorem test_decode_codec :
    decoded (ascii "BUILD 0x04, 0x0004, 0x0001".toList) = some (.build 0x04 0x0004 0x0001) ∧
    decoded (ascii "EXPECTED_LEN [FE 04 00 04 00 01 64 04]".toList) = some (.expectedLen reqTemp) ∧
    decoded (ascii "VALIDATE [FE 04 00 04 00 01 64 04], [FE 04 02 30 D4 B9 7B]".toList) = some (.validate reqTemp respTemp) ∧
    decoded (ascii "EXTRACT_U16 [FE 04 02 30 D4 B9 7B], 3".toList) = some (.extractU16 respTemp 3) ∧
    decoded (ascii "EXTRACT_U32 [FE 04 04 00 01 E2 40 EC 1B], 3".toList) = some (.extractU32 respLong 3) ∧
    decoded (ascii "EXTRACT_BYTES [FE 04 02 30 D4 B9 7B], 3, 2".toList) = some (.extractBytes respTemp 3 2) := by
  decide +kernel

theorem test_decode_transaction :
    decoded (ascii "TRANSACT 0x04, 0x0004, 1".toList) = some (.transact 0x04 0x0004 1) ∧
    decoded (ascii "SEND".toList) = some .send ∧ decoded (ascii "CLEAR".toList) = some .clear ∧
    decoded (ascii "CAPTURE".toList) = some .capture ∧
    decoded (ascii "READ_HR 0x001F, 1".toList) = some (.readHr 0x001F 1) ∧
    decoded (ascii "READ_IR 4, 1".toList) = some (.readIr 0x0004 1) ∧
    decoded (ascii "WRITE_HR 0x001F, 4800".toList) = some (.writeHr 0x001F 0x12C0) := by decide +kernel

theorem test_decode_gets :
    decoded (ascii "GET_SERIAL_NUMBER".toList) = some .getSerialNumber ∧
    decoded (ascii "GET_SOFTWARE_VERSION".toList) = some .getSoftwareVersion ∧
    decoded (ascii "GET_CO2".toList) = some .getCo2 ∧
    decoded (ascii "GET_TEMPERATURE   ; = TRANSACT 0x04, 0x0004, 1".toList) = some .getTemperature ∧
    decoded (ascii "GET_ABC_PERIOD".toList) = some .getAbcPeriod ∧
    decoded (ascii "GET_USER_CONCENTRATION".toList) = some .getUserConcentration ∧
    decoded (ascii "GET_USER_ACK".toList) = some .getUserAck ∧
    decoded (ascii "GET_METER_STATUS".toList) = some .getMeterStatus ∧
    decoded (ascii "GET_OUTPUT_STATUS".toList) = some .getOutputStatus ∧
    decoded (ascii "GET_PWM_OUTPUT".toList) = some .getPwmOutput ∧
    decoded (ascii "GET_SENSOR_TYPE_ID".toList) = some .getSensorTypeId ∧
    decoded (ascii "GET_SENSOR_ID".toList) = some .getSensorId ∧
    decoded (ascii "GET_MEMORY_MAP_VERSION".toList) = some .getMemoryMapVersion := by decide +kernel

theorem test_decode_sets :
    decoded (ascii "SET_ABC_PERIOD 4800".toList) = some (.setAbcPeriod 0x12C0) ∧
    decoded (ascii "SET_USER_CONCENTRATION 0x190".toList) = some (.setUserConcentration 400) ∧
    decoded (ascii "SET_USER_ACK 0xFFFF".toList) = some (.setUserAck 0xFFFF) ∧
    decoded (ascii "SET_SPECIAL_COMMAND 0".toList) = some (.setSpecialCommand 0) := by decide +kernel

theorem test_decode_lines_refused :
    whyNot (ascii "  ; only a comment".toList) = some .emptyLine ∧
    whyNot (ascii "SET_USER_ACK 70000".toList) = some .operandDoesNotFit ∧
    whyNot (ascii "BUILD 256, 0, 1".toList) = some .operandDoesNotFit ∧
    whyNot (ascii "EXPECTED_LEN [FE 04 00 04]".toList) = some .operandDoesNotFit ∧
    whyNot (ascii "GET_SPECIAL_COMMAND".toList) = some .unknownMnemonic ∧
    whyNot (ascii "SEND 1".toList) = some .wrongOperands ∧
    whyNot (ascii "READ_HR 1,".toList) = some .malformedOperands := by decide +kernel

theorem test_table_words :
    decodeTableWord 64 0xFE04000400016404 = some (.reqReadIr 0x0004 0x0001 0x0464) ∧
    decodeTableWord 64 0xFE03001F0001A1C3 = some (.reqReadHr 0x001F 0x0001 0xC3A1) ∧
    decodeTableWord 64 0xFE06001F12C0A0F3 = some (.reqWriteSr 0x001F 0x12C0 0xF3A0) ∧
    decodeTableWord 64 0xFE0500000000FF00 = none := by decide +kernel

/-! ## The CRC engine (95_test_vectors.md V1, V2) -/

theorem test_crc16_vector : crc16 [0xFE, 0x04, 0x00, 0x04, 0x00, 0x01] = 0x0464 ∧
    crc16 [0x01, 0x03, 0x00, 0x00, 0x00, 0x0A] = 0xCDC5 := by decide +kernel
theorem test_crc16_single : crc16 [0x00] = 0x40BF ∧ crc16 [0xFF] = 0x00FF ∧ crc16 [0x01] = 0x807E := by decide +kernel
theorem test_crcByte : retOf (exec (.crcByte 0xFFFF 0xFE) (t0 [])) = some ⟨.ok, .u16 0xC03E⟩ := by decide +kernel
theorem test_crcAppend : retOf (exec (.crcAppend [0xFE, 0x06, 0x12, 0x34, 0xAB, 0xCD]) (t0 [])) =
    some ⟨.ok, .bytes [0xFE, 0x06, 0x12, 0x34, 0xAB, 0xCD, 0x67, 0xD6]⟩ := by decide +kernel

/-! ## The builder (V11) -/

theorem test_build_ok : retOf (exec (.build 0x04 0xFFFF 0xFFFF) (t0 [])) =
    some ⟨.ok, .bytes [0xFE, 0x04, 0xFF, 0xFF, 0xFF, 0xFF, 0xE5, 0x91]⟩ := by decide +kernel
theorem test_build_refused : retOf (exec (.build 0x83 0x0000 0x0001) (t0 [])) =
    some ⟨.fail .invalidArgument, .bytes []⟩ := by decide +kernel
theorem test_reqReadHr : retOf (exec (.reqReadHr 0x0000 0x0001 0x0590) (t0 [])) =
    some ⟨.ok, .bytes [0xFE, 0x03, 0x00, 0x00, 0x00, 0x01, 0x90, 0x05]⟩ := by decide +kernel
theorem test_reqReadIr_zero : retOf (exec (.reqReadIr 0x0004 0x0000 0x0000) (t0 [])) =
    some ⟨.fail .invalidArgument, .bytes []⟩ := by decide +kernel
theorem test_reqWriteSr : retOf (exec (.reqWriteSr 0x001F 0x0000 0x03AC) (t0 [])) =
    some ⟨.ok, .bytes [0xFE, 0x06, 0x00, 0x1F, 0x00, 0x00, 0xAC, 0x03]⟩ := by decide +kernel

/-! ## The validator and the extractors (V4, V5, V12, V13) -/

theorem test_expectedLen : expectedLength reqTemp = some 7 ∧ expectedLength reqWrite = some 8 ∧
    expectedLength ⟨0xFE, 0x04, 0xFF, 0xFF, 0xFF, 0xFF, 0xE5, 0x91⟩ = some 131075 ∧
    expectedLength ⟨0xFE, 0x05, 0x00, 0x00, 0xFF, 0x00, 0x98, 0x35⟩ = none := by decide +kernel
theorem test_validate_read :
    validateResponse reqTemp respTemp = some (.ok respTemp) ∧
    validateResponse reqTemp [] = some (.fail .timeout) ∧
    validateResponse reqTemp [0xFE, 0x04, 0x02, 0x30, 0xD4, 0xB9, 0x7B, 0x00] = some (.fail .unexpectedLength) ∧
    validateResponse reqTemp [0x01, 0x04, 0x02, 0x30, 0xD4, 0xB9, 0x7B] = some (.fail .checksumMismatch) ∧
    validateResponse reqTemp [0x01, 0x04, 0x02, 0x30, 0xD4, 0xAD, 0x6F] = some (.fail .malformedResponse) ∧
    validateResponse reqTemp [0xFE, 0x84, 0x02, 0x30, 0xD4, 0x90, 0xBB] = some (.fail .malformedResponse) ∧
    validateResponse reqTemp [0xFE, 0x04, 0x03, 0x30, 0xD4, 0xE8, 0xBB] = some (.fail .malformedResponse) ∧
    validateResponse reqTemp [0xFE, 0x03, 0x02, 0x30, 0xD4, 0xB8, 0x0F] =
      some (.ok [0xFE, 0x03, 0x02, 0x30, 0xD4, 0xB8, 0x0F]) := by decide +kernel
theorem test_validate_write :
    validateResponse reqWrite echoWrite = some (.ok echoWrite) ∧
    validateResponse reqWrite [0xFE, 0x06, 0x00, 0x1F, 0x12, 0xC0, 0xA0] = some (.fail .unexpectedLength) ∧
    validateResponse reqWrite [0xFE, 0x06, 0x00, 0x1F, 0x12, 0xC1, 0x61, 0x33] = some (.fail .echoMismatch) ∧
    validateResponse reqWrite [0xFE, 0x06, 0x00, 0x1F, 0x12, 0xC0, 0xA0, 0xF4] = some (.fail .echoMismatch) := by
  decide +kernel
/-- The reset state in which `VALIDATE` has answered `k` on `r`. -/
def tJudged (r : Bytes) (k : Kind) : State := { t0 [] with verdicts := [⟨r, k⟩] }

theorem test_extractU16 : retOf (exec (.extractU16 respTemp 3) (t0 [])) = some ⟨.ok, .u16 0x30D4⟩ ∧
    retOf (exec (.extractU16 respTemp 5) (tJudged respTemp .ok)) = some ⟨.ok, .u16 0xB97B⟩ ∧
    refusalOf (exec (.extractU16 respTemp 6) (t0 [])) = some .extractPastEnd := by decide +kernel
theorem test_extractU32 : retOf (exec (.extractU32 respLong 3) (t0 [])) = some ⟨.ok, .u32 0x0001E240⟩ ∧
    refusalOf (exec (.extractU32 respTemp 4) (t0 [])) = some .extractPastEnd := by decide +kernel
theorem test_extractBytes : retOf (exec (.extractBytes respSerial 3 10) (t0 [])) =
      some ⟨.ok, .bytes [0x41, 0x42, 0x43, 0x31, 0x32, 0x00, 0x00, 0x00, 0x00, 0x00]⟩ ∧
    retOf (exec (.extractBytes respTemp 3 0) (t0 [])) = some ⟨.ok, .bytes []⟩ := by decide +kernel
theorem test_extract_not_accepted :
    refusalOf (exec (.extractU16 [0xFE, 0x04, 0x02, 0x31, 0xD4, 0xB9, 0x7B] 3) (t0 [])) = some .responseNotAccepted ∧
    refusalOf (exec (.extractU16 respTemp 3) (tJudged respTemp (.fail .unexpectedLength))) = some .responseNotAccepted := by decide +kernel
theorem test_validate_notes_the_verdict :
    (nextOf (exec (.validate reqTemp respTemp) (tJudged respLong .ok))).map State.verdicts =
      some [⟨respTemp, .ok⟩, ⟨respLong, .ok⟩] ∧
    (nextOf (exec (.validate reqTemp respLong) (tJudged respLong .ok))).map State.verdicts =
      some [⟨respLong, .fail .unexpectedLength⟩] := by decide +kernel

/-! ## Transactions (V9, V10, V15) -/

theorem test_transact_ok : regsOf (exec (.transact 0x04 0x0004 1) (t0 respTemp)) =
    some (some reqTemp, 7, respTemp, some (.ok respTemp)) := by decide +kernel
theorem test_transact_timeout : regsOf (exec (.transact 0x04 0x0004 1) (t0 [])) =
    some (some reqTemp, 0, [], some (.fail .timeout)) := by decide +kernel
theorem test_transact_count : regsOf (exec (.readIr 0x0000 8) (t0 respTemp)) =
      some (none, 0, [], some (.fail .invalidArgument)) ∧
    ((nextOf (exec (.readIr 0x0000 7) (t0 respTemp))).map State.resKind) = some 3 := by decide +kernel
theorem test_readHr_zero : regsOf (exec (.readHr 0x0000 0) (t0 respTemp)) =
    some (none, 0, [], some (.fail .invalidArgument)) := by decide +kernel
theorem test_writeHr_echo : regsOf (exec (.writeHr 0x001F 0x12C0) (t0 echoWrite)) =
    some (some reqWrite, 8, echoWrite, some (.ok echoWrite)) := by decide +kernel
theorem test_steps_refused : refusalOf (exec .send (t0 [])) = some .stepOutsideTransaction ∧
    refusalOf (exec .clear (t0 [])) = some .stepOutsideTransaction ∧
    refusalOf (exec .capture (t0 [])) = some .stepOutsideTransaction := by decide +kernel

/-- After T1 of the temperature read (10_state.md R28). -/
def s1 : State := { t0 respTemp with ph := .t1, built := some reqTemp, rbuf := [(7, 0x32)], rlen := 8 }
/-- After T2. -/
def s2 : State := { s1 with ph := .t2, built := none, txf := some reqTemp }
/-- After T3. -/
def s3 : State := { s2 with ph := .t3, rbuf := [], rlen := 0 }
/-- After T4, T5 and T6. -/
def s4 : State :=
  { s3 with ph := .t4, rbuf := [(0, 0xFE), (1, 0x04), (2, 0x02), (3, 0x30), (4, 0xD4), (5, 0xB9), (6, 0x7B)], rlen := 7,
            link := [] }
def s5 : State := { s4 with ph := .t5 }
def s6 : State := { s5 with ph := .t6, verdicts := [⟨respTemp, .ok⟩] }

theorem test_send : (nextOf (exec .send s1)).map (fun t => (t.ph, t.txf, t.obs)) =
    some (.t2, some reqTemp, [.linkWrite (frameBytes reqTemp), .trace (.bytesSent (frameBytes reqTemp))]) := by
  decide +kernel
theorem test_clear : (nextOf (exec .clear s2)).map (fun t => (t.ph, t.rlen, Memory.read t.rbuf 7)) =
    some (.t3, 0, 0x00) := by decide +kernel
theorem test_capture : (nextOf (exec .capture s3)).map (fun t => (t.ph, t.rlen, t.rbuf)) =
    some (.t4, 7, s4.rbuf) := by decide +kernel
theorem test_step_t4 : (nextOf (step s4)).map State.ph = some .t5 := by decide +kernel
theorem test_step_t5 : (nextOf (step s5)).map (fun t => (t.ph, t.verdicts)) = some (.t6, [⟨respTemp, .ok⟩]) := by decide +kernel
theorem test_step_t6 : (nextOf (step s6)).map (fun t => (t.ph, t.res)) = some (.idle, some (.ok respTemp)) := by
  decide +kernel

/-! ## The response rows and the input lines (R76; 95_test_vectors.md P1, P2, P4) -/

theorem test_rresp : (nextOf (exec (.rresp 0x03 [0x12, 0xC0]) (State.resetWith tp))).map State.link =
    some [[0xFE, 0x03, 0x02, 0x12, 0xC0, 0xA0, 0xA0]] := by decide +kernel
theorem test_wresp : (nextOf (exec (.wresp 0x001F 0x12C0) (State.resetWith tp))).map State.link =
    some [echoWrite] := by decide +kernel
theorem test_step_P1 :
    let o := step { State.resetWith tp with
      inputs := [ascii "GET_TEMPERATURE     ; = TRANSACT 0x04, 0x0004, 1".toList, ascii "; a comment".toList,
        ascii "LINK <- FE 04 02 30 D4 B9 7B".toList] }
    retOf o = some ⟨.ok, .int 25⟩ ∧ regsOf o = some (some reqTemp, 7, respTemp, some (.ok respTemp)) ∧
    (nextOf o).map (fun t => (t.inputs, t.link)) = some ([], []) := by decide +kernel
theorem test_step_P1_trace : ((nextOf (exec .getTemperature (t0 respTemp))).map fun t => t.obs.filter fun e => !e.onLink) =
    some [.trace (.requestBuilt (frameBytes reqTemp)), .trace (.bytesSent (frameBytes reqTemp)),
      .trace (.bytesReceived respTemp), .trace (.validationResult .ok)] := by decide +kernel
theorem test_step_fragment :
    regsOf (step { State.resetWith tp with
      inputs := [ascii "GET_SERIAL_NUMBER".toList, ascii "LINK <- FE 04 0A 41 42 43 31 32".toList] }) =
    some (some ⟨0xFE, 0x04, 0x00, 0x0A, 0x00, 0x05, 0x04, 0x04⟩, 8, [0xFE, 0x04, 0x0A, 0x41, 0x42, 0x43, 0x31, 0x32],
      some (.fail .unexpectedLength)) := by decide +kernel
theorem test_step_timeout_line :
    retOf (step { State.resetWith tp with
      inputs := [ascii "GET_ABC_PERIOD".toList, ascii "LINK <- TIMEOUT".toList] }) =
    some ⟨.fail .timeout, .u16 0⟩ := by decide +kernel
theorem test_step_ill_formed : refusalOf (step (State.reset.withFetchWord 64 0xFE03000000000000)) = some .illFormed := by
  decide +kernel
theorem test_step_fetchWord :
    retOf (step (State.reset.withFetchWord 64 0xFE04000400016404)) =
    some ⟨.ok, .bytes (frameBytes reqTemp)⟩ := by decide +kernel

/-! ## The register operations (V6, V7, V8, V14; P2, P3, P5) -/

theorem test_getSerialNumber : retOf (exec .getSerialNumber (t0 respSerial)) =
    some ⟨.ok, .text (ascii "ABC12".toList)⟩ := by decide +kernel
theorem test_getSoftwareVersion : retOf (exec .getSoftwareVersion (t0 [0xFE, 0x04, 0x02, 0x01, 0x0A, 0x2C, 0xB3])) =
    some ⟨.ok, .text (ascii "1.10".toList)⟩ := by decide +kernel
theorem test_decodeVersion : decodeVersion [0xFE, 0x04, 0x02, 0x00, 0x00, 0xAD, 0x24] = some (.text (ascii "0.0".toList)) ∧
    decodeVersion [0xFE, 0x04, 0x02, 0xFF, 0xFF, 0, 0] = some (.text (ascii "255.255".toList)) := by decide +kernel
theorem test_getCo2 : retOf (exec .getCo2 (t0 [0xFE, 0x04, 0x02, 0xFF, 0x38, 0xED, 0x06])) = some ⟨.ok, .int (-200)⟩ := by
  decide +kernel
theorem test_getCo2_corrupted : retOf (exec .getCo2 (t0 [0xFE, 0x04, 0x02, 0x31, 0xD4, 0xB9, 0x7B])) =
    some ⟨.fail .checksumMismatch, .int 0⟩ := by decide +kernel
theorem test_getTemperature_late : retOf (exec .getTemperature (t0 [0xFE, 0x03, 0x02, 0x12, 0xC0, 0xA0, 0xA0])) =
    some ⟨.ok, .int (-52)⟩ := by decide +kernel
theorem test_temperatureOf : temperatureOf 0 = -100 ∧ temperatureOf 9999 = -1 ∧ temperatureOf 10000 = 0 ∧
    temperatureOf 10099 = 0 ∧ temperatureOf 65535 = 555 := by decide +kernel
theorem test_getAbcPeriod : retOf (exec .getAbcPeriod (t0 [0xFE, 0x03, 0x02, 0x12, 0xC0, 0xA0, 0xA0])) =
    some ⟨.ok, .u16 4800⟩ := by decide +kernel
theorem test_setAbcPeriod_sent : retOf (exec (.setAbcPeriod 4800) (t0 echoWrite)) = some ⟨.ok, .unit⟩ := by
  decide +kernel
theorem test_setAbcPeriod_rejected : ∀ v ∈ [(1 : U16), 2, 3, 4801, 65535],
    exec (.setAbcPeriod v) (t0 []) = .next ((t0 []).returns (.fail .invalidArgument) .unit) := by
  intro v hv
  simp only [List.mem_cons, List.not_mem_nil, or_false] at hv
  rcases hv with rfl | rfl | rfl | rfl | rfl <;> rfl
theorem test_setUserConcentration : validConc 0 = false ∧ validConc 399 = false ∧ validConc 400 = true ∧
    validConc 2000 = true ∧ validConc 2001 = false := by decide +kernel
theorem test_getUserConcentration : retOf (exec .getUserConcentration (t0 [0xFE, 0x03, 0x02, 0x01, 0x90, 0xAD, 0xAC])) =
    some ⟨.ok, .u16 400⟩ := by decide +kernel
theorem test_getUserAck : (nextOf (exec .getUserAck (t0 []))).bind State.txf =
    some ⟨0xFE, 0x03, 0x00, 0x00, 0x00, 0x01, 0x90, 0x05⟩ := by decide +kernel
theorem test_setUserAck : retOf (exec (.setUserAck 0xFFFF) (t0 (wrespBytes 0x0000 0xFFFF))) = some ⟨.ok, .unit⟩ := by
  decide +kernel
theorem test_setSpecialCommand : retOf (exec (.setSpecialCommand 0) (t0 (wrespBytes 0x0000 0x0000))) =
    some ⟨.fail .echoMismatch, .unit⟩ := by decide +kernel
theorem test_getMeterStatus : retOf (exec .getMeterStatus (t0 [0xFE, 0x04, 0x02, 0x00, 0x00, 0xAD, 0x24])) =
    some ⟨.ok, .u16 0⟩ := by decide +kernel
theorem test_getOutputStatus : retOf (exec .getOutputStatus (t0 (rrespBytes 0x04 [0x00, 0x03]))) = some ⟨.ok, .u16 3⟩ := by
  decide +kernel
theorem test_getPwmOutput : retOf (exec .getPwmOutput (t0 (rrespBytes 0x04 [0x03, 0xE8]))) = some ⟨.ok, .u16 1000⟩ := by
  decide +kernel
theorem test_getSensorTypeId : retOf (exec .getSensorTypeId (t0 respTemp)) = some ⟨.fail .unexpectedLength, .u32 0⟩ := by
  decide +kernel
theorem test_getSensorId : retOf (exec .getSensorId (t0 respLong)) = some ⟨.ok, .u32 123456⟩ := by decide +kernel
theorem test_getMemoryMapVersion : retOf (exec .getMemoryMapVersion (t0 (rrespBytes 0x04 [0x00, 0x02]))) =
    some ⟨.ok, .u16 2⟩ := by decide +kernel

/-! ## Witnesses: concrete states and operands that meet the hypotheses of each statement -/

/-- An outcome that is a next state, read off by evaluation. -/
theorem next_of_isSome {o : Out} (h : (nextOf o).isSome = true) : ∃ t, o = .next t := by
  cases o with
  | next t => exact ⟨t, rfl⟩
  | fault r => exact nomatch r
  | refused r => simp [nextOf] at h

/-- The reset state with the vectors' parameters and one input line after another. -/
def fed (lines : List (List Char)) : State := { State.resetWith tp with inputs := lines.map ascii }

/-- After the session. -/
def sEnded : State := { t0 respTemp with session := .ended }
/-- A state named T7, which no run of this model shows between two steps (log 12). -/
def s7 : State := { s6 with ph := .t7 }

theorem witness_ResetMeetsInvariant : tp.wf := by decide

theorem s1_inv : s1.Inv where
  params := by decide
  bufferCanonical := by decide
  rlenInCap := by decide
  tailClear := by
    intro a ha
    have h8 : 8 ≤ a := ha
    show Memory.read [(7, 0x32)] a = 0x00
    have h7 : a ≠ 7 := by omega
    simp [Memory.read, unlistedByte, h7]
  sentBuilt := by intro f hf; cases hf
  builtInT1 := by decide
  builtSendable := by intro f hf; cases hf; decide +kernel
  sentAfterT2 := by decide
  clearedAfterT3 := by decide
  acceptedAfterT6 := by decide
  okIsAccepted := by intro h; cases h
  verdictsOnce := by decide
  okAcceptable := by intro r hr; cases hr

theorem witness_StepKeepsInvariant : s1.Inv ∧ ∃ t, step s1 = .next t :=
  ⟨s1_inv, next_of_isSome (by decide +kernel)⟩
theorem witness_EveryInstructionKeepsInvariant : s1.Inv ∧ ∃ t, exec .send s1 = .next t :=
  ⟨s1_inv, next_of_isSome (by decide +kernel)⟩
theorem witness_NothingWritesTheParameters :
    (∃ t, exec .getTemperature (t0 respTemp) = .next t) ∧ ∃ t, step s4 = .next t :=
  ⟨next_of_isSome (by decide +kernel), next_of_isSome (by decide +kernel)⟩

theorem witness_StepRunsTheDecodedInstruction :
    let line := ascii "READ_IR 4, 1".toList
    let next := ascii "LINK <- FE 04".toList
    (t0 []).ph = .idle ∧ decode line = .ok (.readIr 4 1) ∧ (Instr.readIr 4 1).wf = true ∧
      linkAnswerOf line = none ∧ nextLink [line] = none ∧ nextLink [] = none ∧
      nextLink [[], next, line] = some ([0xFE, 0x04], [line]) := by decide +kernel
theorem witness_StepRunsTheDecodedInstruction_link :
    let line := ascii "LINK <- FE 04 02 30 D4 B9 7B".toList
    decode line = .ok (.rresp 0x04 [0x30, 0xD4]) ∧ (Instr.rresp 0x04 [0x30, 0xD4]).wf = true ∧
      linkAnswerOf line ≠ none := by decide +kernel
theorem witness_StepOnOtherInput :
    (t0 []).ph = .idle ∧ (t0 []).inputs = [] ∧ (t0 []).session = .active ∧
      decode (ascii "; text".toList) = .error .emptyLine ∧
      decode (ascii "LINK <- TIMEOUT".toList) = .error .notAResponse ∧
      linkAnswerOf (ascii "LINK <- TIMEOUT".toList) = some [] ∧
      decode (ascii "NOP".toList) = .error .unknownMnemonic ∧ linkAnswerOf (ascii "NOP".toList) = none ∧
      decode [0xFE, 0x03, 0, 0, 0, 0, 0, 0] = .ok (.reqReadHr 0 0 0) ∧ (Instr.reqReadHr 0 0 0).wf = false := by
  decide +kernel
/-- The hypothesis of TransactIsItsSteps, CrcByteIsEightSteps, Crc16RunsOverTheSpan, CrcAppendPutsLowByteFirst,
WriteSucceedsExactlyOnItsEcho, PseudoOperationsAreTransactions, SetsWithoutRangeForwardAnyValue and the statements of
the gets. -/
theorem witness_Ready : (t0 respTemp).Ready ∧ (t0 []).Ready := by decide
theorem witness_PhasesFollowTheirOrder :
    [s1, s2, s3, s4, s5, s6, s7].map State.ph = [.t1, .t2, .t3, .t4, .t5, .t6, .t7] ∧
      ∀ s ∈ [s1, s2, s3, s4, s5, s6, s7, { s5 with rlen := 0 }], (nextOf (step s)).isSome = true := by decide +kernel

theorem witness_DecodeGivesBackEveryInstruction :
    (Instr.rresp 0x03 (List.replicate 254 0)).wf = true ∧ (Instr.rresp 0x04 []).wf = true ∧
      (Instr.reqReadIr 0xFFFF 0xFFFF 0x91E5).wf = true ∧ (Instr.setUserAck 0xFFFF).wf = true := by decide +kernel
theorem witness_TableWordsSelectRequestRows :
    ∃ w : Nat, w / 0x100000000000000 = 0xFE ∧ w / 0x1000000000000 ≠ 0xFE03 ∧ w / 0x1000000000000 ≠ 0xFE04 ∧
      w / 0x1000000000000 ≠ 0xFE06 := ⟨0xFE05FFFFFFFFFFFF, by decide⟩
theorem witness_OperandThatDoesNotFitIsRefused :
    65536 ≤ 65536 ∧ 256 ≤ 256 ∧ respTemp.length ≠ 8 ∧ respLong.length ≠ 8 ∧ ([] : Bytes).length ≠ 8 := by decide

theorem witness_ResidueIsZeroExactlyForAFrame : 2 ≤ respTemp.length ∧ 2 ≤ ([0xFF, 0xFF] : Bytes).length := by decide
theorem witness_OneWrongByteIsAChecksumMismatch :
    isReadCode reqTemp.fc = true ∧ validateResponse reqTemp respTemp = some (.ok respTemp) ∧ 0 < respTemp.length ∧
      respTemp.getD 0 0 ≠ 0xFF ∧ 6 < respTemp.length ∧ respTemp.getD 6 0 ≠ 0x7A := by decide +kernel
theorem witness_CrcAppendPutsLowByteFirst : buildRequest 0x06 0xFFFF 0 = .ok (reqFrame 0x06 0xFFFF 0) := by decide +kernel
theorem witness_BuildMakesTheRequest : (t0 []).Ready ∧ ((0x02 : Byte) ≠ 0x03 ∧ (0x02 : Byte) ≠ 0x04 ∧ (0x02 : Byte) ≠ 0x06) ∧
    (0x0001 : U16) ≠ 0 ∧ (0xFFFF : U16) ≠ 0 := by decide
theorem witness_RequestRowsBuildTheirRequest :
    (t0 []).Ready ∧ (0x0590 : U16) = crc16 (reqBody 0x03 0x0000 0x0001) ∧
      (0x91E5 : U16) = crc16 (reqBody 0x04 0xFFFF 0xFFFF) ∧ (0x0591 : U16) ≠ crc16 (reqBody 0x03 0x0000 0x0001) ∧
      (0x03AC : U16) = crc16 (reqBody 0x06 0x001F 0x0000) ∧ (0x03AD : U16) ≠ crc16 (reqBody 0x06 0x001F 0x0000) := by
  decide +kernel
theorem witness_ExpectedLengthOfARequest :
    (∃ fc addr val, buildRequest fc addr val = .ok reqTemp) ∧ (∃ fc addr val, buildRequest fc addr val = .ok reqWrite) ∧
      ¬ ∃ fc addr val, buildRequest fc addr val = .ok (⟨0xFE, 0x04, 0, 4, 0, 1, 0x64, 0x05⟩ : Frame8) := by
  refine ⟨⟨0x04, 4, 1, by decide +kernel⟩, ⟨0x06, 0x001F, 0x12C0, by decide +kernel⟩, fun ⟨fc, addr, val, h⟩ => ?_⟩
  have hn : isBuilt ⟨0xFE, 0x04, 0, 4, 0, 1, 0x64, 0x05⟩ = false := by decide +kernel
  have := (isBuilt_iff_exists _).2 ⟨fc, addr, val, h⟩
  exact absurd (hn.symm.trans this) (by decide)
theorem witness_ValidateDecidesByTheFirstFailingCheck :
    (t0 []).Ready ∧ expectedLength reqTemp = some 7 ∧ expectedLength reqWrite = some 8 := by decide +kernel
theorem witness_AcceptedResponsesExactly :
    isBuilt reqTemp = true ∧ reqTemp.fc = 0x04 ∧ isBuilt reqWrite = true ∧ reqWrite.fc = 0x06 := by decide +kernel
theorem witness_ExtractorsReadBigEndianFields :
    (tJudged respTemp .ok).Ready ∧ (tJudged respTemp .ok).MayExtract respTemp ∧ (t0 []).MayExtract respTemp ∧ 5 + 2 ≤ respTemp.length ∧
      3 + 4 ≤ respTemp.length ∧ 0 + 7 ≤ respTemp.length ∧ 7 + 0 ≤ respTemp.length ∧ respTemp.length < 6 + 2 ∧
      respTemp.length < 4 + 4 ∧ respTemp.length < 8 + 0 := by decide +kernel
theorem witness_OutOfContractUseIsRefused :
    isBuilt ⟨0xFE, 0x05, 0x00, 0x00, 0xFF, 0x00, 0x98, 0x35⟩ = false ∧
      lastVerdict respLong (tJudged respLong (.fail .unexpectedLength)).verdicts = some (.fail .unexpectedLength) ∧
      lastVerdict [0x00] (t0 []).verdicts = none ∧ acceptable [0x00] = false ∧
      ([0x00] : Bytes).length < 0 + 2 ∧ 0 + 1 ≤ ([0x00] : Bytes).length ∧ 7 + 2 ≤ respLong.length ∧
      5 + 4 ≤ respLong.length ∧ 9 + 0 ≤ respLong.length := by decide +kernel
/-- Each verdict at each kind of use: a valid 9-byte frame is accepted for a two-word read and rejected for a one-word
read, by `VALIDATE` and by a transaction; a transaction that T1 refuses gives none. -/
theorem witness_VerdictDecidesExtraction :
    (t0 []).Ready ∧ validateResponse ⟨0xFE, 0x04, 0x00, 0x0A, 0x00, 0x02, 0x45, 0xC6⟩ respLong = some (.ok respLong) ∧
      validateResponse reqTemp respLong = some (.fail .unexpectedLength) ∧
      (nextOf (exec (.transact 0x04 0x000A 2) (t0 respLong))).bind State.res = some (.ok respLong) ∧
      (nextOf (exec (.transact 0x04 0x0004 1) (t0 respLong))).bind State.res = some (.fail .unexpectedLength) ∧
      (nextOf (exec (.transact 0x04 0x0004 0) (t0 respLong))).bind State.res = some (.fail .invalidArgument) := by
  decide +kernel
/-- Two ready states that differ and hold no verdict on the response. -/
theorem witness_DirectUseDependsOnItsOperandsOnly :
    (t0 []).Ready ∧ (tJudged respLong .ok).Ready ∧ lastVerdict respTemp (t0 []).verdicts = none ∧
      lastVerdict respTemp (tJudged respLong .ok).verdicts = none ∧ acceptable respTemp = true := by decide +kernel

theorem witness_ResponseRowsAreDelivered : (t0 []).session = .active ∧ ([] : Bytes).length ≤ 255 ∧
    (List.replicate 255 (0 : Byte)).length ≤ 255 := by decide +kernel
theorem witness_DeliveredResponseIsAccepted :
    (State.resetWith tp).Ready ∧ (State.resetWith tp).par.wf ∧ (State.resetWith tp).link = [] ∧
      1 ≤ (1 : U16).toNat ∧ (7 : U16).toNat ≤ maxCount (State.resetWith tp).par ∧
      ([0x30, 0xD4] : Bytes).length = 2 * (1 : U16).toNat ∧ (List.replicate 14 (0 : Byte)).length = 2 * (7 : U16).toNat := by
  decide
theorem witness_CaptureAnswersAreAllChunksUpToMax : ([] : Bytes).length ≤ 0 ∧ respTemp.length ≤ 7 := by decide
theorem witness_TransactRunsOneCycle :
    (t0 []).Ready ∧ maxCount (t0 []).par < (8 : U16).toNat ∧ (7 : U16) ≠ 0 ∧ (7 : U16).toNat ≤ maxCount (t0 []).par ∧
      (1 : U16) ≠ 0 ∧ (1 : U16).toNat ≤ maxCount (t0 []).par ∧
      ((0x05 : Byte) ≠ 0x03 ∧ (0x05 : Byte) ≠ 0x04 ∧ (0x05 : Byte) ≠ 0x06) := by decide
theorem witness_OneWriteThenOneCapture :
    (t0 []).Ready ∧ buildRequest 0x04 0x0004 1 = .ok reqTemp ∧ ¬ maxCount (t0 []).par < (1 : U16).toNat ∧
      buildRequest 0x06 0x001F 0x12C0 = .ok reqWrite := by decide +kernel
theorem witness_SendTransmitsTheBuiltRequest : s1.session = .active ∧ s1.ph = .t1 ∧ s1.built = some reqTemp := by decide
theorem witness_ClearZeroesTheBuffer : s2.session = .active ∧ s2.ph = .t2 := by decide
theorem witness_CaptureStoresTheAnswer : s3.session = .active ∧ s3.ph = .t3 ∧ s3.rbuf.wf ∧ s4.rbuf.wf := by decide
/-- After T3, with an arrival of 21 bytes on the link, one more than CAP, and another behind it. -/
def s3Long : State := { s3 with link := [List.replicate 21 0x55, respTemp] }
theorem witness_LongArrivalLeavesItsRestOnTheLink :
    s3.par.wf ∧ s3.rbuf.wf ∧ s3.link = [respTemp] ∧ respTemp.length ≤ s3.par.cap ∧ (∃ t, exec .capture s3 = .next t) ∧
      s3Long.link = [List.replicate 21 0x55, respTemp] ∧ s3Long.par.cap < (List.replicate 21 (0x55 : Byte)).length ∧
      ∃ t, exec .capture s3Long = .next t :=
  ⟨by decide, by decide, rfl, by decide, ⟨_, rfl⟩, rfl, by decide, ⟨_, rfl⟩⟩
theorem witness_TransactionStepsAreRefusedElsewhere :
    ¬ (s2.ph = .t1 ∧ s2.built.isSome = true) ∧ s1.ph ≠ .t2 ∧ s2.ph ≠ .t3 ∧ s2.session = .active := by decide

theorem witness_OverlappingCallIsRefused : Instr.getCo2.IsHostOp ∧ (Instr.crc16 []).IsHostOp ∧ s1.session = .active ∧
    s1.ph ≠ .idle := by decide
theorem witness_NothingRunsAfterTheSession : sEnded.session = .ended := by decide
theorem witness_PureOperationsLeaveTheRegisters :
    (∃ t, exec (.build 0x04 4 1) (t0 []) = .next t) ∧ (Instr.build 0x04 4 1).cls = .pure ∧
      (∃ t, exec (.validate reqTemp respTemp) (t0 []) = .next t) ∧
      (∃ t, exec (.wresp 0 0) (t0 []) = .next t) ∧ (Instr.wresp 0 0).cls = .linkDelivery :=
  ⟨next_of_isSome (by decide +kernel), rfl, next_of_isSome (by decide +kernel), next_of_isSome (by decide +kernel), rfl⟩
theorem witness_InvalidArgumentNeverTouchesTheWire :
    retOf (exec (.transact 0x03 0 0) (t0 [])) = some ⟨.fail .invalidArgument, .bytes []⟩ ∧
      retOf (exec (.setAbcPeriod 3) (t0 [])) = some ⟨.fail .invalidArgument, .unit⟩ := by decide +kernel
theorem witness_OutcomeRegisterStaysValid :
    (∃ t, exec .clear { s2 with res := some (.ok respTemp) } = .next t) ∧
      ({ s2 with res := some (.ok respTemp) } : State).resValid = true ∧
      ({ s2 with res := some (.fail .echoMismatch) } : State).resKind ≠ 0 :=
  ⟨next_of_isSome (by decide +kernel), by decide, by decide⟩
theorem witness_HistoryNeverMatters :
    (∃ t, exec (.writeHr 0x001F 0x12C0) (t0 echoWrite) = .next t) ∧ ∃ t, step s5 = .next t :=
  ⟨next_of_isSome (by decide +kernel), next_of_isSome (by decide +kernel)⟩
/-- For an instruction, and for the steps T5, T6 and T7, which read the captured bytes. -/
theorem witness_BytesAboveRlenNeverMatter :
    s1.rbuf.wf ∧ Memory.wf [(7, 0x32), (8, 0x55)] ∧
      (∀ a, a < s1.rlen → Memory.read [(7, 0x32), (8, 0x55)] a = Memory.read s1.rbuf a) ∧ (∃ t, exec .send s1 = .next t) ∧
      s4.rbuf.wf ∧ Memory.wf (s4.rbuf ++ [(7, 0x55)]) ∧
      (∀ a, a < s4.rlen → Memory.read (s4.rbuf ++ [(7, 0x55)]) a = Memory.read s4.rbuf a) ∧
      (∃ t, step s4 = .next t) ∧ (∃ t, step s5 = .next t) ∧ ∃ t, step s6 = .next t :=
  ⟨by decide, by decide, by decide +kernel, next_of_isSome (by decide +kernel), by decide, by decide, by decide +kernel,
    next_of_isSome (by decide +kernel), next_of_isSome (by decide +kernel), next_of_isSome (by decide +kernel)⟩

theorem witness_GetsOfUnsignedWords :
    (nextOf (exec (.transact 0x03 tp.regAddr.abc 1) (t0 [0xFE, 0x03, 0x02, 0x12, 0xC0, 0xA0, 0xA0]))).bind State.res =
      some (.ok [0xFE, 0x03, 0x02, 0x12, 0xC0, 0xA0, 0xA0]) ∧
    (nextOf (exec (.transact 0x03 tp.regAddr.abc 1) (t0 []))).bind State.res = some (.fail .timeout) := by decide +kernel
theorem witness_GetsOfDoubleWords :
    (nextOf (exec (.transact 0x04 tp.regAddr.sensId 2) (t0 respLong))).bind State.res = some (.ok respLong) := by
  decide +kernel
/-- Both outcomes' hypotheses of GetCo2IsSigned, GetTemperatureScalesTheRawWord, GetSoftwareVersionIsMajorDotMinor. -/
theorem witness_GetsOfOneWord :
    (nextOf (exec (.transact 0x04 tp.regAddr.co2 1) (t0 respTemp))).bind State.res = some (.ok respTemp) ∧
    (nextOf (exec (.transact 0x04 0x0004 1) (t0 respTemp))).bind State.res = some (.ok respTemp) ∧
    (nextOf (exec (.transact 0x04 tp.regAddr.fwVer 1) (t0 respTemp))).bind State.res = some (.ok respTemp) ∧
    tp.wf := by decide +kernel
theorem witness_GetSerialNumberStopsAtNul :
    (nextOf (exec (.transact 0x04 tp.regAddr.serial 5) (t0 respSerial))).bind State.res = some (.ok respSerial) ∧
    retOf (exec .getSerialNumber (t0 (rrespBytes 0x04 (List.replicate 10 0x41)))) =
      some ⟨.ok, .text (List.replicate 10 0x41)⟩ ∧
    retOf (exec .getSerialNumber (t0 (rrespBytes 0x04 (List.replicate 10 0x00)))) = some ⟨.ok, .text []⟩ := by
  decide +kernel
theorem witness_SetAbcPeriodChecksItsRange :
    (t0 []).Ready ∧ ([0, 4, 4800] : List U16).all (fun v => decide (v.toNat = 0 ∨ (4 ≤ v.toNat ∧ v.toNat ≤ 4800))) ∧
      ([1, 3, 4801, 65535] : List U16).all (fun v => decide ¬ (v.toNat = 0 ∨ (4 ≤ v.toNat ∧ v.toNat ≤ 4800))) := by decide
theorem witness_SetUserConcentrationChecksItsRange :
    (t0 []).Ready ∧ ([400, 2000] : List U16).all (fun v => decide (400 ≤ v.toNat ∧ v.toNat ≤ 2000)) ∧
      ([0, 399, 2001, 65535] : List U16).all (fun v => decide ¬ (400 ≤ v.toNat ∧ v.toNat ≤ 2000)) := by decide
theorem witness_GetsAreNeverRejectedLocally :
    (t0 []).par.wf ∧ (∃ t, exec .getSensorId (t0 []) = .next t) ∧
      retOf (exec .getSensorId (t0 [])) = some ⟨.fail .timeout, .u32 0⟩ :=
  ⟨by decide, next_of_isSome (by decide +kernel), by decide +kernel⟩

end Sys2Proof.Tests
end

section
/-! PROOFS. The statements of 10_state.md: reset, the invariant, what no instruction writes, the order of the phases,
the outcome register, the end of the session, and the bytes at or above `rlen`. -/

namespace Sys2Proof.Machine

/-! ## Reset and the session -/

theorem paramsOfReset_wf : Config.params.wf := ⟨Nat.le_add_right .., Nat.le_add_right ..⟩

/-- Settles O1: reset writes each value of R35, and the opaque parameters are offsets from the least legal ones. -/
theorem resetHasTheValuesOfTheSpec : Obligations.ResetHasTheValuesOfTheSpec :=
  ⟨fun _ => ⟨rfl, fun _ => rfl, rfl, rfl, rfl, rfl, rfl, rfl⟩, rfl, paramsOfReset_wf⟩

theorem resetWith_inv {p : Params} (hp : p.wf) : (State.resetWith p).Inv where
  params := hp
  bufferCanonical := Memory.wf_nil
  rlenInCap := Nat.zero_le _
  tailClear _ _ := rfl
  sentBuilt := nofun
  builtInT1 := ⟨nofun, nofun⟩
  builtSendable := nofun
  sentAfterT2 h := absurd rfl h
  clearedAfterT3 := nofun
  acceptedAfterT6 := nofun
  okIsAccepted := nofun
  verdictsOnce := List.nodup_nil
  okAcceptable := nofun

/-- Settles O2: the reset of a legal session meets the invariant field by field. -/
theorem resetMeetsInvariant : Obligations.ResetMeetsInvariant :=
  ⟨fun _ hp => resetWith_inv hp, resetWith_inv paramsOfReset_wf⟩

/-! ## An accepted response is acceptable -/

/-- The read path accepts a response for its length and bytes alone, so the request that `acceptableRead` builds from
the length accepts it too (42_response_validator.md R148). -/
theorem acceptableRead_of_accepted {f : Frame8} {r : Bytes} (hr : isReadCode f.fc = true) (hz : frameVal f ≠ 0)
    (hb : isBuilt f = true) (hv : validateResponse f r = some (.ok r)) : acceptableRead r = true := by
  obtain ⟨hlen, hcrc, hfields⟩ := (validateResponse_read_ok_iff hb hr r).1 hv
  have hcount : BitVec.ofNat 16 ((r.length - 5) / 2) = frameVal f := by
    have hhalf : (r.length - 5) / 2 = (frameVal f).toNat := by omega
    rw [hhalf, BitVec.ofNat_toNat, BitVec.setWidth_eq]
  have hbuild : Buildable Config.fcReadIr (frameVal f) := ⟨by decide, fun h => hz h.2⟩
  have haccepts : validateResponse (reqFrame Config.fcReadIr 0 (frameVal f)) r = some (.ok r) :=
    (validateResponse_read_ok_iff (isBuilt_reqFrame hbuild 0) rfl r).2
      ⟨by simpa using hlen, hcrc, hfields⟩
  rw [acceptableRead, hcount, buildRequest_of_buildable hbuild]
  exact beq_iff_eq.2 haccepts

theorem acceptableEcho_of_accepted {f : Frame8} {r : Bytes} (hw : f.fc = Config.fcWriteSr) (hb : isBuilt f = true)
    (hv : validateResponse f r = some (.ok r)) : acceptableEcho r = true := by
  obtain rfl := (validateResponse_write_ok_iff hb hw r).1 hv
  simp [acceptableEcho, hw, hb]

theorem acceptable_of_accepted {f : Frame8} {r x : Bytes} (hv : validateResponse f r = some (.ok x)) :
    acceptable r = true := by
  obtain rfl := validateResponse_ok hv
  have hb : isBuilt f = true := by rw [← validateResponse_isSome f x, hv]; rfl
  rw [acceptable, Bool.or_eq_true]
  rcases built_cases hb with ⟨hr, -, hz⟩ | ⟨hw, -⟩
  · exact .inl (acceptableRead_of_accepted hr hz hb hv)
  · exact .inr (acceptableEcho_of_accepted hw hb hv)

/-! ## The invariant, update by update -/

/-- The invariant reads the parameters, the registers and the verdicts only. -/
theorem State.Inv.congr {s t : State} (h : s.Inv) (hp : t.par = s.par) (hr : s.SameRegisters t)
    (hv : t.verdicts = s.verdicts) : t.Inv := by
  obtain ⟨htxf, hrbuf, hrlen, hres, hph, hbuilt⟩ := hr
  cases s
  cases t
  simp only at hp hv htxf hrbuf hrlen hres hph hbuilt
  subst hp hv htxf hrbuf hrlen hres hph hbuilt
  exact { h with }

theorem State.Inv.returns {s : State} (h : s.Inv) (k : Kind) (v : Value) : (s.returns k v).Inv := { h with }

theorem State.Inv.emitTrace {s : State} (h : s.Inv) (e : TraceEvent) : (s.emitTrace e).Inv := { h with }

theorem State.Inv.linkDeliver {s : State} (h : s.Inv) (c : Bytes) : (s.linkDeliver c).Inv := { h with }

theorem State.Inv.afterFetch {s : State} (h : s.Inv) : s.afterFetch.Inv := by
  obtain ⟨inputs, link, he⟩ := afterFetch_eq s
  rw [he]
  exact { h with }

theorem kind_eq_ok {o : Result} (h : o.kind = .ok) : ∃ r, o = .ok r := by
  cases o with
  | ok r => exact ⟨r, rfl⟩
  | fail k => cases h

theorem State.Inv.judge {s : State} (h : s.Inv) {f : Frame8} {r : Bytes} {o : Result}
    (hv : validateResponse f r = some o) : (s.judge r o.kind).Inv :=
  { h with
    verdictsOnce := nodup_noteVerdict h.verdictsOnce r o.kind
    okAcceptable := by
      intro v hmem hok
      rcases mem_noteVerdict.1 hmem with rfl | ⟨hold, -⟩
      · obtain ⟨x, rfl⟩ := kind_eq_ok hok
        exact acceptable_of_accepted hv
      · exact h.okAcceptable v hold hok }

/-- `FAIL` ends a transaction that holds no unsent frame. -/
theorem State.Inv.fail {s : State} (h : s.Inv) (hp : s.ph ≠ .t1) (k : FailKind) : (s.fail k).Inv :=
  { h with
    builtInT1 := ⟨nofun, fun e => absurd (h.builtInT1.2 e) hp⟩
    sentAfterT2 := fun e => absurd rfl e
    clearedAfterT3 := nofun
    acceptedAfterT6 := nofun
    okIsAccepted := nofun }

/-- T1 holds the frame it built. -/
theorem State.Inv.holdBuilt {s : State} (h : s.Inv) {f : Frame8} (hf : Sendable s.par f) :
    { s with ph := .t1, built := some f }.Inv :=
  { h with
    builtInT1 := ⟨fun _ => rfl, fun _ => rfl⟩
    builtSendable := by rintro _ ⟨⟩; exact hf
    sentAfterT2 := fun _ e => absurd rfl e
    clearedAfterT3 := nofun
    acceptedAfterT6 := nofun
    okIsAccepted := nofun }

theorem State.Inv.sendFrame {s : State} (h : s.Inv) {f : Frame8} (hb : s.built = some f) : (s.sendFrame f).Inv :=
  { h with
    sentBuilt := by rintro _ ⟨⟩; exact h.builtSendable f hb
    builtInT1 := ⟨nofun, nofun⟩
    builtSendable := nofun
    sentAfterT2 := fun _ _ => rfl
    clearedAfterT3 := nofun
    acceptedAfterT6 := nofun
    okIsAccepted := nofun }

/-- Between T2 and T6 no frame waits to be sent and one has been sent. -/
theorem State.Inv.inFlight {s : State} (h : s.Inv) (hi : s.ph ≠ .idle) (h1 : s.ph ≠ .t1) :
    s.built = none ∧ s.txf.isSome = true :=
  ⟨Option.not_isSome_iff_eq_none.1 fun e => h1 (h.builtInT1.2 e), h.sentAfterT2 hi h1⟩

theorem State.Inv.clearBuffer {s : State} (h : s.Inv) (hp : s.ph = .t2) : s.clearBuffer.Inv :=
  have ⟨hbuilt, hsent⟩ := h.inFlight (by simp [hp]) (by simp [hp])
  { h with
    bufferCanonical := Memory.wf_cleared
    rlenInCap := Nat.zero_le _
    tailClear := fun a _ => Memory.read_cleared a
    builtInT1 := by simp [hbuilt]
    sentAfterT2 := fun _ _ => hsent
    clearedAfterT3 := fun _ => ⟨rfl, rfl⟩
    acceptedAfterT6 := nofun
    okIsAccepted := nofun }

theorem State.Inv.captureChunk {s : State} (h : s.Inv) (hp : s.ph = .t3) : s.captureChunk.Inv :=
  have ⟨hbuilt, hsent⟩ := h.inFlight (by simp [hp]) (by simp [hp])
  { h with
    bufferCanonical := Memory.wf_writeBytes _ _ h.bufferCanonical 0
    rlenInCap := captureAnswer_length s _
    tailClear := by
      intro a ha
      rw [State.captureChunk_rlen] at ha
      rw [State.captureChunk_rbuf, (h.clearedAfterT3 hp).1, Memory.read_writeBytes _ _ Memory.wf_cleared,
        if_neg (by omega), Memory.read_cleared]
    builtInT1 := by simp [hbuilt]
    sentAfterT2 := fun _ _ => hsent
    clearedAfterT3 := nofun
    acceptedAfterT6 := nofun
    okIsAccepted := nofun }

theorem State.Inv.expected {s : State} (h : s.Inv) (hp : s.ph = .t4) : { s with ph := .t5 }.Inv :=
  have ⟨hbuilt, hsent⟩ := h.inFlight (by simp [hp]) (by simp [hp])
  { h with
    builtInT1 := by simp [hbuilt]
    sentAfterT2 := fun _ _ => hsent
    clearedAfterT3 := nofun
    acceptedAfterT6 := nofun
    okIsAccepted := nofun }

theorem State.Inv.accepted {s : State} (h : s.Inv) (hp : s.ph = .t5) (ha : s.CaptureAccepted) :
    { s with ph := .t6 }.Inv :=
  have ⟨hbuilt, hsent⟩ := h.inFlight (by simp [hp]) (by simp [hp])
  { h with
    builtInT1 := by simp [hbuilt]
    sentAfterT2 := fun _ _ => hsent
    clearedAfterT3 := nofun
    acceptedAfterT6 := fun _ => ha
    okIsAccepted := nofun }

theorem State.Inv.succeed {s : State} (h : s.Inv) (hp : s.ph = .t6 ∨ s.ph = .t7) : s.succeed.Inv :=
  have ⟨hbuilt, _⟩ := h.inFlight (by rcases hp with hp | hp <;> simp [hp]) (by rcases hp with hp | hp <;> simp [hp])
  { h with
    builtInT1 := by simp [hbuilt]
    sentAfterT2 := fun e => absurd rfl e
    clearedAfterT3 := nofun
    acceptedAfterT6 := nofun
    okIsAccepted := by rintro - _ ⟨⟩; exact ⟨rfl, h.acceptedAfterT6 hp⟩ }

/-! ## The invariant along a transaction -/

/-- T6 and T7 as one update: the verdict on the capture is noted and ends the transaction (44_transaction.md R190). -/
theorem State.Inv.judgedCapture {u : State} (h : u.Inv) (hp : u.ph = .t5) {f : Frame8} (ht : u.txf = some f)
    {o : Result} (hv : validateResponse f u.captured = some o) :
    { u.judge u.captured o.kind with ph := .idle, res := some o }.Inv := by
  cases o with
  | fail k => exact ((h.judge hv).fail (by simp [hp]) k).congr rfl ⟨rfl, rfl, rfl, rfl, rfl, rfl⟩ rfl
  | ok r =>
    obtain rfl := validateResponse_ok hv
    exact (((h.judge hv).accepted hp ⟨f, ht, hv⟩).succeed (.inl rfl)).congr rfl ⟨rfl, rfl, rfl, rfl, rfl, rfl⟩ rfl

theorem Advance.inv {s t : State} (hs : s.Inv) (h : Advance s t) : t.Inv := by
  cases h with
  | idle hp => exact hs
  | sent ha hp f hb => exact hs.sendFrame hb
  | cleared ha hp => exact hs.clearBuffer hp
  | captured ha hp => exact hs.captureChunk hp
  | expected hp f hf hb => exact hs.expected hp
  | accepted hp f hf hv => exact ((hs.accepted hp ⟨f, hf, hv⟩).judge hv).emitTrace _
  | rejected hp f hf k hv =>
    exact ((hs.judge hv).fail (by simp [hp]) k).congr rfl ⟨rfl, rfl, rfl, rfl, rfl, rfl⟩ rfl
  | finished hp => exact hs.succeed hp

/-- The cycle is its steps' updates one after another, so it keeps the invariant because they do. -/
theorem State.Inv.afterCycle {s : State} (h : s.Inv) {f : Frame8} (hf : Sendable s.par f) {o : Result}
    (hv : validateResponse f (s.captureAnswer s.par.cap) = some o) :
    (s.afterCycle f (s.captureAnswer s.par.cap) o).Inv := by
  have hcleared := ((h.holdBuilt hf).sendFrame rfl).clearBuffer rfl
  have hcaptured := (hcleared.captureChunk rfl).expected rfl
  have hbytes := captureChunk_captured
    (u := (({ s with ph := .t1, built := some f } : State).sendFrame f).clearBuffer) rfl
  exact (hcaptured.judgedCapture rfl rfl (by rw [← hv]; exact congrArg _ hbytes)).congr rfl
    ⟨rfl, rfl, rfl, rfl, rfl, rfl⟩ (congrArg (noteVerdict · o.kind s.verdicts) hbytes.symm)

theorem Cycle.inv {s t : State} (hs : s.Inv) (hp : s.ph = .idle) (h : Cycle s t) : t.Inv := by
  cases h with
  | refusedLocally => exact hs.fail (by simp [hp]) _
  | ran f o hf hv => exact hs.afterCycle hf hv

theorem Effect.inv {i : Instr} {c : InstrClass} {s t : State} (hs : s.Inv) (h : Effect s i c t) : t.Inv := by
  cases h with
  | returned hr k v => exact hs.returns k v
  | validated hr f r o hi hv => exact (hs.judge hv).returns _ _
  | built hr f v => exact (hs.emitTrace _).returns _ _
  | rejected hr => exact hs.returns _ _
  | transacted hr u hc o ho v => exact (hc.inv hs hr.2).returns _ _
  | sent ha hp f hb => exact hs.sendFrame hb
  | cleared ha hp => exact hs.clearBuffer hp
  | captured ha hp => exact hs.captureChunk hp
  | delivered ha c => exact hs.linkDeliver c

/-- Settles O4: every effect an instruction can have keeps the invariant. -/
theorem everyInstructionKeepsInvariant : Obligations.EveryInstructionKeepsInvariant :=
  fun _ _ _ hs h => (exec_effect h).inv hs

/-- Settles O3: a step takes a line and runs it, or carries on the transaction in progress. -/
theorem stepKeepsInvariant : Obligations.StepKeepsInvariant := by
  intro s t hs h
  rcases step_cases h with ⟨-, rfl | rfl | ⟨c, rfl⟩ | ⟨i, hi⟩⟩ | ⟨-, -, ha⟩
  · exact hs
  · exact hs.afterFetch
  · exact hs.afterFetch.linkDeliver c
  · exact everyInstructionKeepsInvariant i _ t hs.afterFetch hi
  · exact (advance_cases ha).inv hs

/-! ## What no instruction writes -/

theorem Cycle.par {s t : State} (h : Cycle s t) : t.par = s.par := by
  cases h <;> rfl

theorem Effect.par {i : Instr} {c : InstrClass} {s t : State} (h : Effect s i c t) : t.par = s.par := by
  cases h with
  | transacted hr u hc o ho v => exact hc.par
  | _ => rfl

theorem Advance.par {s t : State} (h : Advance s t) : t.par = s.par := by
  cases h <;> rfl

theorem afterFetch_par (s : State) : s.afterFetch.par = s.par := by
  obtain ⟨inputs, link, he⟩ := afterFetch_eq s
  rw [he]

theorem step_par {s t : State} (h : step s = .next t) : t.par = s.par := by
  rcases step_cases h with ⟨-, rfl | rfl | ⟨c, rfl⟩ | ⟨i, hi⟩⟩ | ⟨-, -, ha⟩
  · rfl
  · exact afterFetch_par s
  · exact afterFetch_par s
  · exact (exec_effect hi).par.trans (afterFetch_par s)
  · exact (advance_cases ha).par

/-- Settles O5: no effect of an instruction and no step writes the field `par`, which fixes all four parameters. -/
theorem nothingWritesTheParameters : Obligations.NothingWritesTheParameters := by
  intro s t h
  have hpar : t.par = s.par := by
    rcases h with ⟨i, h⟩ | h
    · exact (exec_effect h).par
    · exact step_par h
  rw [hpar]
  exact ⟨rfl, rfl, fun _ => rfl, rfl⟩

/-! ## The order of the phases -/

/-- Settles O9: in a transaction a step is one `Advance`, and each of those names its phase and the next one. -/
theorem phasesFollowTheirOrder : Obligations.PhasesFollowTheirOrder := by
  intro s t h
  rcases step_cases h with ⟨hidle, -⟩ | ⟨hbusy, -, ha⟩
  · simp [hidle]
  · cases advance_cases ha with
    | idle hp => exact absurd hp hbusy
    | finished hp => rcases hp with hp | hp <;> simp [hp]
    | sent _ hp | cleared _ hp | captured _ hp | expected hp | accepted hp | rejected hp => simp [hp]

/-! ## Pure operations and deliveries -/

/-- Settles O42: read off the effects of the two classes. -/
theorem pureOperationsLeaveTheRegisters : Obligations.PureOperationsLeaveTheRegisters := by
  intro i s t h
  have he := exec_effect h
  constructor
  · intro hc
    rw [hc] at he
    cases he with
    | returned hr k v => exact ⟨⟨rfl, rfl, rfl, rfl, rfl, rfl⟩, rfl, rfl, rfl, rfl, .inl rfl, .inl rfl⟩
    | validated hr f r o hi hv =>
      refine ⟨⟨rfl, rfl, rfl, rfl, rfl, rfl⟩, rfl, rfl, rfl, rfl, .inl rfl, .inr ⟨f, r, hi, fun x hx => ?_⟩⟩
      exact (lastVerdict_noteVerdict r x o.kind s.verdicts).trans (if_neg hx)
    | built hr f v => exact ⟨⟨rfl, rfl, rfl, rfl, rfl, rfl⟩, rfl, rfl, rfl, rfl, .inr ⟨_, rfl⟩, .inl rfl⟩
  · intro hc
    rw [hc] at he
    cases he with
    | delivered ha c => exact ⟨c, rfl⟩

/-! ## The outcome register -/

theorem Effect.resValid {i : Instr} {c : InstrClass} {s t : State} (h : Effect s i c t) (hs : s.resValid = true) :
    t.resValid = true := by
  cases h with
  | transacted hr u hc o ho v => exact Option.isSome_iff_exists.2 hc.res_isSome
  | _ => exact hs

theorem Kind.code_le (k : Kind) : k.code.toNat ≤ 6 := by
  rcases k with _ | k
  · decide
  · cases k <;> decide

theorem Result.value_of_code_ne_zero {o : Result} (h : o.kind.code ≠ 0) : o.value = [] := by
  cases o with
  | ok r => exact absurd rfl h
  | fail k => rfl

/-- Settles O44: no effect makes the register invalid, and a code other than 0 is a failure's, whose value is empty. -/
theorem outcomeRegisterStaysValid : Obligations.OutcomeRegisterStaysValid := by
  refine ⟨fun i s t h hs => (exec_effect h).resValid hs, fun s hs => ?_, rfl, rfl, rfl, rfl, rfl, rfl, rfl⟩
  obtain ⟨o, ho⟩ := Option.isSome_iff_exists.1 hs
  simp only [State.resKind, State.resValue, ho]
  exact ⟨o.kind.code_le, Result.value_of_code_ne_zero⟩

/-! ## The meanings, up to their operands -/

/-- The functions of the state that an instruction can mean: the 38 rows differ only in the operands of these. -/
inductive Meaning : (State → Out) → Prop where
  | returns (k : Kind) (v : Value) : Meaning fun s => asHost s fun s => .next (s.returns k v)
  | build (fc : Byte) (addr val : U16) : Meaning fun s => asHost s (returnBuilt fc addr val)
  | buildRow (fc : Byte) (addr val crc : U16) : Meaning (buildRow fc addr val crc)
  | expectedLen (f : Frame8) : Meaning (execExpectedLen f)
  | validate (f : Frame8) (r : Bytes) : Meaning (execValidate f r)
  | extraction (r : Bytes) (v : Option Value) : Meaning (extraction r v)
  | transaction (fc : Byte) (addr val : U16) : Meaning fun s => asHost s (transaction fc addr val)
  | get (a : Attribute) (dec : Bytes → Option Value) (zero : Value) : Meaning (getRecipe a dec zero)
  | set (a : Attribute) (valid : U16 → Bool) (v : U16) : Meaning (setRecipe a valid v)
  | send : Meaning execSend
  | clear : Meaning execClear
  | capture : Meaning execCapture
  | deliver (c : Bytes) : Meaning (deliverResponse c)

theorem exec_meaning (i : Instr) : Meaning (exec i) := by
  cases i with
  | reqReadHr => exact .buildRow Config.fcReadHr ..
  | reqReadIr => exact .buildRow Config.fcReadIr ..
  | reqWriteSr => exact .buildRow Config.fcWriteSr ..
  | rresp | wresp => exact .deliver _
  | crc16 | crcAppend | crcByte => exact .returns ..
  | build => exact .build ..
  | expectedLen => exact .expectedLen _
  | validate => exact .validate ..
  | extractU16 | extractU32 | extractBytes => exact .extraction ..
  | transact | readHr | readIr | writeHr => exact .transaction ..
  | send => exact .send
  | clear => exact .clear
  | capture => exact .capture
  | setAbcPeriod | setUserConcentration | setUserAck | setSpecialCommand => exact .set ..
  | getSerialNumber | getSoftwareVersion | getCo2 | getTemperature | getAbcPeriod | getUserConcentration | getUserAck
  | getMeterStatus | getOutputStatus | getPwmOutput | getSensorTypeId | getSensorId | getMemoryMapVersion =>
    exact .get ..

theorem Meaning.of_ended {m : State → Out} (hm : Meaning m) {s : State} (h : s.session = .ended) :
    m s = .refused .sessionEnded := by
  cases hm with
  | send | clear | capture | deliver => exact inSession_of_ended h _
  | _ => exact asHost_of_ended h _

/-- Settles O41: every meaning begins by asking whether the session lasts. -/
theorem nothingRunsAfterTheSession : Obligations.NothingRunsAfterTheSession :=
  fun i _ h => (exec_meaning i).of_ended h

/-! ## Runs from two related states -/

/-- The two states agree in everything that the control flow of an instruction or a step reads. -/
structure State.SameView (s s' : State) : Prop where
  par : s'.par = s.par
  session : s'.session = s.session
  txf : s'.txf = s.txf
  res : s'.res = s.res
  ph : s'.ph = s.ph
  built : s'.built = s.built
  verdicts : s'.verdicts = s.verdicts
  inputs : s'.inputs = s.inputs
  captured : s'.captured = s.captured

/-- A relation between states of one view that every update of the model keeps. -/
structure KeptByUpdates (R : State → State → Prop) : Prop where
  view {s s' : State} : R s s' → s.SameView s'
  returns {s s' : State} (k : Kind) (v : Value) : R s s' → R (s.returns k v) (s'.returns k v)
  emitTrace {s s' : State} (e : TraceEvent) : R s s' → R (s.emitTrace e) (s'.emitTrace e)
  judge {s s' : State} (r : Bytes) (k : Kind) : R s s' → R (s.judge r k) (s'.judge r k)
  fail {s s' : State} (k : FailKind) : R s s' → R (s.fail k) (s'.fail k)
  succeed {s s' : State} : R s s' → R s.succeed s'.succeed
  setPhase {s s' : State} (p : Phase) : R s s' → R { s with ph := p } { s' with ph := p }
  setBuilt {s s' : State} (f : Option Frame8) : R s s' → R { s with built := f } { s' with built := f }
  sendFrame {s s' : State} (f : Frame8) : R s s' → R (s.sendFrame f) (s'.sendFrame f)
  clearBuffer {s s' : State} : R s s' → R s.clearBuffer s'.clearBuffer
  captureChunk {s s' : State} : R s s' → R s.captureChunk s'.captureChunk
  linkDeliver {s s' : State} (c : Bytes) : R s s' → R (s.linkDeliver c) (s'.linkDeliver c)
  afterFetch {s s' : State} : R s s' → R s.afterFetch s'.afterFetch

/-- Where the first outcome is a next state, so is the second, and the two states are related. -/
def Matched (R : State → State → Prop) (o o' : Out) : Prop := ∀ t, o = .next t → ∃ t', o' = .next t' ∧ R t t'

section
variable {R : State → State → Prop} {s s' : State}

theorem matched_next (h : R s s') : Matched R (.next s) (.next s') := by
  rintro _ ⟨⟩
  exact ⟨s', rfl, h⟩

theorem matched_refused (r : Refusal) (o' : Out) : Matched R (.refused r) o' := by
  rintro t h
  cases h

theorem matched_inSession {body body' : State → Out} (hs : s'.session = s.session)
    (h : Matched R (body s) (body' s')) : Matched R (inSession s body) (inSession s' body') := by
  intro t ht
  obtain ⟨ha, hb⟩ := inSession_next ht
  rw [inSession_of_active (hs.trans ha)]
  exact h t hb

theorem matched_asHost {body body' : State → Out} (hv : s.SameView s') (h : Matched R (body s) (body' s')) :
    Matched R (asHost s body) (asHost s' body') := by
  intro t ht
  obtain ⟨⟨ha, hp⟩, hb⟩ := asHost_next ht
  rw [asHost_of_ready ⟨hv.session.trans ha, hv.ph.trans hp⟩]
  exact h t hb

theorem matched_andThen {o o' : Out} {f f' : State → Out} (ho : Matched R o o')
    (hf : ∀ u u', R u u' → Matched R (f u) (f' u')) : Matched R (andThen o f) (andThen o' f') := by
  intro t ht
  obtain ⟨u, hu, ht⟩ := andThen_eq_next ht
  obtain ⟨u', hu', hr⟩ := ho u hu
  rw [hu', andThen_next]
  exact hf u u' hr t ht

variable (hR : KeptByUpdates R) (h : R s s')
include hR h

/-! ### The transaction -/

theorem matched_execSend : Matched R (execSend s) (execSend s') := by
  refine matched_inSession (hR.view h).session ?_
  simp only [(hR.view h).ph, (hR.view h).built]
  split
  · exact matched_next (hR.sendFrame _ h)
  · exact matched_refused _ _

theorem matched_execClear : Matched R (execClear s) (execClear s') := by
  refine matched_inSession (hR.view h).session ?_
  simp only [(hR.view h).ph]
  split
  · exact matched_next (hR.clearBuffer h)
  · exact matched_refused _ _

theorem matched_execCapture : Matched R (execCapture s) (execCapture s') := by
  refine matched_inSession (hR.view h).session ?_
  simp only [(hR.view h).ph]
  split
  · exact matched_next (hR.captureChunk h)
  · exact matched_refused _ _

theorem matched_expectStep : Matched R (expectStep s) (expectStep s') := by
  have hbind : s'.txf.bind expectedLength = s.txf.bind expectedLength := by rw [(hR.view h).txf]
  rw [expectStep, expectStep, hbind]
  split
  · exact matched_next (hR.setPhase .t5 h)
  · exact matched_refused _ _

theorem matched_validateStep : Matched R (validateStep s) (validateStep s') := by
  have hbind : (s'.txf.bind fun f => validateResponse f s'.captured) =
      s.txf.bind fun f => validateResponse f s.captured := by rw [(hR.view h).txf, (hR.view h).captured]
  rw [validateStep, validateStep, hbind, (hR.view h).captured]
  split
  · exact matched_refused _ _
  · rename_i v hv
    have hjudged := hR.emitTrace (.validationResult v.kind) (hR.judge s.captured v.kind (hR.setPhase .t6 h))
    split
    · exact matched_next hjudged
    · exact matched_next (hR.fail _ hjudged)

theorem matched_advance : Matched R (advance s) (advance s') := by
  simp only [advance, (hR.view h).ph]
  split
  · exact matched_next h
  · exact matched_execSend hR h
  · exact matched_execClear hR h
  · exact matched_execCapture hR h
  · exact matched_expectStep hR h
  · exact matched_validateStep hR h
  · exact matched_next (hR.succeed h)
  · exact matched_next (hR.succeed h)

omit h in
theorem matched_runToIdle (n : Nat) {s s' : State} (h : R s s') : Matched R (runToIdle n s) (runToIdle n s') := by
  induction n generalizing s s' with
  | zero => exact matched_next h
  | succ n ih =>
    simp only [runToIdle, (hR.view h).ph]
    split
    · exact matched_next h
    · exact matched_andThen (matched_advance hR h) fun u u' hu => ih hu

theorem related_startTransact (fc : Byte) (addr val : U16) :
    R (startTransact fc addr val s) (startTransact fc addr val s') := by
  have hpar := (hR.view h).par
  by_cases ha : Admitted s.par fc val
  · rw [startTransact_of_admitted ha, startTransact_of_admitted (hpar.symm ▸ ha)]
    exact hR.emitTrace _ (hR.setBuilt _ (hR.setPhase .t1 h))
  · rw [startTransact_of_not ha, startTransact_of_not (hpar.symm ▸ ha)]
    exact hR.fail _ h

theorem matched_transaction (fc : Byte) (addr val : U16) :
    Matched R (transaction fc addr val s) (transaction fc addr val s') :=
  matched_runToIdle hR 6 (related_startTransact hR h fc addr val)

/-! ### The other meanings -/

theorem matched_returnBuilt (fc : Byte) (addr val : U16) :
    Matched R (returnBuilt fc addr val s) (returnBuilt fc addr val s') := by
  unfold returnBuilt
  split
  · exact matched_next (hR.returns _ _ (hR.emitTrace _ h))
  · exact matched_next (hR.returns _ _ h)

theorem matched_buildRow (fc : Byte) (addr val crc : U16) :
    Matched R (buildRow fc addr val crc s) (buildRow fc addr val crc s') := by
  refine matched_asHost (hR.view h) ?_
  split
  · split
    · exact matched_returnBuilt hR h fc addr val
    · exact matched_refused _ _
  · exact matched_returnBuilt hR h fc addr val

theorem matched_execExpectedLen (f : Frame8) : Matched R (execExpectedLen f s) (execExpectedLen f s') := by
  refine matched_asHost (hR.view h) ?_
  split
  · exact matched_next (hR.returns _ _ h)
  · exact matched_refused _ _

theorem matched_execValidate (f : Frame8) (r : Bytes) : Matched R (execValidate f r s) (execValidate f r s') := by
  refine matched_asHost (hR.view h) ?_
  split
  · exact matched_next (hR.returns _ _ (hR.judge _ _ h))
  · exact matched_refused _ _

theorem matched_extraction (r : Bytes) (v : Option Value) : Matched R (extraction r v s) (extraction r v s') := by
  refine matched_asHost (hR.view h) ?_
  rw [accepts_congr (hR.view h).verdicts]
  split
  · exact matched_refused _ _
  · split
    · exact matched_next (hR.returns _ _ h)
    · exact matched_refused _ _

theorem matched_getRecipe (a : Attribute) (dec : Bytes → Option Value) (zero : Value) :
    Matched R (getRecipe a dec zero s) (getRecipe a dec zero s') := by
  refine matched_asHost (hR.view h) ?_
  rw [(hR.view h).par]
  refine matched_andThen (matched_transaction hR h _ _ _) fun u u' hu => ?_
  rw [(hR.view hu).res]
  split
  · split
    · exact matched_next (hR.returns _ _ hu)
    · exact matched_refused _ _
  · exact matched_next (hR.returns _ _ hu)
  · exact matched_next hu

theorem matched_setRecipe (a : Attribute) (valid : U16 → Bool) (v : U16) :
    Matched R (setRecipe a valid v s) (setRecipe a valid v s') := by
  refine matched_asHost (hR.view h) ?_
  rw [(hR.view h).par]
  split
  · exact matched_next (hR.returns _ _ h)
  · refine matched_andThen (matched_transaction hR h _ _ _) fun u u' hu => ?_
    rw [(hR.view hu).res]
    split
    · exact matched_next (hR.returns _ _ hu)
    · exact matched_next hu

theorem matched_deliverResponse (c : Bytes) : Matched R (deliverResponse c s) (deliverResponse c s') :=
  matched_inSession (hR.view h).session (matched_next (hR.linkDeliver c h))

theorem Meaning.matched {m : State → Out} (hm : Meaning m) : Matched R (m s) (m s') := by
  cases hm with
  | returns k v => exact matched_asHost (hR.view h) (matched_next (hR.returns k v h))
  | build fc addr val => exact matched_asHost (hR.view h) (matched_returnBuilt hR h fc addr val)
  | buildRow fc addr val crc => exact matched_buildRow hR h fc addr val crc
  | expectedLen f => exact matched_execExpectedLen hR h f
  | validate f r => exact matched_execValidate hR h f r
  | extraction r v => exact matched_extraction hR h r v
  | transaction fc addr val => exact matched_asHost (hR.view h) (matched_transaction hR h fc addr val)
  | get a dec zero => exact matched_getRecipe hR h a dec zero
  | set a valid v => exact matched_setRecipe hR h a valid v
  | send => exact matched_execSend hR h
  | clear => exact matched_execClear hR h
  | capture => exact matched_execCapture hR h
  | deliver c => exact matched_deliverResponse hR h c

/-- Every instruction keeps a relation that the updates keep. -/
theorem matched_exec (i : Instr) : Matched R (exec i s) (exec i s') := (exec_meaning i).matched hR h

theorem matched_runLine (line : Bytes) : Matched R (runLine line s) (runLine line s') := by
  unfold runLine
  split
  · exact matched_refused _ _
  · exact matched_next h
  · exact matched_deliverResponse hR h _
  · split
    · exact matched_exec hR h _
    · exact matched_refused _ _

/-- Every step keeps a relation that the updates keep. -/
theorem matched_step : Matched R (step s) (step s') := by
  simp only [step, (hR.view h).ph, (hR.view h).inputs]
  split
  case h_1 =>
    split
    · exact matched_next h
    · exact matched_runLine hR (hR.afterFetch h) _
  all_goals exact matched_inSession (hR.view h).session (matched_advance hR h)

end

/-! ## The bytes at or above `rlen` -/

/-- The second state is the first with another canonical buffer that has the same bytes below `rlen`
(10_state.md R27). -/
def State.AgreesBelowRlen (s s' : State) : Prop :=
  ∃ m : Memory, s' = { s with rbuf := m } ∧ s.rbuf.wf ∧ m.wf ∧
    ∀ a, a < s.rlen → Memory.read m a = Memory.read s.rbuf a

theorem afterFetch_setRbuf (s : State) (m : Memory) :
    State.afterFetch { s with rbuf := m } = { s.afterFetch with rbuf := m } := by
  unfold State.afterFetch
  dsimp only
  split
  · rfl
  · split
    · rfl
    · split <;> rfl

theorem captured_setRbuf {s : State} {m : Memory}
    (h : ∀ a, a < s.rlen → Memory.read m a = Memory.read s.rbuf a) :
    State.captured { s with rbuf := m } = s.captured := Memory.slice_congr h

/-- Two canonical buffers agree below the end of what is written to both from offset 0. -/
theorem read_writeBytes_congr {m m' : Memory} (hm : m.wf) (hm' : m'.wf) (c : Bytes) {a : Nat} (ha : a < c.length) :
    Memory.read (m.writeBytes 0 c) a = Memory.read (m'.writeBytes 0 c) a := by
  have hin : 0 ≤ a ∧ a < 0 + c.length := by omega
  rw [Memory.read_writeBytes c m hm, Memory.read_writeBytes c m' hm', if_pos hin, if_pos hin]

theorem agreesBelowRlen_kept : KeptByUpdates State.AgreesBelowRlen where
  view := by
    rintro s _ ⟨m, rfl, -, -, h⟩
    exact ⟨rfl, rfl, rfl, rfl, rfl, rfl, rfl, rfl, captured_setRbuf h⟩
  returns := by rintro k v s _ ⟨m, rfl, h⟩; exact ⟨m, rfl, h⟩
  emitTrace := by rintro e s _ ⟨m, rfl, h⟩; exact ⟨m, rfl, h⟩
  judge := by rintro r k s _ ⟨m, rfl, h⟩; exact ⟨m, rfl, h⟩
  fail := by rintro k s _ ⟨m, rfl, h⟩; exact ⟨m, rfl, h⟩
  succeed := by
    rintro s _ ⟨m, rfl, hs, hm, h⟩
    refine ⟨m, ?_, hs, hm, h⟩
    simp only [State.succeed, captured_setRbuf h, State.returns]
  setPhase := by rintro p s _ ⟨m, rfl, h⟩; exact ⟨m, rfl, h⟩
  setBuilt := by rintro f s _ ⟨m, rfl, h⟩; exact ⟨m, rfl, h⟩
  sendFrame := by rintro f s _ ⟨m, rfl, h⟩; exact ⟨m, rfl, h⟩
  clearBuffer := by
    rintro s _ ⟨m, rfl, -⟩
    exact ⟨Memory.cleared, rfl, Memory.wf_cleared, Memory.wf_cleared, fun _ _ => rfl⟩
  captureChunk := by
    rintro s _ ⟨m, rfl, hs, hm, -⟩
    exact ⟨m.writeBytes 0 (s.captureAnswer s.par.cap), rfl, Memory.wf_writeBytes _ _ hs 0,
      Memory.wf_writeBytes _ _ hm 0, fun a ha => read_writeBytes_congr hm hs _ ha⟩
  linkDeliver := by rintro c s _ ⟨m, rfl, h⟩; exact ⟨m, rfl, h⟩
  afterFetch := by
    rintro s _ ⟨m, rfl, h⟩
    obtain ⟨inputs, link, he⟩ := afterFetch_eq s
    refine ⟨m, afterFetch_setRbuf s m, ?_⟩
    rw [he]
    exact h

theorem Matched.agreesBelowRlen {o o' : Out} (h : Matched State.AgreesBelowRlen o o') (t : State) (ht : o = .next t) :
    ∃ m', o' = .next { t with rbuf := m' } ∧ ∀ a, a < t.rlen → Memory.read m' a = Memory.read t.rbuf a := by
  obtain ⟨_, ho', m', rfl, -, -, hread⟩ := h t ht
  exact ⟨m', ho', hread⟩

/-- Settles O46: agreement below `rlen` is a relation that every update keeps. -/
theorem bytesAboveRlenNeverMatter : Obligations.BytesAboveRlenNeverMatter := by
  intro s m hs hm hread
  have h : s.AgreesBelowRlen { s with rbuf := m } := ⟨m, rfl, hs, hm, hread⟩
  exact ⟨fun i => (matched_exec agreesBelowRlen_kept h i).agreesBelowRlen,
    (matched_step agreesBelowRlen_kept h).agreesBelowRlen⟩

end Sys2Proof.Machine
end

section
/-! PROOFS. The statements of 30_encoding.md: what written operations, frames and table words decode to, the operands
that do not fit, what a step does with its input line, response rows and pseudo-operations. -/

namespace Sys2Proof

/-! ## Written operations -/

theorem findRow_eq_some {w : Bytes} {rows : List OpRow} {row : OpRow} (h : findRow w rows = some row) :
    row ∈ rows ∧ row.name = w := by
  induction rows with
  | nil => cases h
  | cons r rows ih =>
    rw [findRow] at h
    split at h
    · cases h
      exact ⟨List.mem_cons_self, by assumption⟩
    · exact ⟨List.mem_cons_of_mem _ (ih h).1, (ih h).2⟩

/-- The bytes that mnemonics are made of: digits, capitals and the underscore. -/
def isMnemonicByte (b : Byte) : Bool :=
  (0x30 ≤ b.toNat && b.toNat ≤ 0x39) || (0x41 ≤ b.toNat && b.toNat ≤ 0x5A) || b.toNat == 0x5F

theorem plain_of_mnemonicBytes {w : Bytes} (h : w.all isMnemonicByte = true) : PlainWord w := by
  have hmark : ∀ mark ∈ [chComment, chBlank, chComma, chOpen, chClose], isMnemonicByte mark = false := by decide
  intro b hb
  have hbyte : isMnemonicByte b = true := List.all_eq_true.1 h b hb
  have hne : ∀ mark ∈ [chComment, chBlank, chComma, chOpen, chClose], b ≠ mark := by
    rintro mark hm rfl
    exact absurd hbyte (by simp [hmark b hm])
  simpa using hne

/-- Every mnemonic is one word, and begins neither a frame nor a LINK line (30_encoding.md R70, R71, R76). -/
theorem opRows_names : ∀ row ∈ opRows, row.name.all isMnemonicByte = true ∧
    row.name.head? ≠ some Config.devAddr ∧ row.name ≠ [] ∧ row.name ≠ kwLink := by
  decide +kernel

/-- The operands behind the mnemonic are read by the form. -/
abbrev HasForm (name : Bytes) (form : List Operand → Except DecodeError Instr) : Prop :=
  findRow name opRows = some ⟨name, form⟩

/-- A written operation decodes to what the form of its mnemonic makes of its operands. -/
theorem decode_opLine_of_row {name : Bytes} {form : List Operand → Except DecodeError Instr}
    (hrow : HasForm name form) {texts : List Bytes} {os : List Operand}
    (h : ReadsAll texts os) : decode (opLine name texts) = form os := by
  obtain ⟨hbytes, hhead, hne, hlink⟩ := opRows_names _ (findRow_eq_some hrow).1
  exact decode_opLine (plain_of_mnemonicBytes hbytes) hhead hne hlink hrow h

/-! ### Operands that fit -/

theorem needU8_of_byte (b : Byte) (k : Byte → Instr) : needU8 b.toNat k = .ok (k b) := by simp [needU8]

theorem needU16_of_word (v : U16) (k : U16 → Except DecodeError Instr) : needU16 v.toNat k = k v := by simp [needU16]

section
variable {name : Bytes}

theorem decode_opLine_none {i : Instr} (hrow : HasForm name (formNone i)) :
    decode (opLine name []) = .ok i := decode_opLine_of_row hrow .nil

theorem decode_opLine_u16 {k : U16 → Instr} (hrow : HasForm name (formU16 k)) (v : U16) :
    decode (opLine name [numU16 v]) = .ok (k v) := by
  rw [decode_opLine_of_row hrow (.cons (reads_numU16 v) .nil), formU16, needU16_of_word]

theorem decode_opLine_u16_u16 {k : U16 → U16 → Instr} (hrow : HasForm name (formU16U16 k)) (v w : U16) :
    decode (opLine name [numU16 v, numU16 w]) = .ok (k v w) := by
  rw [decode_opLine_of_row hrow (.cons (reads_numU16 v) (.cons (reads_numU16 w) .nil)), formU16U16, needU16_of_word,
    needU16_of_word]

theorem decode_opLine_u8_u16_u16 {k : Byte → U16 → U16 → Instr} (hrow : HasForm name (formU8U16U16 k))
    (b : Byte) (v w : U16) : decode (opLine name [numU8 b, numU16 v, numU16 w]) = .ok (k b v w) := by
  rw [decode_opLine_of_row hrow (.cons (reads_numU8 b) (.cons (reads_numU16 v) (.cons (reads_numU16 w) .nil))),
    formU8U16U16, needU16_of_word, needU16_of_word, needU8_of_byte]

theorem decode_opLine_u16_u8 {k : U16 → Byte → Instr} (hrow : HasForm name (formU16U8 k))
    (v : U16) (b : Byte) : decode (opLine name [numU16 v, numU8 b]) = .ok (k v b) := by
  rw [decode_opLine_of_row hrow (.cons (reads_numU16 v) (.cons (reads_numU8 b) .nil)), formU16U8, needU16_of_word,
    needU8_of_byte]

theorem decode_opLine_bytes {k : Bytes → Instr} (hrow : HasForm name (formBytes k)) (s : Bytes) :
    decode (opLine name [bracketed s]) = .ok (k s) := decode_opLine_of_row hrow (.cons (reads_bracketed s) .nil)

theorem decode_opLine_frame {k : Frame8 → Instr} (hrow : HasForm name (formFrame k)) (f : Frame8) :
    decode (opLine name [bracketed (Machine.frameBytes f)]) = .ok (k f) :=
  decode_opLine_of_row hrow (.cons (reads_bracketed _) .nil)

theorem decode_opLine_frame_bytes {k : Frame8 → Bytes → Instr} (hrow : HasForm name (formFrameBytes k))
    (f : Frame8) (r : Bytes) :
    decode (opLine name [bracketed (Machine.frameBytes f), bracketed r]) = .ok (k f r) :=
  decode_opLine_of_row hrow (.cons (reads_bracketed _) (.cons (reads_bracketed r) .nil))

theorem decode_opLine_bytes_nat {k : Bytes → Nat → Instr} (hrow : HasForm name (formBytesNat k))
    (r : Bytes) (n : Nat) : decode (opLine name [bracketed r, numNat n]) = .ok (k r n) :=
  decode_opLine_of_row hrow (.cons (reads_bracketed r) (.cons (reads_numNat n) .nil))

theorem decode_opLine_bytes_nat_nat {k : Bytes → Nat → Nat → Instr}
    (hrow : HasForm name (formBytesNatNat k)) (r : Bytes) (n m : Nat) :
    decode (opLine name [bracketed r, numNat n, numNat m]) = .ok (k r n m) :=
  decode_opLine_of_row hrow (.cons (reads_bracketed r) (.cons (reads_numNat n) (.cons (reads_numNat m) .nil)))

end

/-! ## Responses -/

/-- A well-formed read response is recognised from its own bytes (30_encoding.md R65). -/
theorem responseOf_rrespBytes {fc : Byte} {payload : Bytes} (h : (Instr.rresp fc payload).wf = true) :
    responseOf (Machine.rrespBytes fc payload) = some (.rresp fc payload) := by
  have hfc : (Machine.rrespBytes fc payload).getD 1 0 = fc := rfl
  have hpayload :
      ((Machine.rrespBytes fc payload).drop 3).take ((Machine.rrespBytes fc payload).length - 5) = payload := by
    simp [Machine.rrespBytes, Machine.crcAppend]
  rw [responseOf]
  simp only [hfc, hpayload, h, and_self, if_true]

/-- The echo of a write is recognised from its own bytes: its function code is no read code (30_encoding.md R66). -/
theorem responseOf_wrespBytes (addr val : U16) :
    responseOf (Machine.wrespBytes addr val) = some (.wresp addr val) := by
  have hfc : (Machine.wrespBytes addr val).getD 1 0 = Config.fcWriteSr := rfl
  have hframe : Machine.frameOfBytes (Machine.wrespBytes addr val)
      = some (Machine.reqFrame Config.fcWriteSr addr val) := rfl
  rw [responseOf, hfc, if_neg (fun h => Bool.false_ne_true h.2), hframe]
  simp [Machine.wrespBytes]

theorem decode_linkLine_of_response {c : Bytes} {i : Instr} (hne : c ≠ []) (h : responseOf c = some i) :
    decode (linkLine c) = .ok i := by
  rw [decode_linkLine hne, h]

/-! ## Every instruction -/

/-- Settles O10: a request is decoded from its own bytes, a response from its LINK line, an operation by the form of
its mnemonic. -/
theorem decodeGivesBackEveryInstruction : Obligations.DecodeGivesBackEveryInstruction := by
  intro i hwf
  cases i with
  | reqReadHr addr val crc => exact decode_reqBytes Config.fcReadHr addr val crc
  | reqReadIr addr val crc => exact decode_reqBytes Config.fcReadIr addr val crc
  | reqWriteSr addr val crc => exact decode_reqBytes Config.fcWriteSr addr val crc
  | rresp fc payload => exact decode_linkLine_of_response (List.cons_ne_nil _ _) (responseOf_rrespBytes hwf)
  | wresp addr val => exact decode_linkLine_of_response (List.cons_ne_nil _ _) (responseOf_wrespBytes addr val)
  | crc16 s => exact decode_opLine_bytes rfl s
  | crcAppend s => exact decode_opLine_bytes rfl s
  | build fc addr val => exact decode_opLine_u8_u16_u16 rfl fc addr val
  | expectedLen f => exact decode_opLine_frame rfl f
  | validate f r => exact decode_opLine_frame_bytes rfl f r
  | extractU16 r off => exact decode_opLine_bytes_nat rfl r off
  | extractU32 r off => exact decode_opLine_bytes_nat rfl r off
  | extractBytes r off k => exact decode_opLine_bytes_nat_nat rfl r off k
  | transact fc addr val => exact decode_opLine_u8_u16_u16 rfl fc addr val
  | crcByte c b => exact decode_opLine_u16_u8 rfl c b
  | send => exact decode_opLine_none rfl
  | clear => exact decode_opLine_none rfl
  | capture => exact decode_opLine_none rfl
  | readHr addr count => exact decode_opLine_u16_u16 rfl addr count
  | readIr addr count => exact decode_opLine_u16_u16 rfl addr count
  | writeHr addr value => exact decode_opLine_u16_u16 rfl addr value
  | getSerialNumber => exact decode_opLine_none rfl
  | getSoftwareVersion => exact decode_opLine_none rfl
  | getCo2 => exact decode_opLine_none rfl
  | getTemperature => exact decode_opLine_none rfl
  | getAbcPeriod => exact decode_opLine_none rfl
  | setAbcPeriod v => exact decode_opLine_u16 rfl v
  | setUserConcentration v => exact decode_opLine_u16 rfl v
  | getUserConcentration => exact decode_opLine_none rfl
  | getUserAck => exact decode_opLine_none rfl
  | setUserAck v => exact decode_opLine_u16 rfl v
  | setSpecialCommand v => exact decode_opLine_u16 rfl v
  | getMeterStatus => exact decode_opLine_none rfl
  | getOutputStatus => exact decode_opLine_none rfl
  | getPwmOutput => exact decode_opLine_none rfl
  | getSensorTypeId => exact decode_opLine_none rfl
  | getSensorId => exact decode_opLine_none rfl
  | getMemoryMapVersion => exact decode_opLine_none rfl

/-! ## Operands that do not fit -/

theorem needU8_of_ge {n : Nat} (h : 256 ≤ n) (k : Byte → Instr) : needU8 n k = .error .operandDoesNotFit := by
  simp [needU8, Machine.asU8, Nat.not_lt.2 h]

theorem needU16_of_ge {n : Nat} (h : 65536 ≤ n) (k : U16 → Except DecodeError Instr) :
    needU16 n k = .error .operandDoesNotFit := by
  simp [needU16, Machine.asU16, Nat.not_lt.2 h]

theorem needFrame_of_length_ne {s : Bytes} (h : s.length ≠ 8) (k : Frame8 → Instr) :
    needFrame s k = .error .operandDoesNotFit := by
  have hnone : Machine.frameOfBytes s = none := by
    rw [← Option.not_isSome_iff_eq_none, Machine.frameOfBytes_isSome]
    simpa using h
  rw [needFrame, hnone]

section
variable {name : Bytes} {n : Nat}

theorem decode_opLine_u16_refused {k : U16 → Instr} (hrow : HasForm name (formU16 k)) (hn : 65536 ≤ n) :
    decode (opLine name [numNat n]) = .error .operandDoesNotFit := by
  rw [decode_opLine_of_row hrow (.cons (reads_numNat n) .nil), formU16, needU16_of_ge hn]

theorem decode_opLine_u16_u16_refused {k : U16 → U16 → Instr} (hrow : HasForm name (formU16U16 k))
    (hn : 65536 ≤ n) (v : U16) :
    decode (opLine name [numNat n, numU16 v]) = .error .operandDoesNotFit ∧
      decode (opLine name [numU16 v, numNat n]) = .error .operandDoesNotFit := by
  rw [decode_opLine_of_row hrow (.cons (reads_numNat n) (.cons (reads_numU16 v) .nil)),
    decode_opLine_of_row hrow (.cons (reads_numU16 v) (.cons (reads_numNat n) .nil)), formU16U16, formU16U16,
    needU16_of_word, needU16_of_ge hn, needU16_of_ge hn]
  exact ⟨rfl, rfl⟩

theorem decode_opLine_u16_u8_refused_word {k : U16 → Byte → Instr} (hrow : HasForm name (formU16U8 k))
    (hn : 65536 ≤ n) (b : Byte) : decode (opLine name [numNat n, numU8 b]) = .error .operandDoesNotFit := by
  rw [decode_opLine_of_row hrow (.cons (reads_numNat n) (.cons (reads_numU8 b) .nil)), formU16U8, needU16_of_ge hn]

theorem decode_opLine_u16_u8_refused_byte {k : U16 → Byte → Instr} (hrow : HasForm name (formU16U8 k))
    (hn : 256 ≤ n) (v : U16) : decode (opLine name [numU16 v, numNat n]) = .error .operandDoesNotFit := by
  rw [decode_opLine_of_row hrow (.cons (reads_numU16 v) (.cons (reads_numNat n) .nil)), formU16U8, needU16_of_word,
    needU8_of_ge hn]

theorem decode_opLine_u8_u16_u16_refused_word {k : Byte → U16 → U16 → Instr}
    (hrow : HasForm name (formU8U16U16 k)) (hn : 65536 ≤ n) (b : Byte) (v : U16) :
    decode (opLine name [numU8 b, numNat n, numU16 v]) = .error .operandDoesNotFit ∧
      decode (opLine name [numU8 b, numU16 v, numNat n]) = .error .operandDoesNotFit := by
  rw [decode_opLine_of_row hrow (.cons (reads_numU8 b) (.cons (reads_numNat n) (.cons (reads_numU16 v) .nil))),
    decode_opLine_of_row hrow (.cons (reads_numU8 b) (.cons (reads_numU16 v) (.cons (reads_numNat n) .nil))),
    formU8U16U16, formU8U16U16, needU16_of_word, needU16_of_ge hn, needU16_of_ge hn]
  exact ⟨rfl, rfl⟩

theorem decode_opLine_u8_u16_u16_refused_byte {k : Byte → U16 → U16 → Instr}
    (hrow : HasForm name (formU8U16U16 k)) (hn : 256 ≤ n) (v w : U16) :
    decode (opLine name [numNat n, numU16 v, numU16 w]) = .error .operandDoesNotFit := by
  rw [decode_opLine_of_row hrow (.cons (reads_numNat n) (.cons (reads_numU16 v) (.cons (reads_numU16 w) .nil))),
    formU8U16U16, needU16_of_word, needU16_of_word, needU8_of_ge hn]

end

/-- The mnemonics whose one operand is a `u16` (45_register_ops.md R231 to R236). -/
theorem hasForm_u16 : ∀ name ∈ [mnSetAbcPeriod, mnSetUserConcentration, mnSetUserAck, mnSetSpecialCommand],
    ∃ k, HasForm name (formU16 k) := by
  simp only [List.forall_mem_cons]
  exact ⟨⟨_, rfl⟩, ⟨_, rfl⟩, ⟨_, rfl⟩, ⟨_, rfl⟩, List.forall_mem_nil _⟩

/-- The mnemonics of the pseudo-operations (30_encoding.md R77). -/
theorem hasForm_u16_u16 : ∀ name ∈ [mnReadHr, mnReadIr, mnWriteHr],
    ∃ k, HasForm name (formU16U16 k) := by
  simp only [List.forall_mem_cons]
  exact ⟨⟨_, rfl⟩, ⟨_, rfl⟩, ⟨_, rfl⟩, List.forall_mem_nil _⟩

/-- The mnemonics whose operands are a function code, an address and a value (R121, R190). -/
theorem hasForm_u8_u16_u16 : ∀ name ∈ [mnBuild, mnTransact],
    ∃ k, HasForm name (formU8U16U16 k) := by
  simp only [List.forall_mem_cons]
  exact ⟨⟨_, rfl⟩, ⟨_, rfl⟩, List.forall_mem_nil _⟩

/-- Settles O13: each form asks for its operand's type, and a number or a sequence that is none is refused. -/
theorem operandThatDoesNotFitIsRefused : Obligations.OperandThatDoesNotFitIsRefused := by
  refine ⟨fun n hn => ⟨?_, ?_, ?_⟩, fun n hn v w => ⟨?_, ?_⟩, fun s r hs => ⟨?_, ?_⟩⟩
  · intro name hname
    obtain ⟨k, hrow⟩ := hasForm_u16 name hname
    exact decode_opLine_u16_refused hrow hn
  · intro v name hname
    obtain ⟨k, hrow⟩ := hasForm_u16_u16 name hname
    exact decode_opLine_u16_u16_refused hrow hn v
  · refine fun b v => ⟨decode_opLine_u16_u8_refused_word rfl hn b, fun name hname => ?_⟩
    obtain ⟨k, hrow⟩ := hasForm_u8_u16_u16 name hname
    exact decode_opLine_u8_u16_u16_refused_word hrow hn b v
  · exact decode_opLine_u16_u8_refused_byte rfl hn v
  · intro name hname
    obtain ⟨k, hrow⟩ := hasForm_u8_u16_u16 name hname
    exact decode_opLine_u8_u16_u16_refused_byte hrow hn v w
  · rw [decode_opLine_of_row (form := formFrame .expectedLen) rfl (.cons (reads_bracketed s) .nil), formFrame,
      needFrame_of_length_ne hs]
  · rw [decode_opLine_of_row (form := formFrameBytes .validate) rfl
      (.cons (reads_bracketed s) (.cons (reads_bracketed r) .nil)), formFrameBytes, needFrame_of_length_ne hs]

/-! ## Table words and written words -/

/-- A frame from the device address whose function code is none of the three is no request (30_encoding.md R70, R72). -/
theorem decode_other_functionCode {fc : Byte} (h : Machine.isFunctionCode fc = false) (b2 b3 b4 b5 b6 b7 : Byte) :
    decode [Config.devAddr, fc, b2, b3, b4, b5, b6, b7] = .error .frameFunctionCode := by
  simp only [Machine.isFunctionCode, Machine.isReadCode, Bool.or_eq_false_iff, beq_eq_false_iff_ne] at h
  obtain ⟨⟨hhr, hir⟩, hsr⟩ := h
  simp [decode, decodeFrame, Machine.frameOfBytes, hhr, hir, hsr]

theorem decodeTableWord_request {fc : Byte} {addr val crc : U16} {top : Nat} {i : Instr}
    (htop : top = (0xFE00 + fc.toNat) * 0x1000000000000) (h : decode (reqBytes fc addr val crc) = .ok i) :
    decodeTableWord 64
      (top + (addr.toNat * 0x100000000 + val.toNat * 0x10000 + (crc.toNat % 256) * 0x100 + crc.toNat / 256)) = some i :=
  decodeTableWord_of_ok (by rw [wordBytes_request fc addr val crc htop, h])

/-- Settles O11: the bytes of a word are those of the request it writes out, and the second one selects the row. -/
theorem tableWordsSelectRequestRows : Obligations.TableWordsSelectRequestRows := by
  refine ⟨fun addr val crc => ⟨?_, ?_, ?_⟩, fun w hdev h3 h4 h6 => ?_⟩
  · exact decodeTableWord_request rfl (decode_reqBytes Config.fcReadHr addr val crc)
  · exact decodeTableWord_request rfl (decode_reqBytes Config.fcReadIr addr val crc)
  · exact decodeTableWord_request rfl (decode_reqBytes Config.fcWriteSr addr val crc)
  · have hdevByte : BitVec.ofNat 8 (w / 256 ^ 7) = Config.devAddr := by
      rw [show 256 ^ 7 = 0x100000000000000 from rfl, hdev]
      rfl
    have hfc : Machine.isFunctionCode (BitVec.ofNat 8 (w / 256 ^ 6)) = false := by
      rw [← Bool.not_eq_true, Machine.isFunctionCode_iff]
      simp only [BitVec.ofNat_eq_ofNat, BitVec.toNat_eq, BitVec.toNat_ofNat]
      omega
    refine decodeTableWord_of_error (e := .frameFunctionCode) ?_
    simp only [wordBytes]
    rw [hdevByte]
    exact decode_other_functionCode hfc _ _ _ _ _ _

/-- Settles O12: each line is short, and the decoder computes it. -/
theorem writtenWordsDecode : Obligations.WrittenWordsDecode := by
  unfold Obligations.WrittenWordsDecode
  decide +kernel

/-! ## LINK lines -/

theorem decodeFrame_ne_emptyLine (bs : Bytes) : decodeFrame bs ≠ .error .emptyLine := by
  unfold decodeFrame
  split
  · nofun
  · split_ifs <;> nofun

/-- A line whose tokens state an answer begins with the word LINK. -/
theorem linkAnswer_head {ts : List Token} {c : Bytes} (h : linkAnswer ts = some c) :
    ∃ ts', ts = .word kwLink :: ts' := by
  unfold linkAnswer at h
  split at h
  · split at h
    case isTrue hl => exact ⟨_, by rw [hl.1]⟩
    case isFalse => cases h
  · cases h

/-- A LINK line that states an answer is not empty, whatever its bytes are (30_encoding.md R76). -/
theorem decode_ne_emptyLine_of_link {line c : Bytes} (h : linkAnswerOf line = some c) :
    decode line ≠ .error .emptyLine := by
  have hlink : decodeLine (tokens line) ≠ .error .emptyLine := by
    obtain ⟨ts, hts⟩ := linkAnswer_head h
    rw [linkAnswerOf, hts] at h
    rw [hts, decodeLine, if_pos rfl, h]
    dsimp only
    split <;> nofun
  cases line with
  | nil => cases h
  | cons b line =>
    rw [decode]
    split
    · exact decodeFrame_ne_emptyLine _
    · exact hlink

end Sys2Proof

namespace Sys2Proof.Machine

/-! ## Taking an input line -/

theorem isBlankLine_iff (line : Bytes) : isBlankLine line = true ↔ decode line = .error .emptyLine := by
  unfold isBlankLine
  split
  · simpa
  · rename_i h
    simpa using h

section
variable {s : State} {line : Bytes} {rest : List Bytes}

theorem afterFetch_line (hin : s.inputs = line :: rest)
    (h : isBlankLine line = true ∨ (linkAnswerOf line).isSome = true ∨ nextLink rest = none) :
    s.afterFetch = { s with inputs := rest } := by
  rw [State.afterFetch, hin]
  dsimp only
  split
  · rfl
  · rename_i hn
    rw [(or_assoc.2 h).resolve_left hn]

theorem afterFetch_line_link (hin : s.inputs = line :: rest) (hb : isBlankLine line = false)
    (hl : linkAnswerOf line = none) {c : Bytes} {rest' : List Bytes} (hn : nextLink rest = some (c, rest')) :
    s.afterFetch = { s with inputs := rest', link := c :: s.link } := by
  simp [State.afterFetch, hin, hb, hl, hn]

theorem step_line (hp : s.ph = .idle) (hin : s.inputs = line :: rest) : step s = runLine line s.afterFetch := by
  simp [step, hp, hin]

theorem step_noLine (hp : s.ph = .idle) (hin : s.inputs = []) : step s = .next s := by
  simp [step, hp, hin]

end

theorem runLine_of_ok {line : Bytes} {i : Instr} (h : decode line = .ok i) (s : State) :
    runLine line s = if i.wf then exec i s else .refused .illFormed := by
  simp [runLine, decodeInput, h]

theorem runLine_of_emptyLine {line : Bytes} (h : decode line = .error .emptyLine) (s : State) :
    runLine line s = .next s := by
  simp [runLine, decodeInput, h]

theorem runLine_of_answer {line : Bytes} {e : DecodeError} (h : decode line = .error e) {c : Bytes}
    (hl : linkAnswerOf line = some c) (s : State) : runLine line s = deliverResponse c s := by
  have he : e ≠ .emptyLine := by
    rintro rfl
    exact decode_ne_emptyLine_of_link hl h
  -- by `he` the decoder's error is not the one of a blank line
  simp [runLine, decodeInput, h, hl]

theorem runLine_of_error {line : Bytes} {e : DecodeError} (h : decode line = .error e) (he : e ≠ .emptyLine)
    (hl : linkAnswerOf line = none) (s : State) : runLine line s = .refused (.undecodable e) := by
  simp [runLine, decodeInput, h, hl]

theorem deliverResponse_of_active {s : State} (h : s.session = .active) (c : Bytes) :
    deliverResponse c s = .next (s.linkDeliver c) := by
  rw [deliverResponse, inSession_of_active h]

/-- Settles O6: a decoded line is not blank, so it is taken with a LINK line that comes right after it, and then run. -/
theorem stepRunsTheDecodedInstruction : Obligations.StepRunsTheDecodedInstruction := by
  intro s line rest i hp hin hd hwf
  have hb : isBlankLine line = false := by simp [isBlankLine, hd]
  refine ⟨?_, fun h => afterFetch_line hin ?_, fun c rest' hl hn => afterFetch_line_link hin hb hl hn⟩
  · rw [step_line hp hin, runLine_of_ok hd, if_pos hwf]
  · exact .inr (h.imp_left Option.isSome_iff_ne_none.2)

/-- Settles O7: a line that is no instruction to run is blank, a LINK line, refused by the decoder, or ill-formed. -/
theorem stepOnOtherInput : Obligations.StepOnOtherInput := by
  refine ⟨fun s => step_noLine, fun s line rest hp hin => ?_⟩
  rw [step_line hp hin]
  refine ⟨fun h => ?_, fun e c h hl ha => ?_, fun e h he hl => ?_, fun i h hwf => ?_⟩
  · rw [runLine_of_emptyLine h, afterFetch_line hin (.inl ((isBlankLine_iff line).2 h))]
  · rw [runLine_of_answer h hl, afterFetch_line hin (.inr (.inl (by simp [hl])))]
    exact deliverResponse_of_active (s := { s with inputs := rest }) ha c
  · exact runLine_of_error h he hl _
  · rw [runLine_of_ok h, hwf]
    rfl

/-! ## Response rows -/

/-- The byte count of a response says how long its payload is (30_encoding.md R65). -/
theorem byteCount_toNat {payload : Bytes} (h : payload.length ≤ 255) :
    (BitVec.ofNat 8 payload.length).toNat = payload.length := by
  rw [BitVec.toNat_ofNat]
  omega

/-- Settles O28: the delivered frame is the CRC_APPEND of its head and payload. -/
theorem responseRowsAreDelivered : Obligations.ResponseRowsAreDelivered := by
  intro s ha
  refine ⟨fun fc payload hlen => ?_, fun addr val => deliverResponse_of_active ha _⟩
  let crc := crc16 ([Config.devAddr, fc, BitVec.ofNat 8 payload.length] ++ payload)
  refine ⟨BitVec.ofNat 8 payload.length, loByte crc, hiByte crc, byteCount_toNat hlen, ?_, ?_⟩
  · rw [← be16_toNat, be16_hi_lo]
    rfl
  · exact deliverResponse_of_active ha _

/-! ## A delivered response and the next read -/

theorem buildable_of_read {fc : Byte} {val : U16} (hfc : isReadCode fc = true) (hval : val ≠ 0) : Buildable fc val :=
  ⟨by simp [isFunctionCode, hfc], fun h => hval h.2⟩

/-- A read response with the asked number of registers is accepted, whichever read code either has
(42_response_validator.md R148, R155). -/
theorem validateResponse_rrespBytes {fc fc' : Byte} {val : U16} (hfc : isReadCode fc = true)
    (hfc' : isReadCode fc' = true) (hval : val ≠ 0) {payload : Bytes} (hlen : payload.length = 2 * val.toNat)
    (hmax : payload.length ≤ 255) (addr : U16) :
    validateResponse (reqFrame fc addr val) (rrespBytes fc' payload) = some (.ok (rrespBytes fc' payload)) := by
  refine (validateResponse_read_ok_iff (isBuilt_reqFrame (buildable_of_read hfc hval) addr) hfc _).2 ⟨?_, ?_, rfl, hfc', ?_⟩
  · rw [rrespBytes_length, frameVal_reqFrame, hlen, Nat.add_comm]
  · exact (crc16_snoc_snoc_eq_zero _ _ _).2 ⟨rfl, rfl⟩
  · rw [rrespBytes_length]
    exact byteCount_toNat hmax

/-- An arrival of at most `max` bytes that stands first is taken whole (43_capture.md R171). -/
theorem captureAnswer_of_short {s : State} {c : Bytes} {cs : List Bytes} {max : Nat} (h : s.link = c :: cs)
    (hc : c.length ≤ max) : s.captureAnswer max = c := by
  simp [State.captureAnswer, h, hc]

theorem afterCycle_captured (s : State) (f : Frame8) (c : Bytes) (o : Result) : (s.afterCycle f c o).captured = c :=
  Memory.slice_writeBytes Memory.cleared Memory.wf_cleared c

theorem exec_transact_of_ready {s : State} (hs : s.Ready) (fc : Byte) (addr val : U16) :
    exec (.transact fc addr val) s = transaction fc addr val s := asHost_of_ready hs (transaction fc addr val)

/-- Settles O29: the frame fits CAP because the count is at most MAX_COUNT, so the read captures it whole. -/
theorem deliveredResponseIsAccepted : Obligations.DeliveredResponseIsAccepted := by
  intro s fc fc' addr count payload hs hpar hlink hfc hfc' hone hmax hlen
  obtain ⟨hcap, -⟩ := hpar
  have hcount : count.toNat ≤ (s.par.cap - 5) / 2 ∧ count.toNat ≤ 127 := le_min_iff.1 hmax
  have hzero : count ≠ 0 := by
    rintro rfl
    exact absurd hone (by decide)
  have hread : isReadCode fc = true := (isReadCode_iff fc).2 hfc
  let u := s.linkDeliver (rrespBytes fc' payload)
  have hadm : Admitted u.par fc count :=
    ⟨buildable_of_read hread hzero, fun h => absurd hmax (Nat.not_le.2 h.2)⟩
  have hanswer : u.captureAnswer u.par.cap = rrespBytes fc' payload := by
    refine captureAnswer_of_short (cs := []) (by simp [u, State.linkDeliver, hlink]) ?_
    rw [rrespBytes_length, State.linkDeliver_par]
    omega
  obtain ⟨o, ho, ht⟩ := transaction_of_admitted (s := u) hs.1 hadm addr
  rw [hanswer] at ho ht
  rw [validateResponse_rrespBytes hread ((isReadCode_iff fc').2 hfc') hzero hlen (by omega)] at ho
  obtain rfl := Option.some.inj ho
  exact ⟨u, _, deliverResponse_of_active hs.1 _, (exec_transact_of_ready (s := u) hs fc addr count).trans ht, rfl,
    afterCycle_captured ..⟩

/-! ## Pseudo-operations -/

/-- Settles O39: a pseudo-operation runs the transaction that its TRANSACT runs. -/
theorem pseudoOperationsAreTransactions : Obligations.PseudoOperationsAreTransactions := by
  intro s addr v hs
  have hexec : ∀ (i : Instr) (fc : Byte), exec i s = asHost s (transaction fc addr v) →
      ∃ t, exec i s = .next t ∧ exec (.transact fc addr v) s = .next t := by
    intro i fc hi
    obtain ⟨t, ht, -⟩ := transaction_cycle hs.1 fc addr v
    exact ⟨t, by rw [hi, asHost_of_ready hs, ht], by rw [exec_transact_of_ready hs, ht]⟩
  simp only [List.forall_mem_cons]
  exact ⟨hexec _ _ rfl, hexec _ _ rfl, hexec _ _ rfl, List.forall_mem_nil _⟩

end Sys2Proof.Machine
end

section
/-! PROOFS. The statements of 40_crc16.md: a byte's eight steps, the checksum of a span, the span with its checksum
appended, and the residue. -/

namespace Sys2Proof.Machine

/-- Each operation of the family, begun in a ready state, only returns its value (R101, R102, R104). -/
theorem asHost_returns_of_ready {s : State} (hs : s.Ready) (v : Value) :
    asHost s (fun u => .next (u.returns .ok v)) = .next (s.returns .ok v) := asHost_of_ready hs _

/-! ## The residue -/

/-- A span followed by its own checksum leaves residue 0. -/
theorem crc16_crcAppend (bs : Bytes) : crc16 (crcAppend bs) = 0 :=
  (crc16_snoc_snoc_eq_zero _ _ _).2 ⟨rfl, rfl⟩

/-- Settles O17: the two trailing bytes bring the register to 0 exactly when they are its low and its high byte. -/
theorem residueIsZeroExactlyForAFrame : Obligations.ResidueIsZeroExactlyForAFrame :=
  ⟨crc16_crcAppend, fun _ => residue_iff_crcAppend⟩

/-! ## CRC_BYTE -/

theorem crcShift_eq_iterate (n : Nat) (c : U16) : crcShift n c = crcBit^[n] c := by
  induction n generalizing c with
  | zero => rfl
  | succ n ih => exact ih (crcBit c)

theorem crcByte_eq_iterate (c : U16) (b : Byte) : crcByte c b = crcBit^[8] (c ^^^ b.setWidth 16) :=
  crcShift_eq_iterate 8 _

/-- Bit 15 of the new CRC is the bit that the last of the eight steps shifts out. -/
theorem crcByte_top (c : U16) (b : Byte) :
    (crcByte c b).getLsbD 15 = (crcBit^[7] (c ^^^ b.setWidth 16)).getLsbD 0 := by
  rw [crcByte_eq_iterate, Function.iterate_succ_apply', crcBit_top]

/-- Settles O14: `crcByte` iterates the bit step eight times, and a step's bit 15 is the bit it shifts out. -/
theorem crcByteIsEightSteps : Obligations.CrcByteIsEightSteps := by
  refine ⟨fun s c b hs => ?_, by decide, crcByte_top, by decide⟩
  have hv : crcByte c b = crcBit^[8] (c ^^^ b.setWidth 16) := crcByte_eq_iterate c b
  exact hv ▸ asHost_returns_of_ready hs (.u16 (crcByte c b))

/-! ## CRC16 -/

theorem crc16_snoc (bs : Bytes) (b : Byte) : crc16 (bs ++ [b]) = crcByte (crc16 bs) b :=
  crc16_append bs [b]

/-- Settles O15: the fold takes one byte more at its end; 00 01 and 01 00 show that the order matters. -/
theorem crc16RunsOverTheSpan : Obligations.Crc16RunsOverTheSpan :=
  ⟨fun _ bs hs => asHost_returns_of_ready hs (.u16 (crc16 bs)), crc16_nil, crc16_snoc,
    ⟨0x00, 0x01, by decide +kernel⟩, by decide +kernel⟩

/-! ## CRC_APPEND -/

/-- A word's number from its two bytes. -/
theorem toNat_eq_hi_lo (v : U16) : v.toNat = 256 * (hiByte v).toNat + (loByte v).toNat := by
  rw [← be16_toNat, be16_hi_lo]

theorem frameBytes_reqFrame_take (fc : Byte) (addr val : U16) :
    (frameBytes (reqFrame fc addr val)).take 6 = reqBody fc addr val := rfl

/-- Settles O16: the two appended bytes are the low and the high byte of the checksum, and a built request is the
`CRC_APPEND` of its body. -/
theorem crcAppendPutsLowByteFirst : Obligations.CrcAppendPutsLowByteFirst := by
  refine ⟨fun s bs hs => ⟨_, _, asHost_returns_of_ready hs (.bytes (crcAppend bs)), toNat_eq_hi_lo _⟩, by decide,
    crcAppend_length, by decide +kernel, fun fc addr val f hf => ?_⟩
  obtain ⟨-, rfl⟩ := buildRequest_ok.1 hf
  rw [frameBytes_reqFrame_take, frameBytes_reqFrame]

end Sys2Proof.Machine
end

section
/-! PROOFS. The statements of 41_request_builder.md: what BUILD and the three request rows do. -/

namespace Sys2Proof.Machine

/-! ## The builder's result -/

/-- The builder's condition by function code (41_request_builder.md R121). -/
theorem buildable_iff (fc : Byte) (val : U16) :
    Buildable fc val ↔ ((fc = 0x03 ∨ fc = 0x04) ∧ val ≠ 0) ∨ fc = 0x06 := by
  rw [Buildable, isFunctionCode_iff, isReadCode_iff, ← or_assoc, not_and]
  constructor
  · rintro ⟨hread | hwrite, hval⟩
    · exact .inl ⟨hread, hval hread⟩
    · exact .inr hwrite
  · rintro (⟨hread, hval⟩ | rfl)
    · exact ⟨.inl hread, fun _ => hval⟩
    · exact ⟨.inr rfl, fun hread => absurd hread (by decide)⟩

theorem buildable_write (val : U16) : Buildable 0x06 val := (buildable_iff _ _).2 (.inr rfl)

theorem not_buildable_of_read_zero {fc : Byte} {val : U16} (hfc : isReadCode fc = true) (hval : val = 0) :
    ¬ Buildable fc val := fun h => h.2 ⟨hfc, hval⟩

/-- What the builder refuses (41_request_builder.md R121). -/
theorem not_buildable_of_invalid {fc : Byte} {val : U16}
    (h : (fc ≠ 0x03 ∧ fc ≠ 0x04 ∧ fc ≠ 0x06) ∨ ((fc = 0x03 ∨ fc = 0x04) ∧ val = 0)) : ¬ Buildable fc val := by
  obtain ⟨h3, h4, h6⟩ | ⟨hread, hval⟩ := h
  · exact fun hb => ((isFunctionCode_iff fc).1 hb.1).elim h3 (·.elim h4 h6)
  · exact not_buildable_of_read_zero ((isReadCode_iff fc).2 hread) hval

theorem returnBuilt_of_buildable {fc : Byte} {val : U16} (h : Buildable fc val) (addr : U16) (s : State) :
    returnBuilt fc addr val s = .next { s with
      ret := some ⟨.ok, .bytes (frameBytes (reqFrame fc addr val))⟩
      obs := s.obs ++ [.trace (.requestBuilt (frameBytes (reqFrame fc addr val)))] } := by
  rw [returnBuilt, buildRequest_of_buildable h]
  rfl

theorem returnBuilt_of_not {fc : Byte} {val : U16} (h : ¬ Buildable fc val) (addr : U16) (s : State) :
    returnBuilt fc addr val s = .next { s with ret := some ⟨.fail .invalidArgument, .bytes []⟩ } := by
  rw [returnBuilt, buildRequest_of_not h]
  rfl

section
variable {s : State} (hs : s.Ready)
include hs

/-! ## BUILD -/

theorem exec_build_of_ready (fc : Byte) (addr val : U16) : exec (.build fc addr val) s = returnBuilt fc addr val s :=
  asHost_of_ready hs _

/-! ## The request rows -/

theorem buildRow_of_not {fc : Byte} {val : U16} (h : ¬ Buildable fc val) (addr crc : U16) :
    buildRow fc addr val crc s = returnBuilt fc addr val s := by
  rw [buildRow, asHost_of_ready hs, buildRequest_of_not h]

theorem buildRow_of_crc_eq {fc : Byte} {addr val crc : U16} (h : Buildable fc val)
    (hcrc : crc = crc16 (reqBody fc addr val)) : buildRow fc addr val crc s = returnBuilt fc addr val s := by
  rw [buildRow, asHost_of_ready hs, buildRequest_of_buildable h]
  exact if_pos ((frameCrc_reqFrame fc addr val).trans hcrc.symm)

theorem buildRow_of_crc_ne {fc : Byte} {addr val crc : U16} (h : Buildable fc val)
    (hcrc : crc ≠ crc16 (reqBody fc addr val)) : buildRow fc addr val crc s = .refused .requestNotBuilt := by
  rw [buildRow, asHost_of_ready hs, buildRequest_of_buildable h]
  exact if_neg fun hframe => hcrc (hframe.symm.trans (frameCrc_reqFrame fc addr val))

end

/-- Settles O19: what BUILD returns turns on `Buildable`, and a request is the `CRC_APPEND` of its body. -/
theorem buildMakesTheRequest : Obligations.BuildMakesTheRequest := by
  refine ⟨fun s fc addr val hs => ⟨fun hinvalid => ?_, fun hvalid => ?_⟩, by decide +kernel⟩
  · rw [exec_build_of_ready hs, returnBuilt_of_not (not_buildable_of_invalid hinvalid)]
  · refine ⟨hiByte addr, loByte addr, hiByte val, loByte val, toNat_eq_hi_lo addr, toNat_eq_hi_lo val, ?_,
      crc16_crcAppend _⟩
    rw [exec_build_of_ready hs, returnBuilt_of_buildable ((buildable_iff fc val).2 hvalid), frameBytes_reqFrame]
    rfl

/-- Settles O20: a row runs `buildRow` on its function code; a read row's is a read code, and the write row's frame
can always be built. -/
theorem requestRowsBuildTheirRequest : Obligations.RequestRowsBuildTheirRequest := by
  intro s addr val crc hs
  have hrows : ∀ row ∈ [(Instr.reqReadHr addr val crc, (0x03 : Byte)), (Instr.reqReadIr addr val crc, 0x04)],
      exec row.1 s = buildRow row.2 addr val crc s ∧ isReadCode row.2 = true := by
    simp only [List.forall_mem_cons]
    exact ⟨⟨rfl, rfl⟩, ⟨rfl, rfl⟩, List.forall_mem_nil _⟩
  have hwrite : Buildable 0x06 val := buildable_write val
  refine ⟨fun row hrow => ?_, fun hcrc => ?_, buildRow_of_crc_ne hs hwrite⟩
  · obtain ⟨hexec, hfc⟩ := hrows row hrow
    rw [hexec]
    refine ⟨fun hval hcrc => ?_, fun hval => ?_, fun hval hcrc => ?_⟩
    · have hb : Buildable row.2 val := buildable_of_read hfc hval
      rw [buildRow_of_crc_eq hs hb hcrc, exec_build_of_ready hs]
      exact ⟨rfl, returnBuilt_of_buildable hb addr s⟩
    · have hb : ¬ Buildable row.2 val := not_buildable_of_read_zero hfc hval
      rw [buildRow_of_not hs hb, returnBuilt_of_not hb]
    · exact buildRow_of_crc_ne hs (buildable_of_read hfc hval) hcrc
  · exact (buildRow_of_crc_eq hs hwrite hcrc).trans (returnBuilt_of_buildable hwrite addr s)

end Sys2Proof.Machine
end

section
/-! PROOFS. The statements of 42_response_validator.md: the expected length, what VALIDATE answers, which responses it
accepts, the extractors, and which responses a host may extract from. -/

namespace Sys2Proof.Machine

/-! ## EXPECTED_LEN -/

/-- The number of registers that a read asks for, or the value of a write (30_encoding.md R68). -/
theorem frameVal_toNat (f : Frame8) : (frameVal f).toNat = 256 * f.valHi.toNat + f.valLo.toNat := be16_toNat _ _

theorem functionCode_of_built {f : Frame8} (hb : isBuilt f = true) : (f.fc = 0x03 ∨ f.fc = 0x04) ∨ f.fc = 0x06 := by
  obtain ⟨hr, -, -⟩ | ⟨hw, -⟩ := built_cases hb
  · exact .inl ((isReadCode_iff f.fc).1 hr)
  · exact .inr hw

theorem exec_expectedLen_of_some {s : State} (hs : s.Ready) {f : Frame8} {E : Nat} (hE : expectedLength f = some E) :
    exec (.expectedLen f) s = .next { s with ret := some ⟨.ok, .nat E⟩ } := by
  rw [exec, execExpectedLen, asHost_of_ready hs, hE]
  rfl

theorem exec_expectedLen_of_not_built {s : State} (hs : s.Ready) {f : Frame8} (hf : ¬ isBuilt f = true) :
    exec (.expectedLen f) s = .refused .requestNotBuilt := by
  rw [exec, execExpectedLen, asHost_of_ready hs, expectedLength_of_not hf]

/-- Settles O21: a built request is a read of at least one register or the write, and each has its length. -/
theorem expectedLengthOfARequest : Obligations.ExpectedLengthOfARequest := by
  intro s f hs
  rw [← isBuilt_iff_exists]
  refine ⟨fun hb => ⟨fun hread => ?_, fun hwrite => ?_, ?_⟩, exec_expectedLen_of_not_built hs⟩
  · have hr : isReadCode f.fc = true := (isReadCode_iff f.fc).2 hread
    have hcount : (frameVal f).toNat ≠ 0 := by
      obtain ⟨-, -, hval⟩ | ⟨-, hnot⟩ := built_cases hb
      · exact fun h => hval (BitVec.eq_of_toNat_eq h)
      · exact absurd hr (by simp [hnot])
    rw [← frameVal_toNat]
    exact ⟨exec_expectedLen_of_some hs (expectedLength_of_read hb hr), by omega⟩
  · exact exec_expectedLen_of_some hs (expectedLength_of_write hb hwrite)
  · exact or_assoc.1 (functionCode_of_built hb)

/-! ## What VALIDATE answers -/

/-- `ReadFieldsOk` with the codes written out (R146). -/
theorem readFieldsOk_iff (r : Bytes) :
    ReadFieldsOk r ↔
      r.getD 0 0 = 0xFE ∧ (r.getD 1 0 = 0x03 ∨ r.getD 1 0 = 0x04) ∧ (r.getD 2 0).toNat = r.length - 5 := by
  rw [ReadFieldsOk, isReadCode_iff]
  rfl

/-- The answer to the response `r` where the request `f` makes `E` the expected length, with the condition of each
answer: the first check that fails decides (R142 to R148). -/
inductive Judged (f : Frame8) (E : Nat) (r : Bytes) : Result → Prop where
  | timeout (hempty : r.length = 0) : Judged f E r (.fail .timeout)
  | unexpectedLength (hsome : r.length ≠ 0) (hlen : r.length ≠ E) : Judged f E r (.fail .unexpectedLength)
  | echoMismatch (hwrite : f.fc = 0x06) (hlen : r.length = E) (hecho : r ≠ frameBytes f) :
      Judged f E r (.fail .echoMismatch)
  | echo (hwrite : f.fc = 0x06) (hlen : r.length = E) (hecho : r = frameBytes f) : Judged f E r (.ok r)
  | checksumMismatch (hread : f.fc = 0x03 ∨ f.fc = 0x04) (hlen : r.length = E)
      (hcrc : r ≠ crcAppend (r.take (r.length - 2))) : Judged f E r (.fail .checksumMismatch)
  | malformedResponse (hread : f.fc = 0x03 ∨ f.fc = 0x04) (hlen : r.length = E)
      (hcrc : r = crcAppend (r.take (r.length - 2))) (hfields : ¬ ReadFieldsOk r) :
      Judged f E r (.fail .malformedResponse)
  | readAccepted (hread : f.fc = 0x03 ∨ f.fc = 0x04) (hlen : r.length = E)
      (hcrc : r = crcAppend (r.take (r.length - 2))) (hfields : ReadFieldsOk r) : Judged f E r (.ok r)

theorem isBuilt_of_expected {f : Frame8} {E : Nat} (hE : expectedLength f = some E) : isBuilt f = true := by
  rw [← expectedLength_isSome, hE]
  rfl

theorem five_le_of_expected {f : Frame8} {E : Nat} (hE : expectedLength f = some E) : 5 ≤ E := by
  have hb := isBuilt_of_expected hE
  obtain ⟨hr, -, -⟩ | ⟨hw, -⟩ := built_cases hb
  · rw [expectedLength_of_read hb hr, Option.some_inj] at hE
    omega
  · rw [expectedLength_of_write hb hw, Option.some_inj] at hE
    omega

theorem verdict_of_write {f : Frame8} {E : Nat} {r : Bytes} (hwrite : f.fc = 0x06) (hsome : r.length ≠ 0)
    (hlen : r.length = E) : verdict f E r = if r ≠ frameBytes f then .fail .echoMismatch else .ok r := by
  rw [verdict, if_neg hsome, if_neg (not_not.2 hlen)]
  exact if_pos hwrite

theorem verdict_of_read {f : Frame8} {E : Nat} {r : Bytes} (hread : f.fc = 0x03 ∨ f.fc = 0x04) (hsome : 2 ≤ r.length)
    (hlen : r.length = E) : verdict f E r =
      if r ≠ crcAppend (r.take (r.length - 2)) then .fail .checksumMismatch
      else if ReadFieldsOk r then .ok r else .fail .malformedResponse := by
  have hwrite : f.fc ≠ Config.fcWriteSr := by
    obtain h | h := hread <;> rw [h] <;> decide
  rw [verdict, if_neg (by omega), if_neg (not_not.2 hlen), if_neg hwrite, validateRead_eq hsome]
  simp only [ne_eq, residue_iff_crcAppend hsome]

/-- Each answer is given under its condition. -/
theorem Judged.validateResponse_eq {f : Frame8} {E : Nat} {r : Bytes} {o : Result} (h : Judged f E r o)
    (hE : expectedLength f = some E) : validateResponse f r = some o := by
  have hfive := five_le_of_expected hE
  rw [validateResponse_of_expected hE, Option.some_inj]
  cases h with
  | timeout hempty => exact if_pos hempty
  | unexpectedLength hsome hlen => exact (if_neg hsome).trans (if_pos hlen)
  | echoMismatch hwrite hlen hecho => rw [verdict_of_write hwrite (by omega) hlen, if_pos hecho]
  | echo hwrite hlen hecho => rw [verdict_of_write hwrite (by omega) hlen, if_neg (not_not.2 hecho)]
  | checksumMismatch hread hlen hcrc => rw [verdict_of_read hread (by omega) hlen, if_pos hcrc]
  | malformedResponse hread hlen hcrc hfields =>
    rw [verdict_of_read hread (by omega) hlen, if_neg (not_not.2 hcrc), if_neg hfields]
  | readAccepted hread hlen hcrc hfields =>
    rw [verdict_of_read hread (by omega) hlen, if_neg (not_not.2 hcrc), if_pos hfields]

/-- The conditions leave no response out. -/
theorem judged_exists {f : Frame8} {E : Nat} (hE : expectedLength f = some E) (r : Bytes) : ∃ o, Judged f E r o := by
  by_cases hempty : r.length = 0
  · exact ⟨_, .timeout hempty⟩
  by_cases hlen : r.length = E
  · obtain hread | hwrite := functionCode_of_built (isBuilt_of_expected hE)
    · by_cases hcrc : r = crcAppend (r.take (r.length - 2))
      · by_cases hfields : ReadFieldsOk r
        · exact ⟨_, .readAccepted hread hlen hcrc hfields⟩
        · exact ⟨_, .malformedResponse hread hlen hcrc hfields⟩
      · exact ⟨_, .checksumMismatch hread hlen hcrc⟩
    · by_cases hecho : r = frameBytes f
      · exact ⟨_, .echo hwrite hlen hecho⟩
      · exact ⟨_, .echoMismatch hwrite hlen hecho⟩
  · exact ⟨_, .unexpectedLength hempty hlen⟩

/-- Everything VALIDATE can answer to a built request. -/
theorem validateResponse_iff_judged {f : Frame8} {E : Nat} (hE : expectedLength f = some E) {r : Bytes} {o : Result} :
    validateResponse f r = some o ↔ Judged f E r o := by
  refine ⟨fun hv => ?_, fun h => h.validateResponse_eq hE⟩
  obtain ⟨o', h⟩ := judged_exists hE r
  obtain rfl : o' = o := Option.some_inj.1 ((h.validateResponse_eq hE).symm.trans hv)
  exact h

theorem validateResponse_ne_invalidArgument (f : Frame8) (r : Bytes) :
    validateResponse f r ≠ some (.fail .invalidArgument) := by
  intro hv
  obtain ⟨E, hE, -⟩ := validateResponse_eq_some hv
  exact nomatch (validateResponse_iff_judged hE).1 hv

theorem exec_validate_of_some {s : State} (hs : s.Ready) {f : Frame8} {r : Bytes} {o : Result}
    (hv : validateResponse f r = some o) :
    exec (.validate f r) s = .next { s with
      ret := some ⟨o.kind, .bytes o.value⟩
      verdicts := noteVerdict r o.kind s.verdicts } := by
  rw [exec, execValidate, asHost_of_ready hs, hv]
  rfl

theorem exec_validate_of_not_built {s : State} (hs : s.Ready) {f : Frame8} (hf : ¬ isBuilt f = true) (r : Bytes) :
    exec (.validate f r) s = .refused .requestNotBuilt := by
  rw [exec, execValidate, asHost_of_ready hs, validateResponse, expectedLength_of_not hf]

/-- Settles O22: VALIDATE's answer is judged under one condition, and each condition has one answer. -/
theorem validateDecidesByTheFirstFailingCheck : Obligations.ValidateDecidesByTheFirstFailingCheck := by
  intro s f r E hs hE
  obtain ⟨o, hj⟩ := judged_exists hE r
  have hv := hj.validateResponse_eq hE
  have unique : ∀ {o'}, Judged f E r o' → o = o' := fun hj' =>
    Option.some_inj.1 (hv.symm.trans (hj'.validateResponse_eq hE))
  refine ⟨o, exec_validate_of_some hs hv, ⟨?_, ?_⟩, ⟨?_, ?_⟩, ⟨?_, ?_⟩, ⟨?_, ?_⟩, ⟨?_, ?_⟩, ?_, ?_⟩
  · rintro rfl
    cases hj with | timeout hempty => exact hempty
  · exact fun hempty => unique (.timeout hempty)
  · rintro rfl
    cases hj with | unexpectedLength hsome hlen => exact ⟨hsome, hlen⟩
  · exact fun ⟨hsome, hlen⟩ => unique (.unexpectedLength hsome hlen)
  · rintro rfl
    cases hj with | echoMismatch hwrite hlen hecho => exact ⟨hwrite, hlen, hecho⟩
  · exact fun ⟨hwrite, hlen, hecho⟩ => unique (.echoMismatch hwrite hlen hecho)
  · rintro rfl
    cases hj with | checksumMismatch hread hlen hcrc => exact ⟨hread, hlen, hcrc⟩
  · exact fun ⟨hread, hlen, hcrc⟩ => unique (.checksumMismatch hread hlen hcrc)
  · rintro rfl
    cases hj with
    | malformedResponse hread hlen hcrc hfields => exact ⟨hread, hlen, hcrc, mt (readFieldsOk_iff r).2 hfields⟩
  · exact fun ⟨hread, hlen, hcrc, hfields⟩ =>
      unique (.malformedResponse hread hlen hcrc (mt (readFieldsOk_iff r).1 hfields))
  · rintro rfl
    exact validateResponse_ne_invalidArgument f r hv
  · rintro x rfl
    exact validateResponse_ok hv

/-! ## Accepted responses -/

/-- Settles O23: the byte count of an accepted read response is its length less the five other bytes. -/
theorem acceptedResponsesExactly : Obligations.AcceptedResponsesExactly := by
  intro f r hb
  refine ⟨fun hread => ?_, fun hwrite => validateResponse_write_ok_iff hb hwrite r⟩
  rw [validateResponse_read_ok_iff hb ((isReadCode_iff f.fc).2 hread), readFieldsOk_iff]
  constructor
  · rintro ⟨hlen, hcrc, hdev, hcode, hcount⟩
    exact ⟨hlen, hdev, hcode, by omega, hcrc⟩
  · rintro ⟨hlen, hdev, hcode, hcount, hcrc⟩
    exact ⟨hlen, hcrc, hdev, hcode, by omega⟩

/-- Settles O18: an accepted response has residue 0, and one changed byte changes the residue and not the length. -/
theorem oneWrongByteIsAChecksumMismatch : Obligations.OneWrongByteIsAChecksumMismatch := by
  intro f r i b hr hv hi hbyte
  have hb : isBuilt f = true := by rw [← validateResponse_isSome f r, hv]; rfl
  obtain ⟨hlen, hcrc, -⟩ := (validateResponse_read_ok_iff hb hr r).1 hv
  have hwrong : crc16 (r.set i b) ≠ 0 := hcrc ▸ crc16_set_ne hi hbyte
  have hsame : (r.set i b).length = 5 + 2 * (frameVal f).toNat := List.length_set.trans hlen
  rw [validateResponse_read hb hr, if_neg (by omega), if_neg (not_not.2 hsame), if_pos hwrong]

/-- The read request that `acceptableRead` builds accepts the response. -/
theorem accepted_of_acceptableRead {r : Bytes} (h : acceptableRead r = true) :
    ∃ f, isBuilt f = true ∧ validateResponse f r = some (.ok r) := by
  unfold acceptableRead at h
  split at h
  next f hf => exact ⟨f, (isBuilt_iff_exists f).2 ⟨_, _, _, hf⟩, beq_iff_eq.1 h⟩
  next => cases h

/-- A built write request accepts its own bytes. -/
theorem accepted_of_acceptableEcho {r : Bytes} (h : acceptableEcho r = true) :
    ∃ f, isBuilt f = true ∧ validateResponse f r = some (.ok r) := by
  unfold acceptableEcho at h
  split at h
  next f hf =>
    obtain ⟨hwrite, hb⟩ := (Bool.and_eq_true ..).mp h
    exact ⟨f, hb, (validateResponse_write_ok_iff hb (beq_iff_eq.1 hwrite) r).2 (frameOfBytes_eq_some.1 hf)⟩
  next => cases h

/-- Settles O25: the request that `acceptable` finds accepts the response, and what a request accepts is acceptable. -/
theorem acceptableMeansSomeRequestAcceptsIt : Obligations.AcceptableMeansSomeRequestAcceptsIt := by
  intro r
  refine ⟨fun h => ?_, fun ⟨_, _, hv⟩ => acceptable_of_accepted hv⟩
  rw [acceptable, Bool.or_eq_true] at h
  exact h.elim accepted_of_acceptableRead accepted_of_acceptableEcho

/-! ## The extractors -/

/-- The instruction extracts the value from the bytes of `r` below the offset `stop` (R150, R151, R152). -/
inductive Extracts (r : Bytes) : Instr → (stop : Nat) → Value → Prop where
  | u16 (off : Nat) : Extracts r (.extractU16 r off) (off + 2) (.u16 (be16 (r.getD off 0) (r.getD (off + 1) 0)))
  | u32 (off : Nat) : Extracts r (.extractU32 r off) (off + 4)
      (.u32 (be32 (r.getD off 0) (r.getD (off + 1) 0) (r.getD (off + 2) 0) (r.getD (off + 3) 0)))
  | bytes (off k : Nat) : Extracts r (.extractBytes r off k) (off + k) (.bytes ((r.drop off).take k))

/-- The three extractors run the same extraction, each on its own range and value. -/
theorem Extracts.exec_eq {r : Bytes} {i : Instr} {stop : Nat} {v : Value} (h : Extracts r i stop v) (s : State) :
    exec i s = extraction r (if stop > r.length then none else some v) s := by
  cases h with
  | u16 off => rw [exec, execExtractU16, extract16, apply_ite (Option.map _)]; rfl
  | u32 off => rw [exec, execExtractU32, extract32, apply_ite (Option.map _)]; rfl
  | bytes off k => rw [exec, execExtractBytes, extractRange, apply_ite (Option.map _)]; rfl

section
variable {s : State} (hs : s.Ready) {r : Bytes} {i : Instr} {stop : Nat} {v : Value} (h : Extracts r i stop v)
include hs h

theorem Extracts.exec_pastEnd (hend : r.length < stop) : exec i s = .refused .extractPastEnd := by
  rw [h.exec_eq, if_pos hend]
  exact (extraction_of_ready hs r none).1 rfl

theorem Extracts.exec_inside (hm : s.MayExtract r) (hend : stop ≤ r.length) :
    exec i s = .next { s with ret := some ⟨.ok, v⟩ } := by
  rw [h.exec_eq, if_neg (Nat.not_lt.2 hend)]
  exact (extraction_of_ready hs r (some v)).2.1 v rfl hm

theorem Extracts.exec_notAccepted (hm : ¬ s.MayExtract r) (hend : stop ≤ r.length) :
    exec i s = .refused .responseNotAccepted := by
  rw [h.exec_eq, if_neg (Nat.not_lt.2 hend)]
  exact (extraction_of_ready hs r (some v)).2.2 v rfl hm

/-- From a response that a host may not extract from, every extraction is refused, for one reason or the other. -/
theorem Extracts.exec_refused (hm : ¬ s.MayExtract r) : ∃ e, exec i s = .refused e := by
  by_cases hend : stop ≤ r.length
  · exact ⟨_, h.exec_notAccepted hs hm hend⟩
  · exact ⟨_, h.exec_pastEnd hs (Nat.not_le.1 hend)⟩

end

/-- The two registers of a double word, most significant first. -/
theorem be32_toNat_words (b0 b1 b2 b3 : Byte) :
    (be32 b0 b1 b2 b3).toNat = 65536 * (256 * b0.toNat + b1.toNat) + (256 * b2.toNat + b3.toNat) := by
  rw [be32_toNat]
  omega

/-- A range inside the response has the response's bytes. -/
theorem range_bytes {r : Bytes} {off k : Nat} (h : off + k ≤ r.length) :
    ((r.drop off).take k).length = k ∧ ∀ j, j < k → ((r.drop off).take k).getD j 0 = r.getD (off + j) 0 := by
  refine ⟨by rw [List.length_take, List.length_drop]; omega, fun j hj => ?_⟩
  rw [List.getD_eq_getElem?_getD, List.getElem?_take_of_lt hj, List.getElem?_drop, List.getD_eq_getElem?_getD]

/-- Settles O24: inside the response each extractor returns its value, which is the field read by its bytes. -/
theorem extractorsReadBigEndianFields : Obligations.ExtractorsReadBigEndianFields := by
  refine ⟨fun s r off k hs => ⟨fun hm hend => ?_, fun hm hend => ?_, fun hm hend => ?_, ?_, ?_, ?_⟩, by decide⟩
  · exact ⟨_, (Extracts.u16 off).exec_inside hs hm hend, be16_toNat _ _⟩
  · exact ⟨_, (Extracts.u32 off).exec_inside hs hm hend, be32_toNat_words _ _ _ _⟩
  · exact ⟨_, (Extracts.bytes off k).exec_inside hs hm hend, range_bytes hend⟩
  · exact (Extracts.u16 off).exec_pastEnd hs
  · exact (Extracts.u32 off).exec_pastEnd hs
  · exact (Extracts.bytes off k).exec_pastEnd hs

/-! ## Uses outside the contract -/

theorem not_mayExtract_of_fail {s : State} {r : Bytes} {e : FailKind}
    (h : lastVerdict r s.verdicts = some (.fail e)) : ¬ s.MayExtract r := by
  simp [State.MayExtract, h]

theorem not_mayExtract_of_unacceptable {s : State} {r : Bytes} (h : lastVerdict r s.verdicts = none)
    (ha : acceptable r = false) : ¬ s.MayExtract r := by
  simp [State.MayExtract, h, ha]

/-- Settles O26: a request that is not built has no expected length, and the extraction looks at the range first. -/
theorem outOfContractUseIsRefused : Obligations.OutOfContractUseIsRefused := by
  intro s f r off k hs
  refine ⟨fun hf => ?_, (Extracts.u16 off).exec_pastEnd hs, (Extracts.u32 off).exec_pastEnd hs,
    (Extracts.bytes off k).exec_pastEnd hs, fun hrejected => ?_⟩
  · have hnot : ¬ isBuilt f = true := Bool.not_eq_true _ ▸ hf
    exact ⟨exec_expectedLen_of_not_built hs hnot, exec_validate_of_not_built hs hnot r⟩
  · have hm : ¬ s.MayExtract r := by
      obtain ⟨e, hlast⟩ | ⟨hlast, hunacceptable⟩ := hrejected
      · exact not_mayExtract_of_fail hlast
      · exact not_mayExtract_of_unacceptable hlast hunacceptable
    exact ⟨(Extracts.u16 off).exec_notAccepted hs hm, (Extracts.u32 off).exec_notAccepted hs hm,
      (Extracts.bytes off k).exec_notAccepted hs hm⟩

/-! ## The verdict decides -/

/-- A state in which the last verdict on `r` is that of the answer `o` allows an extraction exactly where `o`
accepts `r`. -/
theorem mayExtract_iff_of_verdict {t : State} {f : Frame8} {r : Bytes} {o : Result} (hv : validateResponse f r = some o)
    (hlast : lastVerdict r t.verdicts = some o.kind) : t.MayExtract r ↔ o = .ok r := by
  cases o with
  | ok x =>
    obtain rfl := validateResponse_ok hv
    exact ⟨fun _ => rfl, fun _ => .inl hlast⟩
  | fail e => exact ⟨fun hm => absurd hm (not_mayExtract_of_fail hlast), nofun⟩

/-- Every extraction from `r` is refused. -/
def State.RefusesExtraction (t : State) (r : Bytes) : Prop :=
  ∀ off k : Nat,
    (∃ e, exec (.extractU16 r off) t = .refused e) ∧ (∃ e, exec (.extractU32 r off) t = .refused e) ∧
      ∃ e, exec (.extractBytes r off k) t = .refused e

/-- Every extraction inside `r` completes. -/
def State.AllowsExtraction (t : State) (r : Bytes) : Prop :=
  ∀ off k : Nat,
    (off + 2 ≤ r.length → ∃ u, exec (.extractU16 r off) t = .next u) ∧
    (off + 4 ≤ r.length → ∃ u, exec (.extractU32 r off) t = .next u) ∧
    (off + k ≤ r.length → ∃ u, exec (.extractBytes r off k) t = .next u)

theorem refusesExtraction_of_not_mayExtract {t : State} {r : Bytes} (ht : t.Ready) (hm : ¬ t.MayExtract r) :
    t.RefusesExtraction r := fun off k =>
  ⟨(Extracts.u16 off).exec_refused ht hm, (Extracts.u32 off).exec_refused ht hm,
    (Extracts.bytes off k).exec_refused ht hm⟩

theorem allowsExtraction_of_mayExtract {t : State} {r : Bytes} (ht : t.Ready) (hm : t.MayExtract r) :
    t.AllowsExtraction r := fun off k =>
  ⟨fun hend => ⟨_, (Extracts.u16 off).exec_inside ht hm hend⟩,
    fun hend => ⟨_, (Extracts.u32 off).exec_inside ht hm hend⟩,
    fun hend => ⟨_, (Extracts.bytes off k).exec_inside ht hm hend⟩⟩

/-- What follows from noting the verdict on `r`, whoever gave it. -/
theorem noted_verdict_decides {s t : State} {f : Frame8} {r : Bytes} {o : Result} (ht : t.Ready)
    (hv : validateResponse f r = some o) (hnoted : t.verdicts = noteVerdict r o.kind s.verdicts) :
    (∀ x, lastVerdict x t.verdicts = if x = r then some o.kind else lastVerdict x s.verdicts) ∧
      (o = .ok r → t.AllowsExtraction r) ∧ (o ≠ .ok r → t.RefusesExtraction r) := by
  have hlast (x : Bytes) : lastVerdict x t.verdicts = if x = r then some o.kind else lastVerdict x s.verdicts := by
    rw [hnoted, lastVerdict_noteVerdict]
  have hmay : t.MayExtract r ↔ o = .ok r := mayExtract_iff_of_verdict hv ((hlast r).trans (if_pos rfl))
  exact ⟨hlast, fun hok => allowsExtraction_of_mayExtract ht (hmay.2 hok),
    fun hnot => refusesExtraction_of_not_mayExtract ht (mt hmay.1 hnot)⟩

/-- Settles O27: VALIDATE and a transaction that passes T1 both note their verdict, and `noted_verdict_decides` holds
of either. -/
theorem verdictDecidesExtraction : Obligations.VerdictDecidesExtraction := by
  refine ⟨fun s f r o hs hv => ⟨_, exec_validate_of_some hs hv, noted_verdict_decides hs hv rfl⟩,
    fun s fc addr val hs => ?_⟩
  rw [exec_transact_of_ready hs]
  by_cases hadm : Admitted s.par fc val
  · obtain ⟨o, hv, ht⟩ := transaction_of_admitted hs.1 hadm addr
    refine ⟨_, o, ht, rfl, ?_, fun _ => ?_⟩
    · rintro rfl
      exact absurd hv (validateResponse_ne_invalidArgument _ _)
    · rw [afterCycle_captured]
      exact noted_verdict_decides ⟨hs.1, rfl⟩ hv rfl
  · exact ⟨_, .fail .invalidArgument, transaction_of_not hadm addr, rfl, fun _ => rfl, fun hne => absurd rfl hne⟩

end Sys2Proof.Machine
end

section
/-! PROOFS. The statements of 43_capture.md: the oracle's answer, an arrival longer than CAP, and what SEND, CLEAR and
CAPTURE do in their place and elsewhere. -/

namespace Sys2Proof.Machine

/-! ## The oracle's answer and what it leaves on the link -/

/-- Settles O30: an answer of at most `max` bytes is the one given by a link whose next arrival it is. -/
theorem captureAnswersAreAllChunksUpToMax : Obligations.CaptureAnswersAreAllChunksUpToMax :=
  ⟨captureAnswer_length, fun _ _ _ hc => captureAnswer_of_short rfl hc⟩

section
variable {s : State} {c : Bytes} {cs : List Bytes} {max : Nat} (h : s.link = c :: cs)
include h

theorem linkRest_of_short (hc : c.length ≤ max) : s.linkRest max = cs := by
  simp [State.linkRest, h, hc]

theorem captureAnswer_of_long (hc : max < c.length) : s.captureAnswer max = (longArrival max s.draws c).1 := by
  simp [State.captureAnswer, h, hc]

theorem linkRest_of_long (hc : max < c.length) :
    s.linkRest max = leftOnLink (Config.freeJoined s.draws) (longArrival max s.draws c).2 cs := by
  simp [State.linkRest, h, hc]

end

/-- What is left is an arrival of its own, or stands in front of the next arrival (43_capture.md R173). -/
theorem leftOnLink_cases (joined : Bool) (rest : Bytes) (cs : List Bytes) :
    leftOnLink joined rest cs = rest :: cs ∨ ∃ d ds, cs = d :: ds ∧ leftOnLink joined rest cs = (rest ++ d) :: ds := by
  cases cs with
  | nil => exact .inl rfl
  | cons d ds =>
    cases joined with
    | false => exact .inl rfl
    | true => exact .inr ⟨d, ds, rfl, rfl⟩

/-- A read with less room than the arrival is long leaves some of it. -/
theorem longArrival_rest_ne_nil {max : Nat} {c : Bytes} (hc : max < c.length) (n : Nat) :
    (longArrival max n c).2 ≠ [] := by
  obtain ⟨hperm, -, -, htaken, -⟩ := longArrival_spec max n c
  intro hnil
  have hlen := hperm.length_eq
  rw [hnil, List.append_nil] at hlen
  omega

/-! ## SEND -/

theorem sendFrame_eq (s : State) (f : Frame8) :
    s.sendFrame f = { s with
      ph := .t2
      built := none
      txf := some f
      obs := s.obs ++ [.linkWrite (frameBytes f), .trace (.bytesSent (frameBytes f))] } := by
  rw [← State.sendFrame_obs]
  rfl

/-- Settles O35: T2's update, written out. -/
theorem sendTransmitsTheBuiltRequest : Obligations.SendTransmitsTheBuiltRequest := by
  intro s f ha hp hb
  rw [← sendFrame_eq]
  exact execSend_of_t1 ha hp hb

/-! ## CLEAR -/

/-- Settles O36: the cleared buffer lists no byte, so each reads as 0x00. -/
theorem clearZeroesTheBuffer : Obligations.ClearZeroesTheBuffer :=
  fun _ ha hp => ⟨Memory.cleared, execClear_of_t2 ha hp, Memory.wf_cleared, Memory.read_cleared⟩

/-! ## CAPTURE -/

theorem captureChunk_eq (s : State) :
    s.captureChunk = { s with
      ph := .t4
      rbuf := s.rbuf.writeBytes 0 (s.captureAnswer s.par.cap)
      rlen := (s.captureAnswer s.par.cap).length
      link := s.linkRest s.par.cap
      draws := s.draws + 1
      obs := s.obs ++
        [.linkCapture (s.captureAnswer s.par.cap), .trace (.bytesReceived (s.captureAnswer s.par.cap))] } := by
  rw [← State.captureChunk_obs]
  rfl

/-- Bytes written from offset 0 are read back there, and no other byte changes. -/
theorem read_writeBytes_zero {m : Memory} (hm : m.wf) (c : Bytes) :
    (∀ a, a < c.length → Memory.read (m.writeBytes 0 c) a = c.getD a 0) ∧
      ∀ a, c.length ≤ a → Memory.read (m.writeBytes 0 c) a = Memory.read m a := by
  refine ⟨fun a ha => ?_, fun a ha => ?_⟩
  · rw [Memory.read_writeBytes c m hm, if_pos (by omega), Nat.sub_zero]
  · rw [Memory.read_writeBytes c m hm, if_neg (by omega)]

/-- Settles O37: T4's update writes the answer to the buffer from offset 0. -/
theorem captureStoresTheAnswer : Obligations.CaptureStoresTheAnswer := by
  intro s ha hp hm
  refine ⟨s.rbuf.writeBytes 0 (s.captureAnswer s.par.cap), ?_, Memory.wf_writeBytes _ _ hm 0,
    read_writeBytes_zero hm _⟩
  rw [← captureChunk_eq]
  exact execCapture_of_t3 ha hp

theorem exec_capture_next {s t : State} (h : exec .capture s = .next t) : t = s.captureChunk := by
  rw [exec, execCapture] at h
  obtain ⟨-, h⟩ := inSession_next h
  split at h
  · cases h
    rfl
  · cases h

/-- After T4 the valid bytes are the oracle's answer, whatever the buffer held before (43_capture.md R172). -/
theorem captureChunk_captured_of_wf {s : State} (hm : s.rbuf.wf) :
    s.captureChunk.captured = s.captureAnswer s.par.cap := Memory.slice_writeBytes s.rbuf hm _

/-- Settles O31: `longArrival` divides the arrival, and `leftOnLink` says where its rest stands. -/
theorem longArrivalLeavesItsRestOnTheLink : Obligations.LongArrivalLeavesItsRestOnTheLink := by
  intro s t c cs hpar hm hlink h
  obtain rfl := exec_capture_next h
  rw [captureChunk_captured_of_wf hm, State.captureChunk_link]
  refine ⟨fun hc => ⟨captureAnswer_of_short hlink hc, linkRest_of_short hlink hc⟩, fun hc => ?_⟩
  rw [captureAnswer_of_long hlink hc, linkRest_of_long hlink hc]
  obtain ⟨hperm, htaken, hleft, hmax, hsome⟩ := longArrival_spec s.par.cap s.draws c
  have hcap : 0 < s.par.cap := Nat.lt_of_lt_of_le (by decide) hpar.1
  have hne : c ≠ [] := List.length_pos_iff.1 (Nat.zero_lt_of_lt hc)
  exact ⟨_, hperm, htaken, hleft, List.length_pos_iff.2 (hsome hcap hne), hmax, longArrival_rest_ne_nil hc _,
    leftOnLink_cases _ _ _⟩

/-! ## Outside their place -/

section
variable {s : State} (ha : s.session = .active)
include ha

theorem exec_send_of_not (h : ¬ (s.ph = .t1 ∧ s.built.isSome = true)) :
    exec .send s = .refused .stepOutsideTransaction := by
  rw [exec, execSend, inSession_of_active ha]
  split
  · rename_i hp hb
    exact absurd ⟨hp, by simp [hb]⟩ h
  · rfl

theorem exec_clear_of_ne (h : s.ph ≠ .t2) : exec .clear s = .refused .stepOutsideTransaction := by
  rw [exec, execClear, inSession_of_active ha, if_neg h]

theorem exec_capture_of_ne (h : s.ph ≠ .t3) : exec .capture s = .refused .stepOutsideTransaction := by
  rw [exec, execCapture, inSession_of_active ha, if_neg h]

end

/-- Settles O38: each step looks at the phase, and SEND also at the frame that T1 built. -/
theorem transactionStepsAreRefusedElsewhere : Obligations.TransactionStepsAreRefusedElsewhere :=
  fun _ ha => ⟨exec_send_of_not ha, exec_clear_of_ne ha, exec_capture_of_ne ha⟩

end Sys2Proof.Machine
end

section
/-! PROOFS. The statements of 44_transaction.md: a transaction and its steps, the cycle it runs and the state it leaves,
the events on the link, a write's echo, and the kinds that a get can report. -/

namespace Sys2Proof.Machine

/-! ## TRANSACT and the machine's steps -/

theorem run_succ_of_next {M : Host.Core} {s u : M.State} (h : M.step s = .next u) (k : Nat) :
    M.run (k + 1) s = M.run k u := by
  rw [Host.Core.run, h]

theorem run_succ_of_refused {M : Host.Core} {s : M.State} {r : M.Refusal} (h : M.step s = .refused r) (k : Nat) :
    M.run (k + 1) s = .refused r := by
  rw [Host.Core.run, h]

/-- A step in a transaction is the transaction's own next step. -/
theorem step_of_busy {s : State} (ha : s.session = .active) (hp : s.ph ≠ .idle) : step s = advance s := by
  unfold step
  split
  next hidle => exact absurd hidle hp
  all_goals exact inSession_of_active ha advance

theorem Advance.session {s t : State} (h : Advance s t) : t.session = s.session := by
  cases h <;> rfl

theorem runToIdle_succ_of_refused {s : State} {r : Refusal} (hp : s.ph ≠ .idle) (h : advance s = .refused r)
    (n : Nat) : runToIdle (n + 1) s = .refused r := by
  simp [runToIdle, hp, h]

/-- Running a transaction to its end is taking the machine's steps until it has ended, or one is refused. -/
theorem run_eq_runToIdle (n : Nat) {s : State} (ha : s.session = .active) :
    ∃ k, k ≤ n ∧ core.run k s = runToIdle n s := by
  induction n generalizing s with
  | zero => exact ⟨0, le_rfl, rfl⟩
  | succ n ih =>
    by_cases hp : s.ph = .idle
    · exact ⟨0, Nat.zero_le _, (runToIdle_of_idle hp _).symm⟩
    have hstep : core.step s = advance s := step_of_busy ha hp
    cases hadv : advance s with
    | next u =>
      obtain ⟨k, hk, hu⟩ := ih ((advance_cases hadv).session.trans ha)
      refine ⟨k + 1, Nat.succ_le_succ hk, ?_⟩
      rw [runToIdle_succ hp hadv, ← hu]
      exact run_succ_of_next (hstep.trans hadv) k
    | fault r => exact r.casesOn
    | refused r =>
      refine ⟨1, Nat.succ_le_succ n.zero_le, ?_⟩
      rw [runToIdle_succ_of_refused hp hadv]
      exact run_succ_of_refused (hstep.trans hadv) 0

theorem startTransact_session (fc : Byte) (addr val : U16) (s : State) :
    (startTransact fc addr val s).session = s.session := by
  by_cases h : Admitted s.par fc val
  · rw [startTransact_of_admitted h]
  · rw [startTransact_of_not h, State.fail_session]

/-- Settles O8: TRANSACT runs at most six steps after T1, which leaves the session as it is. -/
theorem transactIsItsSteps : Obligations.TransactIsItsSteps := by
  intro s fc addr val hs
  rw [exec_transact_of_ready hs, transaction]
  exact run_eq_runToIdle 6 ((startTransact_session fc addr val s).trans hs.1)

/-! ## The cycle -/

/-- What T1 lets pass, by function code (44_transaction.md R190, R191). -/
theorem admitted_iff (p : Params) (fc : Byte) (val : U16) :
    Admitted p fc val ↔ ((fc = 0x03 ∨ fc = 0x04) ∧ val ≠ 0 ∧ val.toNat ≤ maxCount p) ∨ fc = 0x06 := by
  rw [Admitted, buildable_iff, isReadCode_iff, not_and, Nat.not_lt]
  constructor
  · rintro ⟨⟨hread, hval⟩ | hwrite, hmax⟩
    · exact .inl ⟨hread, hval, hmax hread⟩
    · exact .inr hwrite
  · rintro (⟨hread, hval, hmax⟩ | rfl)
    · exact ⟨.inl ⟨hread, hval⟩, fun _ => hmax⟩
    · exact ⟨.inr rfl, fun hread => absurd hread (by decide)⟩

/-- What T1 refuses (R191, R192). -/
theorem not_admitted_of_refused {p : Params} {fc : Byte} {val : U16}
    (h : ((fc = 0x03 ∨ fc = 0x04) ∧ (val = 0 ∨ maxCount p < val.toNat)) ∨ (fc ≠ 0x03 ∧ fc ≠ 0x04 ∧ fc ≠ 0x06)) :
    ¬ Admitted p fc val := by
  obtain ⟨hread, rfl | hmax⟩ | ⟨h3, h4, h6⟩ := h
  · exact fun ha => not_buildable_of_read_zero ((isReadCode_iff fc).2 hread) rfl ha.1
  · exact fun ha => ha.2 ⟨(isReadCode_iff fc).2 hread, hmax⟩
  · exact fun ha => not_buildable_of_invalid (.inl ⟨h3, h4, h6⟩) ha.1

theorem fail_of_idle {s : State} (hp : s.ph = .idle) (k : FailKind) :
    s.fail k = { s with res := some (.fail k), ret := some ⟨.fail k, .bytes []⟩ } := by
  cases s
  cases hp
  rfl

/-- Above the capture the buffer is clear (43_capture.md R174). -/
theorem afterCycle_read_of_le (s : State) (f : Frame8) (c : Bytes) (o : Result) {a : Nat} (ha : c.length ≤ a) :
    Memory.read (s.afterCycle f c o).rbuf a = 0x00 :=
  ((read_writeBytes_zero Memory.wf_cleared c).2 a ha).trans (Memory.read_cleared a)

section
variable {s : State} (hs : s.Ready) {fc : Byte} {val : U16}
include hs

theorem exec_transact_of_not_admitted (h : ¬ Admitted s.par fc val) (addr : U16) :
    exec (.transact fc addr val) s =
      .next { s with res := some (.fail .invalidArgument), ret := some ⟨.fail .invalidArgument, .bytes []⟩ } := by
  rw [exec_transact_of_ready hs, transaction_of_not h, fail_of_idle hs.2]

theorem exec_transact_of_admitted (h : Admitted s.par fc val) (addr : U16) :
    ∃ o, validateResponse (reqFrame fc addr val) (s.captureAnswer s.par.cap) = some o ∧
      exec (.transact fc addr val) s =
        .next (s.afterCycle (reqFrame fc addr val) (s.captureAnswer s.par.cap) o) := by
  rw [exec_transact_of_ready hs]
  exact transaction_of_admitted hs.1 h addr

end

/-- Settles O32: whether T1 admits the request decides between the local refusal and the cycle. -/
theorem transactRunsOneCycle : Obligations.TransactRunsOneCycle := by
  intro s fc addr val hs
  refine ⟨fun hrefused => exec_transact_of_not_admitted hs (not_admitted_of_refused hrefused) addr, fun hpass => ?_⟩
  have hadm : Admitted s.par fc val := (admitted_iff s.par fc val).2 hpass
  obtain ⟨o, hv, ht⟩ := exec_transact_of_admitted hs hadm addr
  exact ⟨_, o, _, buildRequest_of_buildable hadm.1 addr, hv, ht, rfl, afterCycle_captured ..,
    fun _ ha => afterCycle_read_of_le _ _ _ _ ha⟩

/-- Settles O33: of the six events of a cycle, the write of the request and the capture are the link's. -/
theorem oneWriteThenOneCapture : Obligations.OneWriteThenOneCapture := by
  intro s fc addr val f hs hbuild hcount
  obtain ⟨hb, rfl⟩ := buildRequest_ok.1 hbuild
  have hadm : Admitted s.par fc val := ⟨hb, by rwa [isReadCode_iff]⟩
  obtain ⟨o, -, ht⟩ := exec_transact_of_admitted hs hadm addr
  exact ⟨_, _, _, ht, rfl, rfl⟩

/-! ## A write's echo -/

/-- A write request is answered with `Ok` by its own bytes only (42_response_validator.md R147). -/
theorem write_ok_iff_echo {addr value : U16} {c : Bytes} {o : Result}
    (hv : validateResponse (reqFrame 0x06 addr value) c = some o) (x : Bytes) :
    o = .ok x ↔ c = frameBytes (reqFrame 0x06 addr value) ∧ x = frameBytes (reqFrame 0x06 addr value) := by
  have hecho := validateResponse_write_ok_iff (isBuilt_reqFrame (buildable_write value) addr) rfl c
  constructor
  · rintro rfl
    obtain rfl := validateResponse_ok hv
    exact ⟨hecho.1 hv, hecho.1 hv⟩
  · rintro ⟨rfl, rfl⟩
    exact Option.some_inj.1 (hv.symm.trans (hecho.2 rfl))

/-- Settles O34: T1 admits every write, and the cycle's outcome is the verdict on the capture. -/
theorem writeSucceedsExactlyOnItsEcho : Obligations.WriteSucceedsExactlyOnItsEcho := by
  intro s addr value hs
  obtain ⟨o, hv, ht⟩ := exec_transact_of_admitted hs ((admitted_iff s.par 0x06 value).2 (.inr rfl)) addr
  exact ⟨_, ht, fun x => Option.some_inj.trans (write_ok_iff_echo hv x), rfl⟩

/-! ## The kinds that a get can report -/

theorem isReadCode_attrGetCode (a : Attribute) : isReadCode (attrGetCode a) = true := by
  cases a <;> rfl

theorem attrWords_bounds (a : Attribute) : attrWords a ≠ 0 ∧ (attrWords a).toNat ≤ 5 := by
  cases a <;> decide

/-- `CAP` has room for the longest get, so T1 admits the read of each (44_transaction.md R191). -/
theorem admitted_get {p : Params} (hp : p.wf) (a : Attribute) : Admitted p (attrGetCode a) (attrWords a) := by
  obtain ⟨hcap, -⟩ := hp
  obtain ⟨hzero, hfive⟩ := attrWords_bounds a
  have hmax : 5 ≤ maxCount p := le_min (by omega) (by decide)
  have hread := isReadCode_attrGetCode a
  exact ⟨buildable_of_read hread hzero, fun h => absurd (hfive.trans hmax) (Nat.not_le.2 h.2)⟩

/-- Only the write path compares a response with its request (42_response_validator.md R147). -/
theorem validateResponse_read_ne_echoMismatch {f : Frame8} (hr : isReadCode f.fc = true) (r : Bytes) :
    validateResponse f r ≠ some (.fail .echoMismatch) := by
  intro hv
  obtain ⟨E, hE, -⟩ := validateResponse_eq_some hv
  cases (validateResponse_iff_judged hE).1 hv with
  | echoMismatch hwrite => exact absurd (hwrite ▸ hr) (by decide)

/-- A get that completes reports the kind of its transaction's outcome (45_register_ops.md R213). -/
theorem getRecipe_next {a : Attribute} {dec : Bytes → Option Value} {zero : Value} {s t : State}
    (h : getRecipe a dec zero s = .next t) :
    s.Ready ∧ ∃ u, transaction (attrGetCode a) (regAddrOf s.par a) (attrWords a) s = .next u ∧
      ∀ o, u.res = some o → ∃ v, t = u.returns o.kind v := by
  obtain ⟨hs, h⟩ := asHost_next h
  obtain ⟨u, hu, h⟩ := andThen_eq_next h
  refine ⟨hs, u, hu, fun o ho => ?_⟩
  rw [ho] at h
  cases o with
  | ok r =>
    simp only at h
    split at h
    · cases h; exact ⟨_, rfl⟩
    · cases h
  | fail k => cases h; exact ⟨_, rfl⟩

/-- A get reports a verdict on a capture, its read having passed T1 (44_transaction.md R191). -/
theorem getRecipe_kind {a : Attribute} {dec : Bytes → Option Value} {zero : Value} {s t : State} (hp : s.par.wf)
    (h : getRecipe a dec zero s = .next t) :
    ∃ c o v, validateResponse (reqFrame (attrGetCode a) (regAddrOf s.par a) (attrWords a)) c = some o ∧
      t.ret = some ⟨o.kind, v⟩ := by
  obtain ⟨hs, u, hu, hret⟩ := getRecipe_next h
  obtain ⟨o, hv, ht⟩ := transaction_of_admitted hs.1 (admitted_get hp a) (regAddrOf s.par a)
  rw [hu] at ht
  cases ht
  obtain ⟨v, rfl⟩ := hret o rfl
  exact ⟨_, o, v, hv, rfl⟩

theorem eq_fail_of_kind {o : Result} {k : FailKind} (h : o.kind = .fail k) : o = .fail k := by
  cases o with
  | ok r => cases h
  | fail k' => cases h; rfl

theorem getRecipe_kind_ne {a : Attribute} {dec : Bytes → Option Value} {zero : Value} {s t : State} {k : Kind}
    {v : Value} (hp : s.par.wf) (h : getRecipe a dec zero s = .next t) (hret : t.ret = some ⟨k, v⟩) :
    k ≠ .fail .invalidArgument ∧ k ≠ .fail .echoMismatch := by
  obtain ⟨c, o, v', hv, ho⟩ := getRecipe_kind hp h
  obtain ⟨rfl, -⟩ := Ret.mk.inj (Option.some_inj.1 (ho.symm.trans hret))
  refine ⟨fun hk => ?_, fun hk => ?_⟩ <;> rw [eq_fail_of_kind hk] at hv
  · exact validateResponse_ne_invalidArgument _ c hv
  · exact validateResponse_read_ne_echoMismatch (isReadCode_attrGetCode a) c hv

/-- Settles O56: each of the thirteen instructions is a get recipe, and no verdict on a read response has either kind. -/
theorem getsAreNeverRejectedLocally : Obligations.GetsAreNeverRejectedLocally := by
  intro s t k v hp
  have hget {a : Attribute} {dec : Bytes → Option Value} {zero : Value} :=
    getRecipe_kind_ne (a := a) (dec := dec) (zero := zero) (t := t) (k := k) (v := v) hp
  simp only [List.forall_mem_cons]
  exact ⟨hget, hget, hget, hget, hget, hget, hget, hget, hget, hget, hget, hget, hget, List.forall_mem_nil _⟩

end Sys2Proof.Machine
end

section
/-! PROOFS. The statements of 45_register_ops.md: what each get returns of an accepted response, which values each set
sends, and the kinds that they report. -/

namespace Sys2Proof.Machine

/-! ## The get recipe -/

theorem accepted_read_length {fc : Byte} {addr val : U16} {r : Bytes} (hfc : isReadCode fc = true)
    (hv : validateResponse (reqFrame fc addr val) r = some (.ok r)) : r.length = 5 + 2 * val.toNat := by
  obtain ⟨E, hE, -⟩ := validateResponse_eq_some hv
  obtain ⟨hlen, -, -⟩ := (validateResponse_read_ok_iff (isBuilt_of_expected hE) hfc r).1 hv
  rwa [frameVal_reqFrame] at hlen

/-- A read that succeeds has captured as many registers as it asked for (42_response_validator.md R148). -/
theorem transaction_ok_length {s u : State} (hs : s.Ready) {fc : Byte} {addr val : U16} {r : Bytes}
    (hfc : isReadCode fc = true) (hu : transaction fc addr val s = .next u) (hr : u.res = some (.ok r)) :
    r.length = 5 + 2 * val.toNat := by
  by_cases hadm : Admitted s.par fc val
  · obtain ⟨o, hv, ht⟩ := transaction_of_admitted hs.1 hadm addr
    rw [hu] at ht
    cases ht
    cases hr
    obtain rfl := validateResponse_ok hv
    exact accepted_read_length hfc hv
  · rw [transaction_of_not hadm] at hu
    cases hu
    cases hr

/-- A get whose decoder gives `val r` on each response `r` of the right length: its state is that of its transaction,
with `val r` or the zero as the value it returns (45_register_ops.md R211, R213). -/
theorem getRecipe_of_decodes {s : State} (hs : s.Ready) (a : Attribute) {dec : Bytes → Option Value}
    {val : Bytes → Value} (zero : Value)
    (hdec : ∀ r : Bytes, r.length = 5 + 2 * (attrWords a).toNat → dec r = some (val r)) :
    ∃ u t, exec (.transact (attrGetCode a) (regAddrOf s.par a) (attrWords a)) s = .next u ∧
      getRecipe a dec zero s = .next t ∧
      (∀ k, u.res = some (.fail k) → t = { u with ret := some ⟨.fail k, zero⟩ }) ∧
      ∀ r, u.res = some (.ok r) →
        r.length = 5 + 2 * (attrWords a).toNat ∧ t = { u with ret := some ⟨.ok, val r⟩ } := by
  have hread := isReadCode_attrGetCode a
  obtain ⟨u, t, hu, ht, hfail, hok⟩ := getRecipe_of_ready hs a (dec := dec) zero fun f r hv hf => by
    rw [hdec r (accepted_read_length hread (hf ▸ hv)), Option.isSome_some]
  refine ⟨u, t, (exec_transact_of_ready hs _ _ _).trans hu, ht, hfail, fun r hr => ?_⟩
  have hlen := transaction_ok_length hs hread hu hr
  obtain ⟨v, hv, rfl⟩ := hok r hr
  obtain rfl : val r = v := Option.some_inj.1 ((hdec r hlen).symm.trans hv)
  exact ⟨hlen, rfl⟩

/-- The kinds that no get reports leave the four of a read (42_response_validator.md R142). -/
theorem readKind_cases {k : FailKind} (harg : Kind.fail k ≠ .fail .invalidArgument)
    (hecho : Kind.fail k ≠ .fail .echoMismatch) :
    k = .timeout ∨ k = .unexpectedLength ∨ k = .checksumMismatch ∨ k = .malformedResponse := by
  cases k with
  | invalidArgument => exact absurd rfl harg
  | echoMismatch => exact absurd rfl hecho
  | timeout | unexpectedLength | checksumMismatch | malformedResponse => decide

/-! ## Words -/

/-- The word at offsets 3 and 4, the first register of a response (R220). -/
def firstWord (r : Bytes) : U16 := be16 (r.getD 3 0) (r.getD 4 0)

theorem firstWord_toNat (r : Bytes) : (firstWord r).toNat = 256 * (r.getD 3 0).toNat + (r.getD 4 0).toNat :=
  be16_toNat _ _

theorem extract16_firstWord {r : Bytes} (h : 5 ≤ r.length) : extract16 r 3 = some (firstWord r) :=
  if_neg (Nat.not_lt.2 h)

theorem extract32_firstWords {r : Bytes} (h : 7 ≤ r.length) :
    extract32 r 3 = some (be32 (r.getD 3 0) (r.getD 4 0) (r.getD 5 0) (r.getD 6 0)) :=
  if_neg (Nat.not_lt.2 h)

theorem getRecipe_u16 {s : State} (hs : s.Ready) (a : Attribute) :
    ∃ u t, exec (.transact (attrGetCode a) (regAddrOf s.par a) (attrWords a)) s = .next u ∧
      getRecipe a decodeU16 (.u16 0) s = .next t ∧
      (∀ k, u.res = some (.fail k) → t = { u with ret := some ⟨.fail k, .u16 0⟩ }) ∧
      ∀ r, u.res = some (.ok r) → ∃ v : U16, t = { u with ret := some ⟨.ok, .u16 v⟩ } ∧
        v.toNat = 256 * (r.getD 3 0).toNat + (r.getD 4 0).toNat := by
  obtain ⟨u, t, hu, ht, hfail, hok⟩ := getRecipe_of_decodes hs a (.u16 0)
    (dec := decodeU16) (val := fun r => .u16 (firstWord r)) fun r hlen => by
      rw [decodeU16, extract16_firstWord (by omega), Option.map_some]
  exact ⟨u, t, hu, ht, hfail, fun r hr => ⟨_, (hok r hr).2, firstWord_toNat r⟩⟩

/-- Settles O47: each of the seven instructions reads one register and decodes it by `decodeU16`. -/
theorem getsOfUnsignedWords : Obligations.GetsOfUnsignedWords := by
  intro s hs
  have hget := getRecipe_u16 hs
  simp only [List.forall_mem_cons]
  exact ⟨hget .meterStatus, hget .outputStatus, hget .pwmOutput, hget .memoryMapVersion, hget .abcPeriod,
    hget .userAck, hget .userConcentration, List.forall_mem_nil _⟩

theorem getRecipe_u32 {s : State} (hs : s.Ready) (a : Attribute) (ha : attrWords a = 2) :
    ∃ u t, exec (.transact (attrGetCode a) (regAddrOf s.par a) (attrWords a)) s = .next u ∧
      getRecipe a decodeU32 (.u32 0) s = .next t ∧
      (∀ k, u.res = some (.fail k) → t = { u with ret := some ⟨.fail k, .u32 0⟩ }) ∧
      ∀ r, u.res = some (.ok r) → ∃ v : U32, t = { u with ret := some ⟨.ok, .u32 v⟩ } ∧
        v.toNat = 65536 * (256 * (r.getD 3 0).toNat + (r.getD 4 0).toNat)
          + (256 * (r.getD 5 0).toNat + (r.getD 6 0).toNat) := by
  obtain ⟨u, t, hu, ht, hfail, hok⟩ := getRecipe_of_decodes hs a (.u32 0) (dec := decodeU32)
    (val := fun r => .u32 (be32 (r.getD 3 0) (r.getD 4 0) (r.getD 5 0) (r.getD 6 0))) fun r hlen => by
      rw [ha] at hlen
      rw [decodeU32, extract32_firstWords (by rw [hlen]; decide), Option.map_some]
  exact ⟨u, t, hu, ht, hfail, fun r hr => ⟨_, (hok r hr).2, be32_toNat_words _ _ _ _⟩⟩

/-- Settles O48: both instructions read two registers and decode them by `decodeU32`. -/
theorem getsOfDoubleWords : Obligations.GetsOfDoubleWords := by
  intro s hs
  simp only [List.forall_mem_cons]
  exact ⟨getRecipe_u32 hs .sensorTypeId rfl, getRecipe_u32 hs .sensorId rfl, List.forall_mem_nil _⟩

theorem toInt_firstWord (r : Bytes) {n : Nat} (hn : n = 256 * (r.getD 3 0).toNat + (r.getD 4 0).toNat) :
    (firstWord r).toInt = if n < 0x8000 then (n : Int) else (n : Int) - 65536 := by
  rw [BitVec.toInt_eq_toNat_cond, firstWord_toNat, ← hn]
  split <;> split <;> omega

/-- Settles O49: `decodeS16` is the two's-complement reading of the word. -/
theorem getCo2IsSigned : Obligations.GetCo2IsSigned := by
  intro s hs
  obtain ⟨u, t, hu, ht, hfail, hok⟩ := getRecipe_of_decodes hs .co2 (.int 0) (dec := decodeS16)
    (val := fun r => .int (firstWord r).toInt) fun r hlen => by
      rw [decodeS16, extract16_firstWord (by omega), Option.map_some]
  refine ⟨u, t, hu, ht, hfail, fun r hr => ⟨_, rfl, ?_⟩⟩
  rw [← toInt_firstWord r rfl]
  exact (hok r hr).2

/-! ## GET_TEMPERATURE -/

theorem firstWord_div_le (r : Bytes) : (256 * (r.getD 3 0).toNat + (r.getD 4 0).toNat) / 100 ≤ 655 := by
  have hword := (firstWord r).isLt
  rw [firstWord_toNat] at hword
  omega

/-- Settles O50: a 16-bit word over 100 is at most 655, and a read that passes T1 fails in four ways only. -/
theorem getTemperatureScalesTheRawWord : Obligations.GetTemperatureScalesTheRawWord := by
  refine ⟨fun s hs => ?_, by decide +kernel⟩
  obtain ⟨u, t, hu, ht, hfail, hok⟩ := getRecipe_of_decodes hs .temperature (.int 0) (dec := decodeTemperature)
    (val := fun r => .int (temperatureOf (firstWord r))) fun r hlen => by
      rw [decodeTemperature, extract16_firstWord (by omega), Option.map_some]
  refine ⟨u, t, hu, ht, fun k hk => ⟨hfail k hk, fun hpar => ?_⟩, fun r hr => ⟨_, rfl, ?_, ?_⟩⟩
  · obtain ⟨harg, hecho⟩ := getRecipe_kind_ne hpar ht (congrArg State.ret (hfail k hk))
    exact readKind_cases harg hecho
  · rw [(hok r hr).2, temperatureOf, firstWord_toNat]
    rfl
  · have hmax := firstWord_div_le r
    omega

/-! ## GET_SOFTWARE_VERSION -/

theorem readNumber_digits {b x : Byte} (hb : b ≠ 0x30) (ds : Bytes) :
    readNumber (b :: x :: ds) = readDigits decDigit 10 (b :: x :: ds) 0 :=
  if_neg fun h => hb h.1

/-- A byte in decimal is read back, and only 0 begins with the digit 0 (R224). -/
theorem decimalOf_spec (b : Byte) : readNumber (decimalOf b) = some b.toNat ∧
    ((decimalOf b).head? = some 0x30 → (decimalOf b).length = 1) := by
  have hb := b.isLt
  have hdigit {n : Nat} (hn : n < 10) : decDigit (digitChar n) = some n := (decChar_spec n hn).1
  have hlead {n : Nat} (hn : n < 10) (hpos : n ≠ 0) : digitChar n ≠ 0x30 := (decChar_spec n hn).2.2 hpos
  unfold decimalOf
  dsimp only
  split
  next hone => exact ⟨hdigit hone, fun _ => rfl⟩
  split
  next hone htwo =>
    have hne := hlead (n := b.toNat / 10) (by omega) (by omega)
    refine ⟨?_, fun h => absurd (Option.some_inj.1 h) hne⟩
    rw [readNumber_digits hne]
    simp only [readDigits, hdigit (n := b.toNat / 10) (by omega), hdigit (n := b.toNat % 10) (by omega)]
    congr 1
    omega
  next hone htwo =>
    have hne := hlead (n := b.toNat / 100) (by omega) (by omega)
    refine ⟨?_, fun h => absurd (Option.some_inj.1 h) hne⟩
    rw [readNumber_digits hne]
    simp only [readDigits, hdigit (n := b.toNat / 100) (by omega), hdigit (n := b.toNat / 10 % 10) (by omega),
      hdigit (n := b.toNat % 10) (by omega)]
    congr 1
    omega

theorem decodeVersion_of_length {r : Bytes} (h : 5 ≤ r.length) : decodeVersion r =
    some (.text (decimalOf (r.getD 3 0) ++ [0x2E] ++ decimalOf (r.getD 4 0))) := by
  match r, h with
  | _ :: _ :: _ :: major :: minor :: _, h => rw [decodeVersion, extractRange, if_neg (by simp)]; rfl

/-- Settles O51: the decimal text of each byte is read back as the byte. -/
theorem getSoftwareVersionIsMajorDotMinor : Obligations.GetSoftwareVersionIsMajorDotMinor := by
  intro s hs
  obtain ⟨u, t, hu, ht, hfail, hok⟩ := getRecipe_of_decodes hs .softwareVersion (.text [])
    fun r hlen => decodeVersion_of_length (r := r) (by omega)
  refine ⟨u, t, hu, ht, hfail, fun r hr => ?_⟩
  obtain ⟨hmajor, hmajorLead⟩ := decimalOf_spec (r.getD 3 0)
  obtain ⟨hminor, hminorLead⟩ := decimalOf_spec (r.getD 4 0)
  exact ⟨_, _, (hok r hr).2, hmajor, hminor, hmajorLead, hminorLead⟩

/-! ## GET_SERIAL_NUMBER -/

/-- The bytes of a range before the first NUL (R225). -/
theorem takeWhile_range {r : Bytes} {off k : Nat} (h : off + k ≤ r.length) :
    ∃ m, m ≤ k ∧ ((r.drop off).take k).takeWhile (fun b => b != 0x00) = (r.drop off).take m ∧
      (∀ j, j < m → r.getD (off + j) 0 ≠ 0x00) ∧ (m < k → r.getD (off + m) 0 = 0x00) := by
  obtain ⟨hlen, hbytes⟩ := range_bytes h
  set w := (r.drop off).take k with hw
  set m := w.findIdx (fun b => !(b != 0x00)) with hm
  have hmk : m ≤ k := hlen ▸ List.findIdx_le_length
  refine ⟨m, hmk, ?_, fun j hj => ?_, fun hlt => ?_⟩
  · rw [List.takeWhile_eq_take_findIdx_not, ← hm, hw, List.take_take, min_eq_left hmk]
  · have hne := List.not_of_lt_findIdx hj
    rw [← hbytes j (by omega), List.getD_eq_getElem _ _ (by omega)]
    simpa using hne
  · have hnul : (!(w[m] != 0x00)) = true := List.findIdx_getElem (w := hlen.symm ▸ hlt)
    rw [← hbytes m hlt, List.getD_eq_getElem _ _ (by omega)]
    simpa using hnul

/-- Settles O52: an accepted response to a read of five registers has 15 bytes, so the range is inside it. -/
theorem getSerialNumberStopsAtNul : Obligations.GetSerialNumberStopsAtNul := by
  intro s hs
  obtain ⟨u, t, hu, ht, hfail, hok⟩ := getRecipe_of_decodes hs .serialNumber (.text []) (dec := decodeSerial)
    (val := fun r => .text (((r.drop 3).take 10).takeWhile fun b => b != 0x00)) fun r hlen => by
      rw [decodeSerial, extractRange, if_neg (by rw [hlen]; decide), Option.map_some]
  refine ⟨u, t, hu, ht, hfail, fun r hr => ?_⟩
  obtain ⟨hlen, htext⟩ := hok r hr
  have hlen : r.length = 15 := hlen
  obtain ⟨m, hm, hcut, hbefore, hnul⟩ := takeWhile_range (r := r) (off := 3) (k := 10) (by omega)
  exact ⟨m, hm, hlen, hcut ▸ htext, hbefore, hnul⟩

/-! ## The set recipe -/

/-- The kinds with which a write can fail (42_response_validator.md R143, R144, R147). -/
theorem writeKind_cases {addr v : U16} {c : Bytes} {k : FailKind}
    (hv : validateResponse (reqFrame 0x06 addr v) c = some (.fail k)) :
    k = .timeout ∨ k = .unexpectedLength ∨ k = .echoMismatch := by
  obtain ⟨E, hE, -⟩ := validateResponse_eq_some hv
  cases (validateResponse_iff_judged hE).1 hv with
  | timeout | unexpectedLength | echoMismatch => decide
  | checksumMismatch hread | malformedResponse hread => exact absurd hread (by simp)

/-- A set whose value is in range: its state is that of its write transaction, whose kind it reports, and the request
is the `CRC_APPEND` of its body (R212, R213). -/
theorem setRecipe_transacts {s : State} (hs : s.Ready) (a : Attribute) {valid : U16 → Bool} {v : U16}
    (hvalid : valid v = true) :
    ∃ u o f, exec (.transact 0x06 (regAddrOf s.par a) v) s = .next u ∧ u.res = some o ∧
      setRecipe a valid v s = .next { u with ret := some ⟨o.kind, .unit⟩ } ∧
      (∀ k, o = .fail k → k = .timeout ∨ k = .unexpectedLength ∨ k = .echoMismatch) ∧
      u.txf = some f ∧ frameBytes f = crcAppend (reqBody 0x06 (regAddrOf s.par a) v) := by
  obtain ⟨u, o, hu, ho, hset⟩ := setRecipe_of_valid hs a hvalid
  obtain ⟨o', hv, ht⟩ := transaction_of_admitted hs.1 ((admitted_iff s.par 0x06 v).2 (.inr rfl)) (regAddrOf s.par a)
  obtain rfl := Host.Outcome.next.inj (hu.symm.trans ht)
  obtain rfl : o' = o := Option.some_inj.1 ho
  exact ⟨_, o', _, (exec_transact_of_ready hs _ _ _).trans hu, rfl, hset, fun k hk => writeKind_cases (hk ▸ hv), rfl,
    frameBytes_reqFrame ..⟩

theorem validAbc_iff (v : U16) : validAbc v = true ↔ v.toNat = 0 ∨ (4 ≤ v.toNat ∧ v.toNat ≤ 4800) := by
  simp only [validAbc, Bool.or_eq_true, Bool.and_eq_true, beq_iff_eq, decide_eq_true_eq]

theorem validConc_iff (v : U16) : validConc v = true ↔ 400 ≤ v.toNat ∧ v.toNat ≤ 2000 := by
  simp only [validConc, Bool.and_eq_true, decide_eq_true_eq]

/-- A set whose range is the predicate `P` checks it before the transaction (R212, R231, R232). -/
theorem setRecipe_checks {s : State} (hs : s.Ready) (a : Attribute) {valid : U16 → Bool} {v : U16} {P : Prop}
    (hP : valid v = true ↔ P) :
    (P → ∃ u o, exec (.transact 0x06 (regAddrOf s.par a) v) s = .next u ∧ u.res = some o ∧
      setRecipe a valid v s = .next { u with ret := some ⟨o.kind, .unit⟩ } ∧
      ∀ k, o = .fail k → k = .timeout ∨ k = .unexpectedLength ∨ k = .echoMismatch) ∧
    (¬ P → setRecipe a valid v s = .next { s with ret := some ⟨.fail .invalidArgument, .unit⟩ }) := by
  refine ⟨fun h => ?_, fun h => setRecipe_of_invalid hs a (Bool.eq_false_iff.2 (mt hP.1 h))⟩
  obtain ⟨u, o, f, hu, ho, hset, hkind, -⟩ := setRecipe_transacts hs a (hP.2 h)
  exact ⟨u, o, hu, ho, hset, hkind⟩

/-- Settles O53: `validAbc` is the range. -/
theorem setAbcPeriodChecksItsRange : Obligations.SetAbcPeriodChecksItsRange :=
  fun _ v hs => setRecipe_checks hs .abcPeriod (validAbc_iff v)

/-- Settles O54: `validConc` is the range. -/
theorem setUserConcentrationChecksItsRange : Obligations.SetUserConcentrationChecksItsRange :=
  fun _ v hs => setRecipe_checks hs .userConcentration (validConc_iff v)

/-- Settles O55: `validAny` lets every value pass. -/
theorem setsWithoutRangeForwardAnyValue : Obligations.SetsWithoutRangeForwardAnyValue := by
  intro s v hs
  simp only [List.forall_mem_cons]
  exact ⟨setRecipe_transacts hs .userAck rfl, setRecipe_transacts hs .specialCommand rfl, List.forall_mem_nil _⟩

end Sys2Proof.Machine
end

section
/-! PROOFS. The statements of 60_exceptions.md: a call during a transaction, an operation that reports InvalidArgument,
and the observation history. -/

namespace Sys2Proof.Machine

/-! ## A call during a transaction -/

section
variable {s : State} (ha : s.session = .active) (hp : s.ph ≠ .idle)
include ha hp

theorem buildRow_of_busy (fc : Byte) (addr val crc : U16) :
    buildRow fc addr val crc s = .refused .overlappingCall := asHost_of_busy ha hp _

theorem extraction_of_busy (r : Bytes) (v : Option Value) : extraction r v s = .refused .overlappingCall :=
  asHost_of_busy ha hp _

theorem getRecipe_of_busy (a : Attribute) (dec : Bytes → Option Value) (zero : Value) :
    getRecipe a dec zero s = .refused .overlappingCall := asHost_of_busy ha hp _

theorem setRecipe_of_busy (a : Attribute) (valid : U16 → Bool) (v : U16) :
    setRecipe a valid v s = .refused .overlappingCall := asHost_of_busy ha hp _

end

/-- Settles O40: a host operation, a recipe too, asks first whether a transaction is in progress. -/
theorem overlappingCallIsRefused : Obligations.OverlappingCallIsRefused := by
  intro i s hhost ha hp
  cases i with
  | rresp | wresp | send | clear | capture => simp [Instr.IsHostOp, Instr.cls] at hhost
  | reqReadHr => exact buildRow_of_busy ha hp Config.fcReadHr ..
  | reqReadIr => exact buildRow_of_busy ha hp Config.fcReadIr ..
  | reqWriteSr => exact buildRow_of_busy ha hp Config.fcWriteSr ..
  | extractU16 | extractU32 | extractBytes => exact extraction_of_busy ha hp ..
  | crc16 | crcAppend | crcByte | build | expectedLen | validate | transact | readHr | readIr | writeHr =>
    rw [exec]
    exact asHost_of_busy ha hp _
  | setAbcPeriod | setUserConcentration | setUserAck | setSpecialCommand => exact setRecipe_of_busy ha hp ..
  | getSerialNumber | getSoftwareVersion | getCo2 | getTemperature | getAbcPeriod | getUserConcentration | getUserAck
  | getMeterStatus | getOutputStatus | getPwmOutput | getSensorTypeId | getSensorId | getMemoryMapVersion =>
    exact getRecipe_of_busy ha hp ..

/-! ## InvalidArgument -/

/-- No verdict on a capture is InvalidArgument, so T1 refused a transaction with that outcome
(44_transaction.md R191, R192). -/
theorem Cycle.eq_fail_of_invalidArgument {s u : State} (hc : Cycle s u)
    (hres : u.res = some (.fail .invalidArgument)) : u = s.fail .invalidArgument := by
  cases hc with
  | refusedLocally => rfl
  | ran f o hs hv =>
    obtain rfl : o = .fail .invalidArgument := Option.some_inj.1 hres
    exact absurd hv (validateResponse_ne_invalidArgument f _)

/-- Settles O43: of the effects of a host operation, only a cycle reaches the link, and no cycle that ran reports
InvalidArgument. -/
theorem invalidArgumentNeverTouchesTheWire : Obligations.InvalidArgumentNeverTouchesTheWire := by
  intro i s t v hhost h hret
  have he := exec_effect h
  obtain hpure | htransacting := hhost
  · rw [hpure] at he
    cases he with
    | returned | validated => exact ⟨rfl, rfl, rfl, rfl⟩
    | built => cases hret
  · rw [htransacting] at he
    cases he with
    | rejected => exact ⟨rfl, rfl, rfl, rfl⟩
    | transacted hr u hc o ho w =>
      obtain ⟨hkind, -⟩ := Ret.mk.inj (Option.some_inj.1 hret)
      rw [eq_fail_of_kind hkind] at ho
      rw [hc.eq_fail_of_invalidArgument ho]
      exact ⟨rfl, rfl, rfl, rfl⟩

/-! ## The observation history -/

/-- The first state's history is `p` and some events after it; the second state is the first with `q` in place
of `p` (60_exceptions.md R262). -/
def State.DifferInPast (p q : List Event) (s s' : State) : Prop :=
  ∃ es, s.obs = p ++ es ∧ s' = { s with obs := q ++ es }

/-- Updates that add the same events keep the relation. -/
theorem State.DifferInPast.added {p q : List Event} {s s' t t' : State} (h : State.DifferInPast p q s s')
    (new : List Event) (ht : t.obs = s.obs ++ new) (ht' : t' = { t with obs := s'.obs ++ new }) :
    State.DifferInPast p q t t' := by
  obtain ⟨es, hobs, rfl⟩ := h
  refine ⟨es ++ new, ?_, ?_⟩
  · rw [ht, hobs, List.append_assoc]
  · rw [ht', List.append_assoc]

theorem afterFetch_setObs (s : State) (h : List Event) :
    State.afterFetch { s with obs := h } = { s.afterFetch with obs := h } := by
  unfold State.afterFetch
  dsimp only
  split
  · rfl
  · split
    · rfl
    · split <;> rfl

theorem afterFetch_obs (s : State) : s.afterFetch.obs = s.obs := by
  obtain ⟨inputs, link, he⟩ := afterFetch_eq s
  rw [he]

theorem differInPast_kept (p q : List Event) : KeptByUpdates (State.DifferInPast p q) where
  view := by
    rintro s _ ⟨es, -, rfl⟩
    exact ⟨rfl, rfl, rfl, rfl, rfl, rfl, rfl, rfl, rfl⟩
  returns := by rintro s _ k v ⟨es, hobs, rfl⟩; exact ⟨es, hobs, rfl⟩
  emitTrace := by
    rintro s _ e ⟨es, hobs, rfl⟩
    exact .added ⟨es, hobs, rfl⟩ [.trace e] rfl rfl
  judge := by rintro s _ r k ⟨es, hobs, rfl⟩; exact ⟨es, hobs, rfl⟩
  fail := by rintro s _ k ⟨es, hobs, rfl⟩; exact ⟨es, hobs, rfl⟩
  succeed := by rintro s _ ⟨es, hobs, rfl⟩; exact ⟨es, hobs, rfl⟩
  setPhase := by rintro s _ ph ⟨es, hobs, rfl⟩; exact ⟨es, hobs, rfl⟩
  setBuilt := by rintro s _ f ⟨es, hobs, rfl⟩; exact ⟨es, hobs, rfl⟩
  sendFrame := by
    rintro s _ f ⟨es, hobs, rfl⟩
    exact .added ⟨es, hobs, rfl⟩ _ (State.sendFrame_obs s f) (sendFrame_eq _ f)
  clearBuffer := by rintro s _ ⟨es, hobs, rfl⟩; exact ⟨es, hobs, rfl⟩
  captureChunk := by
    rintro s _ ⟨es, hobs, rfl⟩
    exact .added ⟨es, hobs, rfl⟩ _ (State.captureChunk_obs s) (captureChunk_eq _)
  linkDeliver := by rintro s _ c ⟨es, hobs, rfl⟩; exact ⟨es, hobs, rfl⟩
  afterFetch := by
    rintro s _ ⟨es, hobs, rfl⟩
    exact ⟨es, (afterFetch_obs s).trans hobs, afterFetch_setObs s _⟩

theorem Matched.differInPast {p q : List Event} {o o' : Out} (h : Matched (State.DifferInPast p q) o o') (t : State)
    (ht : o = .next t) : ∃ es, t.obs = p ++ es ∧ o' = .next { t with obs := q ++ es } := by
  obtain ⟨_, ho', es, hobs, rfl⟩ := h t ht
  exact ⟨es, hobs, ho'⟩

/-- Settles O45: every update adds the same events to either history. -/
theorem historyNeverMatters : Obligations.HistoryNeverMatters := by
  intro s q
  have h : State.DifferInPast s.obs q s { s with obs := q } :=
    ⟨[], (List.append_nil _).symm, by rw [List.append_nil]⟩
  exact ⟨fun i => (matched_exec (differInPast_kept s.obs q) h i).differInPast,
    (matched_step (differInPast_kept s.obs q) h).differInPast⟩

end Sys2Proof.Machine
end

section
/-! PROOFS. The statements of 70_reset_and_hazards.md: what the direct use of a pure operation depends on. -/

namespace Sys2Proof.Machine

/-! ## Extractions without a verdict -/

/-- Where no verdict was given, whether a host may extract says something of the response alone (R283). -/
theorem mayExtract_iff_acceptable {s : State} {r : Bytes} (h : lastVerdict r s.verdicts = none) :
    s.MayExtract r ↔ acceptable r = true := by
  simp [State.MayExtract, h]

/-- Both states return the same value and change nothing else, or both refuse for the same reason. -/
abbrev ReturnsAlike (i : Instr) (s t : State) : Prop :=
  (∃ x, exec i s = .next { s with ret := some x } ∧ exec i t = .next { t with ret := some x }) ∨
    ∃ e, exec i s = .refused e ∧ exec i t = .refused e

/-- Of a ready state, an extraction looks only at whether a host may extract from its response. -/
theorem Extracts.returnsAlike {r : Bytes} {i : Instr} {stop : Nat} {v : Value} (h : Extracts r i stop v) {s t : State}
    (hs : s.Ready) (ht : t.Ready) (hst : s.MayExtract r ↔ t.MayExtract r) : ReturnsAlike i s t := by
  by_cases hend : stop ≤ r.length
  · by_cases hm : s.MayExtract r
    · exact .inl ⟨_, h.exec_inside hs hm hend, h.exec_inside ht (hst.1 hm) hend⟩
    · exact .inr ⟨_, h.exec_notAccepted hs hm hend, h.exec_notAccepted ht (mt hst.2 hm) hend⟩
  · have hpast : r.length < stop := Nat.not_le.1 hend
    exact .inr ⟨_, h.exec_pastEnd hs hpast, h.exec_pastEnd ht hpast⟩

/-! ## VALIDATE -/

/-- VALIDATE answers by its operands alone; the states differ in the verdicts it is noted among. -/
theorem exec_validate_answersAlike {s t : State} (hs : s.Ready) (ht : t.Ready) (f : Frame8) (r : Bytes) :
    (∃ s' t', exec (.validate f r) s = .next s' ∧ exec (.validate f r) t = .next t' ∧ s'.ret = t'.ret) ∨
      ∃ e, exec (.validate f r) s = .refused e ∧ exec (.validate f r) t = .refused e := by
  by_cases hb : isBuilt f = true
  · have hsome : (validateResponse f r).isSome = true := (validateResponse_isSome f r).trans hb
    obtain ⟨o, hv⟩ := Option.isSome_iff_exists.1 hsome
    exact .inl ⟨_, _, exec_validate_of_some hs hv, exec_validate_of_some ht hv, rfl⟩
  · exact .inr ⟨_, exec_validate_of_not_built hs hb r, exec_validate_of_not_built ht hb r⟩

/-! ## From reset -/

theorem resetWith_ready (p : Params) : (State.resetWith p).Ready := ⟨rfl, rfl⟩

/-- Reset gives no verdict on any response (R35, R283). -/
theorem resetWith_mayExtract (p : Params) {r : Bytes} (h : acceptable r = true) : (State.resetWith p).MayExtract r :=
  (mayExtract_iff_acceptable rfl).2 h

theorem Extracts.exec_resetWith {r : Bytes} {i : Instr} {stop : Nat} {v : Value} (h : Extracts r i stop v) (p : Params)
    (ha : acceptable r = true) (hend : stop ≤ r.length) :
    exec i (State.resetWith p) = .next { State.resetWith p with ret := some ⟨.ok, v⟩ } :=
  h.exec_inside (resetWith_ready p) (resetWith_mayExtract p ha) hend

/-- Settles O57: without a verdict, only the response says whether a host may extract from it; VALIDATE's answer is a
function of its operands; and the responses of the worked examples (R150 to R152) are acceptable. -/
theorem directUseDependsOnItsOperandsOnly : Obligations.DirectUseDependsOnItsOperandsOnly := by
  refine ⟨fun s t r off k hs ht hjs hjt => ?_, fun s t f r hs ht => exec_validate_answersAlike hs ht f r,
    fun p => ⟨?_, ?_, ?_⟩⟩
  · have hst : s.MayExtract r ↔ t.MayExtract r :=
      (mayExtract_iff_acceptable hjs).trans (mayExtract_iff_acceptable hjt).symm
    simp only [List.forall_mem_cons]
    exact ⟨(Extracts.u16 off).returnsAlike hs ht hst, (Extracts.u32 off).returnsAlike hs ht hst,
      (Extracts.bytes off k).returnsAlike hs ht hst, List.forall_mem_nil _⟩
  · exact (Extracts.u16 3).exec_resetWith p (by decide +kernel) (by decide)
  · exact (Extracts.u32 3).exec_resetWith p (by decide +kernel) (by decide)
  · exact (Extracts.bytes 3 10).exec_resetWith p (by decide +kernel) (by decide)

end Sys2Proof.Machine
end
